-- ==== Sys2Proof/Word.lean ====
section
/-!
DEFINITION. The word types of HUFFCORE (00_scope.md R8, 10_state.md R28, R31, R34).
All integers are unsigned (R13).
-/

namespace Sys2Proof

/-- An input byte or an emitted byte, `BYTE_W` = 8 bits (R8). -/
abbrev Byte := BitVec 8

/-- A symbol field, `SYM_W` = 9 bits: a symbol when at most 256 (R8, R20). -/
abbrev Sym := BitVec 9

/-- A node index, `IDX_W` = 10 bits (R28). -/
abbrev Idx := BitVec 10

/-- A frequency count or a node weight, `CNT_W` = 32 bits (R31, R32). -/
abbrev Count := BitVec 32

/-- A bit sequence in stream order, the unit transferred first at the head (R14). -/
abbrev Bits := List Bool

end Sys2Proof
end

