-- ==== Sys2Proof/Config.lean ====
section
/-!
DEFINITION. The parameters of 00_scope.md R8 and R9, and the free values.
The two opaque constants have no body: nothing can be proved of what they are.
-/

namespace Sys2Proof

/-- `NSYM`, the number of symbols (R8). -/
def Config.nsym : Nat := 257

/-- `NODE_CAP`, the number of nodes the node store holds (R9, D10). -/
def Config.nodeCap : Nat := 513

/-- `CODE_MAX`, the longest code in bits (R9). -/
def Config.codeMax : Nat := 256

/-- `MARKER_W`, the width of the format marker (R8). -/
def Config.markerW : Nat := 32

/-- `SYM_W`, the width of the symbol field of a header leaf (R8). -/
def Config.symW : Nat := 9

/-- The value of the parameter `MARKER` a block is built with; the spec gives none (R9, D1).
DESIGN CHOICE, safe: notes/assumptions/1.md. -/
opaque Config.marker : BitVec 32

/-- The free values, by width and by how many were taken before (`State.freeCtr`).
DESIGN CHOICE, safe: notes/assumptions/6.md. -/
opaque Config.free : (w : Nat) → Nat → BitVec w

end Sys2Proof
end

