-- ==== Sys2Proof/Syntax.lean ====
section
/-!
DEFINITION. The instructions: one constructor per row of opcode_table.json (30_encoding.md R95), in the
table's order.
-/

namespace Sys2Proof

inductive Instr where
  /-- COMPRESS: `CMD.op` = 01 (R91, R150). -/
  | compress
  /-- DECOMPRESS: `CMD.op` = 10 (R91, R165). -/
  | decompress
  /-- COUNT: phase C_COUNT (R100). -/
  | count
  /-- BUILD: phase C_BUILD (R110). -/
  | build
  /-- GENCODES: phase C_GEN (R125). -/
  | gencodes
  /-- C_MARK (R151). -/
  | cMark
  /-- HDRSER: phase C_HDR (R135). -/
  | hdrser
  /-- C_REWIND (R152). -/
  | cRewind
  /-- ENCODE: phase C_ENC (R153). -/
  | encode
  /-- C_TERM (R154). -/
  | cTerm
  /-- D_MARK (R166). -/
  | dMark
  /-- HDRDES: phase D_HDR (R140). -/
  | hdrdes
  /-- WALK: one iteration of the walk from phase D_ROOT (R168, R174). -/
  | walk
  /-- WALK_INT: one iteration of the walk from phase D_INT (R168, R174). -/
  | walkInt
  /-- CLOSE_PHASE: phase CLOSE (R155, R175, R205). -/
  | closePhase
  /-- READBYTE: `in_op` = 00 (R51). -/
  | readByte
  /-- READBIT: `in_op` = 01 (R52). -/
  | readBit
  /-- RESET: `in_op` = 10 (R54). -/
  | reset
  /-- WRITEBITS: `out_op` = 0 with `out_width` and `out_value` (R53, R92). -/
  | writeBits (width : BitVec 9) (value : BitVec 256)
  /-- CLOSE: `out_op` = 1 (R55). -/
  | close
  /-- The wire token M, the format marker (R81). -/
  | m (marker : BitVec 32)
  /-- The wire token N, an internal node of the header (R82). -/
  | n
  /-- The wire token L, a leaf of the header (R83). -/
  | l (sym : Sym)
  /-- The wire token C, a code, its first digit first (R84). -/
  | c (code : Bits)
  /-- The wire token T, the code of symbol 256 (R84, R90, R154). -/
  | t (code : Bits)
  deriving DecidableEq, Repr

/-- The formats of the opcode table. C and T share one format there; they are told apart by their place in the
grammar of R85 (body or terminator), so they have one name each here (notes/assumptions/18.md). -/
inductive Format where
  | cmd | phase | inOp | outOp | marker | header | code | terminator
  deriving DecidableEq, Repr

end Sys2Proof
end

