-- ==== Sys2Proof/WellFormed.lean ====
section
/-!
DEFINITION. Which instructions are well formed: the operand range of 30_encoding.md R84.
Every 9-bit symbol field is accepted when read (43_header_codec.md R144), so `l` has no check.
-/

namespace Sys2Proof

/-- The operand ranges. A code is 1 to 256 bits (R84). HUFFCORE issues `out_width` 1 to 256, but R53 gives WRITEBITS its effect
at every width, so no width is ill formed (notes/assumptions/39.md). -/
def Instr.wellFormed : Instr → Bool
  | .c code => decide (1 ≤ code.length ∧ code.length ≤ Config.codeMax)
  | .t code => decide (1 ≤ code.length ∧ code.length ≤ Config.codeMax)
  | .compress | .decompress | .count | .build | .gencodes | .cMark | .hdrser | .cRewind | .encode | .cTerm
  | .dMark | .hdrdes | .walk | .walkInt | .closePhase | .readByte | .readBit | .reset | .writeBits _ _ | .close
  | .m _ | .n | .l _ => true

/-- `i` is well formed. -/
abbrev Instr.WellFormed (i : Instr) : Prop := i.wellFormed = true

end Sys2Proof
end

