-- ==== Sys2Proof/Decode.lean ====
section
/-!
DEFINITION. Bit sequences as integers (00_scope.md R13), the decoder, total on any bits and rejecting by name, the
encoder, and the reading of opcode_table.json's words (30_encoding.md R80 to R95).
-/

namespace Sys2Proof

/-- `bits(w, v)`: `v[w-1]` first, `v[0]` last (R13). -/
def bits : Nat → Nat → Bits
  | 0, _ => []
  | w + 1, v => v.testBit w :: bits w v

/-- One digit more at the low end: `(v << 1) | b` (R61). -/
def shiftIn (v : Nat) (b : Bool) : Nat := 2 * v + b.toNat

/-- `val(p)`: the integer whose bits are `p`, first bit most significant (R13). -/
def val (p : Bits) : Nat := p.foldl shiftIn 0

/-- Why the decoder refuses. -/
inductive DecodeError where
  /-- The bits end inside the token or word. -/
  | tooFewBits
  /-- `CMD.op` 00 or 11 (R91). -/
  | reservedCommand
  /-- Phase code 0000 (IDLE), 1110 or 1111: no operation (R26, R95). -/
  | noOperation
  /-- `in_op` = 11 (R92). -/
  | inOpNeverIssued
  /-- A code of no bits (R84). -/
  | emptyCode
  /-- A code of more than 256 bits (R84). -/
  | codeTooLong
  deriving DecidableEq, Repr

/-- Format CMD (R91). -/
def decodeCmd : Bits → Except DecodeError (Instr × Bits)
  | false :: true :: rest => .ok (.compress, rest)
  | true :: false :: rest => .ok (.decompress, rest)
  | _ :: _ :: _ => .error .reservedCommand
  | _ => .error .tooFewBits

/-- Format PHASE: the operation a phase code selects (R26, R95). -/
def decodePhase : Bits → Except DecodeError (Instr × Bits)
  | false :: false :: false :: true :: rest => .ok (.count, rest)
  | false :: false :: true :: false :: rest => .ok (.build, rest)
  | false :: false :: true :: true :: rest => .ok (.gencodes, rest)
  | false :: true :: false :: false :: rest => .ok (.cMark, rest)
  | false :: true :: false :: true :: rest => .ok (.hdrser, rest)
  | false :: true :: true :: false :: rest => .ok (.cRewind, rest)
  | false :: true :: true :: true :: rest => .ok (.encode, rest)
  | true :: false :: false :: false :: rest => .ok (.cTerm, rest)
  | true :: false :: false :: true :: rest => .ok (.dMark, rest)
  | true :: false :: true :: false :: rest => .ok (.hdrdes, rest)
  | true :: false :: true :: true :: rest => .ok (.walk, rest)
  | true :: true :: false :: false :: rest => .ok (.walkInt, rest)
  | true :: true :: false :: true :: rest => .ok (.closePhase, rest)
  | _ :: _ :: _ :: _ :: _ => .error .noOperation
  | _ => .error .tooFewBits

/-- Format INOP (R92). -/
def decodeInOp : Bits → Except DecodeError (Instr × Bits)
  | false :: false :: rest => .ok (.readByte, rest)
  | false :: true :: rest => .ok (.readBit, rest)
  | true :: false :: rest => .ok (.reset, rest)
  | true :: true :: _ => .error .inOpNeverIssued
  | _ => .error .tooFewBits

/-- Format OUTOP: `out_op`, then 9 bits `out_width`, then 256 bits `out_value`; both ignored by close (R92). Every
width is accepted: R53 gives the effect for each (notes/assumptions/39.md). -/
def decodeOutOp : Bits → Except DecodeError (Instr × Bits)
  | [] => .error .tooFewBits
  | op :: rest =>
    if rest.length < 9 + 256 then .error .tooFewBits
    else if op then .ok (.close, rest.drop (9 + 256))
    else
      .ok (.writeBits (BitVec.ofNat 9 (val (rest.take 9))) (BitVec.ofNat 256 (val ((rest.drop 9).take 256))),
        rest.drop (9 + 256))

/-- Format M: 32 bits, unconditionally (R81, R86 (a)). -/
def decodeMarker (bs : Bits) : Except DecodeError (Instr × Bits) :=
  if bs.length < Config.markerW then .error .tooFewBits
  else .ok (.m (BitVec.ofNat 32 (val (bs.take Config.markerW))), bs.drop Config.markerW)

/-- Formats N and L: the first bit gives the format (R82, R83, R86 (b)). -/
def decodeHeader : Bits → Except DecodeError (Instr × Bits)
  | [] => .error .tooFewBits
  | false :: rest => .ok (.n, rest)
  | true :: rest =>
    if rest.length < Config.symW then .error .tooFewBits
    else .ok (.l (BitVec.ofNat 9 (val (rest.take Config.symW))), rest.drop Config.symW)

/-- Format C: a code's boundary is found by the walk over the tree, not by the bits (R84, R86 (c)), so the bits
given are one whole code. -/
def decodeCode (mk : Bits → Instr) (bs : Bits) : Except DecodeError (Instr × Bits) :=
  if bs.length = 0 then .error .emptyCode
  else if Config.codeMax < bs.length then .error .codeTooLong
  else .ok (mk bs, [])

/-- The decoder: from the bits of a word or token of a format, first transferred (or most significant) bit first, to
the instruction and the bits after it. -/
def decode : Format → Bits → Except DecodeError (Instr × Bits)
  | .cmd, bs => decodeCmd bs
  | .phase, bs => decodePhase bs
  | .inOp, bs => decodeInOp bs
  | .outOp, bs => decodeOutOp bs
  | .marker, bs => decodeMarker bs
  | .header, bs => decodeHeader bs
  | .code, bs => decodeCode .c bs
  | .terminator, bs => decodeCode .t bs

/-- The format of an instruction's row. -/
def Instr.format : Instr → Format
  | .compress | .decompress => .cmd
  | .count | .build | .gencodes | .cMark | .hdrser | .cRewind | .encode | .cTerm
  | .dMark | .hdrdes | .walk | .walkInt | .closePhase => .phase
  | .readByte | .readBit | .reset => .inOp
  | .writeBits _ _ | .close => .outOp
  | .m _ => .marker
  | .n | .l _ => .header
  | .c _ => .code
  | .t _ => .terminator

/-- The bits of an instruction, written from the same tables (R26, R81 to R84, R91, R92). What close ignores is 0. -/
def encode : Instr → Bits
  | .compress => [false, true]
  | .decompress => [true, false]
  | .count => [false, false, false, true]
  | .build => [false, false, true, false]
  | .gencodes => [false, false, true, true]
  | .cMark => [false, true, false, false]
  | .hdrser => [false, true, false, true]
  | .cRewind => [false, true, true, false]
  | .encode => [false, true, true, true]
  | .cTerm => [true, false, false, false]
  | .dMark => [true, false, false, true]
  | .hdrdes => [true, false, true, false]
  | .walk => [true, false, true, true]
  | .walkInt => [true, true, false, false]
  | .closePhase => [true, true, false, true]
  | .readByte => [false, false]
  | .readBit => [false, true]
  | .reset => [true, false]
  | .writeBits width value => false :: (bits 9 width.toNat ++ bits 256 value.toNat)
  | .close => true :: List.replicate (9 + 256) false
  | .m marker => bits 32 marker.toNat
  | .n => [false]
  | .l sym => true :: bits 9 sym.toNat
  | .c code => code
  | .t code => code

/-- The formats whose table patterns can have `nbits` bits, or that many once rounded up to whole bytes, with the
pattern's own width and the operand bits after it (all 0); in the order of the table's rows. The table's code words
overlap between formats, so a word alone does not name its format (notes/assumptions/23.md). -/
def tableFormats : Nat → List (Format × Nat × Nat)
  | 1 => [(.outOp, 1, 265), (.header, 1, 0), (.code, 1, 0), (.terminator, 1, 0)]
  | 2 => [(.cmd, 2, 0), (.inOp, 2, 0)]
  | 4 => [(.phase, 4, 0)]
  | 8 =>
    [(.cmd, 2, 0), (.phase, 4, 0), (.inOp, 2, 0), (.outOp, 1, 265), (.header, 1, 0), (.code, 1, 0), (.terminator, 1, 0)]
  | 10 => [(.header, 10, 0)]
  | 16 => [(.header, 10, 0)]
  | 32 => [(.marker, 32, 0)]
  | _ => []

/-- The word `w` read in one format: its pattern's bits, most significant first, then the zero operand bits. -/
def decodeTableAs (w : Nat) (f : Format × Nat × Nat) : Option Instr :=
  if w < 2 ^ f.2.1 then
    match decode f.1 (bits f.2.1 w ++ List.replicate f.2.2 false) with
    | .ok (i, []) => some i
    | _ => none
  else none

/-- The instruction of a word of opcode_table.json: the first row, in the table's order, that the word can be. -/
def decodeTableWord (nbits w : Nat) : Option Instr :=
  (tableFormats nbits).findSome? (decodeTableAs w)

end Sys2Proof
end

