-- ==== Sys2Proof/Machine/State.lean ====
section
/-!
DEFINITION. The state of HUFFCORE and of the two streams it owns during a command (10_state.md), as plain data; the
reasons a step can stop; the state after reset (70_reset_and_hazards.md R230).
-/

namespace Sys2Proof.Machine

/-- The phases of R26. Codes 14 and 15 "are never taken" and have no constructor. -/
inductive Phase where
  | idle | cCount | cBuild | cGen | cMark | cHdr | cRewind | cEnc | cTerm | dMark | dHdr | dRoot | dInt | close
  deriving DecidableEq, Repr

/-- The error kinds of R200 in the order of their codes. -/
inductive ErrKind where
  | none | format | corruptHeader | truncatedBody
  deriving DecidableEq, Repr

/-- The three status flags (R29). -/
@[ext]
structure Flags where
  busy : Bool
  done : Bool
  err : ErrKind
  deriving DecidableEq, Repr

/-- The working registers (R28). -/
@[ext]
structure Regs where
  acc : BitVec 32
  bitcnt : BitVec 6
  sym : Sym
  root : Idx
  cur : Idx
  nnodes : Idx
  path : BitVec 256
  plen : BitVec 9
  sp : Idx
  deriving DecidableEq, Repr

/-- An entry of the node store (R32): `leaf` = 1 with `sym`, or `leaf` = 0 with `left` and `right`; each with its
`weight`. DESIGN CHOICE: the fields R32 calls "leaf only" and "internal only" exist in that kind of entry alone
(notes/assumptions/9.md). -/
inductive Node where
  | leaf (sym : Sym) (weight : Count)
  | inner (weight : Count) (left right : Idx)
  deriving DecidableEq, Repr

/-- An entry of the code table (R34): the code is `bits(len, bits)`. -/
@[ext]
structure CodeEntry where
  valid : Bool
  len : BitVec 9
  bits : BitVec 256
  deriving DecidableEq, Repr

/-- The data of IN: a byte sequence (R51) or a bit sequence (R52). -/
inductive InData where
  | bytes (x : List Byte)
  | bits (b : Bits)
  deriving DecidableEq, Repr

/-- An answer on the IN response channel (R40): a byte, a bit, `END`, or the acknowledgement of a reset. -/
inductive Rsp where
  | byte (b : Byte)
  | bit (b : Bool)
  | endOfData
  | ack
  deriving DecidableEq, Repr

/-- The input stream and its channel: data, read position (R38 (a)), the outstanding request (`in_req_valid`,
`in_op`) and the last answer (R40). -/
@[ext]
structure InPort where
  data : InData
  pos : Nat
  req : Option (BitVec 2)
  rsp : Option Rsp
  deriving DecidableEq, Repr

/-- A transaction on the OUT channel (R40, R92). -/
structure OutReq where
  op : Bool
  width : BitVec 9
  value : BitVec 256
  deriving DecidableEq, Repr

/-- The output stream and its channel: "the sequence of bits written so far plus a `closed` flag" (R38 (b)) and the
outstanding transaction (`out_valid` and its arguments, R40). -/
@[ext]
structure OutPort where
  bits : Bits
  closed : Bool
  req : Option OutReq
  deriving DecidableEq, Repr

/-- A stream transaction with its arguments and its answer, `none` being `END` (R12, R39, R89). -/
inductive Txn where
  | readByte (answer : Option Byte)
  | readBit (answer : Option Bool)
  | reset
  | writeBits (width value : Nat)
  | close
  deriving DecidableEq, Repr

/-- Everything the spec gives the machine. `marker` is the parameter MARKER the host sets up (R9, R234 (d)); `cmd` the
command it offers (`cmd_valid`, `cmd_op`, R40); `trace` and `freeCtr` are the model's own (notes/assumptions/11.md
and 6.md). -/
@[ext]
structure State where
  phase : Phase
  flags : Flags
  regs : Regs
  freq : Vector Count 257
  node : Vector Node 513
  pq : List Idx
  code : Vector CodeEntry 257
  stk : List (Idx × BitVec 2)
  marker : BitVec 32
  inp : InPort
  out : OutPort
  cmd : Option (BitVec 2)
  trace : List Txn
  freeCtr : Nat
  deriving DecidableEq, Repr

/-- Why the machine stops with a fault. -/
inductive Fault where
  /-- ENCODE read a byte that has no code: the environment broke the two-pass duty, "the run has no further step"
  (R241, U6). Raised by ENCODE. Safe. -/
  | uncodedByte
  /-- A node index at or above `NODE_CAP`: the node store has no such entry (R32). Raised by GENCODES, HDRSER, WALK,
  WALK_INT, C and T, in states no command reaches. Safe. -/
  | noSuchNode
  /-- A leaf symbol above 256 to be put in the code table, which has no such entry (R34). Raised by GENCODES, in
  states no command reaches. Safe. -/
  | noSuchSymbol
  /-- A traversal deeper than the path register (R28) or the traversal stack (R35) holds. Raised by GENCODES and
  HDRSER, in states no command reaches. Safe. -/
  | traversalTooDeep
  deriving DecidableEq, Repr

/-- Why a step is refused. -/
inductive Refusal where
  /-- The instruction has no meaning yet; raised in exec's arms only. Safe. -/
  | notModelled (mnemonic : String)
  /-- readByte and readBit mixed on one stream, or readByte off a byte boundary: "the primitive's answer is not
  modelled" (U10, R62). Raised by every instruction that reads IN. Safe. -/
  | mixedStreamUse
  /-- The IN request channel holds the code the block never issues: `in_op` = 11 (R40, R92). Raised
  by the step before any instruction is decoded. Safe. -/
  | neverIssued
  deriving DecidableEq, Repr

/-- After reset: `phase` = IDLE, `busy` = `done` = 0, `err` = 0, no request outstanding (R230). What R230 calls
unspecified is 0, a leaf of symbol 0, an invalid code, or empty; the streams, which reset does not touch, are empty
and open. DESIGN CHOICE, unsafe: notes/assumptions/3.md, 4.md, 5.md. -/
def State.reset : State where
  phase := .idle
  flags := { busy := false, done := false, err := .none }
  regs := { acc := 0, bitcnt := 0, sym := 0, root := 0, cur := 0, nnodes := 0, path := 0, plen := 0, sp := 0 }
  freq := Vector.replicate 257 0
  node := Vector.replicate 513 (.leaf 0 0)
  pq := []
  code := Vector.replicate 257 { valid := false, len := 0, bits := 0 }
  stk := []
  marker := Config.marker
  inp := { data := .bytes [], pos := 0, req := none, rsp := none }
  out := { bits := [], closed := false, req := none }
  cmd := none
  trace := []
  freeCtr := 0

end Sys2Proof.Machine
end

