-- ==== Sys2Proof/Machine/Flags.lean ====
section
/-!
DEFINITION. The codes of phases and errors, the status flags and the STATUS word (10_state.md R26, R29, R30), and the
arithmetic of counts and weights (40_frequency_counter.md R103, 41_tree_builder.md R113, R116).
-/

namespace Sys2Proof.Machine

/-- The 4-bit code of a phase (R26). -/
def Phase.code : Phase → BitVec 4
  | .idle => 0
  | .cCount => 1
  | .cBuild => 2
  | .cGen => 3
  | .cMark => 4
  | .cHdr => 5
  | .cRewind => 6
  | .cEnc => 7
  | .cTerm => 8
  | .dMark => 9
  | .dHdr => 10
  | .dRoot => 11
  | .dInt => 12
  | .close => 13

/-- Whether a phase is one of COMPRESS's own (R26). -/
def Phase.compressing : Phase → Bool
  | .cCount | .cBuild | .cGen | .cMark | .cHdr | .cRewind | .cEnc | .cTerm => true
  | .idle | .dMark | .dHdr | .dRoot | .dInt | .close => false

/-- The 2-bit code of an error kind (R29, R200). -/
def ErrKind.code : ErrKind → BitVec 2
  | .none => 0
  | .format => 1
  | .corruptHeader => 2
  | .truncatedBody => 3

/-- `STATUS`: busy in bit 0, done in bit 1, err in bits 3:2, the rest 0 (R30). -/
def Flags.statusWord (f : Flags) : BitVec 32 :=
  (f.err.code.setWidth 32 <<< 2) ||| ((BitVec.ofBool f.done).setWidth 32 <<< 1) ||| (BitVec.ofBool f.busy).setWidth 32

/-- What the host reads in register 1; reading has no side effect (R30). -/
def State.statusWord (s : State) : BitVec 32 := s.flags.statusWord

/-- `cmd_ready` = 1 exactly when `phase = IDLE` (R40). -/
def State.cmdReady (s : State) : Bool := decide (s.phase = .idle)

/-- The flags once a command is accepted: `busy <- 1; done <- 0; err <- 0` (R36). -/
def flagsAccepted : Flags := { busy := true, done := false, err := .none }

/-- The flags once CLOSE is left: `done <- 1; busy <- 0`, `err` kept (R155, R205). -/
def Flags.finished (f : Flags) : Flags := { f with busy := false, done := true }

/-- The flags once an error is raised: `err <- code(E)` (R204). -/
def Flags.raised (f : Flags) (e : ErrKind) : Flags := { f with err := e }

/-- `sat_inc(v) = min(v + 1, 2^32 - 1)` (R103). -/
def satInc (v : Count) : Count := BitVec.ofNat 32 (min (v.toNat + 1) (2 ^ 32 - 1))

/-- `sat_add(a, b) = min(a + b, 2^32 - 1)` (R116). -/
def satAdd (a b : Count) : Count := BitVec.ofNat 32 (min (a.toNat + b.toNat) (2 ^ 32 - 1))

/-- The order of removal, TIEBREAK: the pair (weight, node index), lexicographically, unsigned (R113). -/
def tieBefore (wa wb : Count) (a b : Idx) : Bool :=
  decide (wa.toNat < wb.toNat ∨ (wa.toNat = wb.toNat ∧ a.toNat < b.toNat))

end Sys2Proof.Machine
end

