-- ==== Sys2Proof/Machine/Operands.lean ====
section
/-!
DEFINITION. The operand forms: entries of the internal tables (10_state.md R31 to R34), the units IN has left
(20_memory.md R51, R52), how bits lie in bytes (R60), and the fields of a code (30_encoding.md R87).
-/

namespace Sys2Proof.Machine

/-- `freq[s]`, which exists for `s` in 0 to 256 (R31). -/
def State.freqOf (s : State) (sym : Nat) : Count := (s.freq[sym]?).getD 0

/-- `node[i]`, which exists for `i` in 0 to `NODE_CAP` - 1 (R32). -/
def State.nodeAt (s : State) (i : Idx) : Option Node := s.node[i.toNat]?

/-- The `weight` field of an entry, leaf or internal (R32). -/
def Node.weight : Node → Count
  | .leaf _ w => w
  | .inner w _ _ => w

/-- `node[i].weight` (R113). -/
def State.weightOf (s : State) (i : Idx) : Count := ((s.nodeAt i).map Node.weight).getD 0

/-- `code[s]`, which exists for `s` in 0 to 256 (R34). -/
def State.codeAt (s : State) (sym : Sym) : Option CodeEntry := s.code[sym.toNat]?

/-- The entry that holds the code `p`: `len` = |p|, `bits` = val(p) (R125, R129). -/
def CodeEntry.ofBits (p : Bits) : CodeEntry :=
  { valid := true, len := BitVec.ofNat 9 p.length, bits := BitVec.ofNat 256 (val p) }

/-- The code an entry holds: `bits(len, bits)` (R34). -/
def CodeEntry.toBits (e : CodeEntry) : Bits := Sys2Proof.bits e.len.toNat e.bits.toNat

/-- The stream bits of a byte sequence: bit `k` is bit `7 - (k mod 8)` of byte `k div 8` (R60). -/
def unpackBytes (x : List Byte) : Bits := x.flatMap fun b => bits 8 b.toNat

/-- The bytes of a bit sequence, the last one padded with 0 bits at the low end (R60). -/
def packBits : Bits → List Byte
  | b7 :: b6 :: b5 :: b4 :: b3 :: b2 :: b1 :: b0 :: rest =>
    BitVec.ofNat 8 (val [b7, b6, b5, b4, b3, b2, b1, b0]) :: packBits rest
  | [] => []
  | last => [BitVec.ofNat 8 (val (last ++ List.replicate (8 - last.length) false))]

/-- IN's data as bits: bits as they are; bytes by R60 if nothing of them has been taken (notes/assumptions/13.md);
otherwise readBit would be mixed with readByte, which is not specified (R62, U10). DESIGN CHOICE: bytes read before a
`reset()` put the position back to 0 do not count as taken (notes/assumptions/36.md), and bytes before a position at
which the host supplied IN do (notes/assumptions/38.md). -/
def InData.asBits : InData → Nat → Option Bits
  | .bits b, _ => some b
  | .bytes x, 0 => some (unpackBytes x)
  | .bytes _, _ + 1 => none

/-- IN's data as bytes: bytes as they are; whole bytes of bits by R60 if nothing of them has been taken; otherwise
readByte would be mixed with readBit or stand off a byte boundary, which is not specified (R62, U10). DESIGN CHOICE: bits
read before a `reset()` put the position back to 0 do not count as taken (notes/assumptions/36.md), and bits before a
position at which the host supplied IN do (notes/assumptions/38.md). -/
def InData.asBytes : InData → Nat → Option (List Byte)
  | .bytes x, _ => some x
  | .bits b, 0 => if b.length % 8 = 0 then some (packBits b) else none
  | .bits _, _ + 1 => none

/-- How many units IN holds: `N` of R51, `NB` of R52. -/
def InData.size : InData → Nat
  | .bytes x => x.length
  | .bits b => b.length

/-- The bytes not yet taken, the next first (R51). -/
def State.bytesLeft (s : State) : List Byte :=
  match s.inp.data with
  | .bytes x => x.drop s.inp.pos
  | .bits _ => []

/-- The bits not yet taken, the next first (R52). -/
def State.bitsLeft (s : State) : Bits :=
  match s.inp.data with
  | .bits b => b.drop s.inp.pos
  | .bytes _ => []

/-- OUT as a byte-oriented medium holds it once closed (R60). -/
def OutPort.medium (o : OutPort) : List Byte := packBits o.bits

end Sys2Proof.Machine
end

