-- ==== Sys2Proof/Machine/Ops.lean ====
section
/-!
DEFINITION. The named operations: the stream transactions as the block sees them answered (20_memory.md R51 to R61),
accepting a command (10_state.md R36), raising an error, which is how this hardware takes an exception (60_exceptions.md
R204), leaving CLOSE (R205), and the writes of table entries. What the host does is at the end (R230 to R237).
-/

namespace Sys2Proof.Machine

/-- What an operation answers. -/
abbrev Answer (α : Type) := Host.Outcome α Fault Refusal

/-- Go on with the state of a next answer; a fault or a refusal stays. -/
def andThen {α β : Type} (a : Answer α) (k : α → Answer β) : Answer β :=
  match a with
  | .next s => k s
  | .fault r => .fault r
  | .refused r => .refused r

/-! ### Stream transactions -/

/-- `readByte() -> b`: the byte at the read position, which advances (R51). -/
def State.tookByte (s : State) (b : Byte) : State :=
  { s with
    inp := { s.inp with pos := s.inp.pos + 1, rsp := some (.byte b) }
    trace := s.trace ++ [.readByte (some b)] }

/-- `readByte() -> END`: the position is unchanged (R51). -/
def State.sawByteEnd (s : State) : State :=
  { s with inp := { s.inp with rsp := some .endOfData }, trace := s.trace ++ [.readByte none] }

/-- `readBit() -> b`: the bit at the read position, which advances (R52). -/
def State.tookBit (s : State) (b : Bool) : State :=
  { s with
    inp := { s.inp with pos := s.inp.pos + 1, rsp := some (.bit b) }
    trace := s.trace ++ [.readBit (some b)] }

/-- `readBit() -> END`: the position is unchanged (R52). -/
def State.sawBitEnd (s : State) : State :=
  { s with inp := { s.inp with rsp := some .endOfData }, trace := s.trace ++ [.readBit none] }

/-- `IN.reset()`: the read position goes to 0, the data is unchanged (R54). -/
def State.rewind (s : State) : State :=
  { s with inp := { s.inp with pos := 0, rsp := some .ack }, trace := s.trace ++ [.reset] }

/-- `OUT.writeBits(w, v)`: `bits(w, v)` is appended (R53), whether or not OUT is closed (notes/assumptions/15.md). -/
def State.writeBits (s : State) (w v : Nat) : State :=
  { s with out := { s.out with bits := s.out.bits ++ bits w v }, trace := s.trace ++ [.writeBits w v] }

/-- `OUT.close()` (R55). -/
def State.closeOut (s : State) : State :=
  { s with out := { s.out with closed := true }, trace := s.trace ++ [.close] }

/-- Run `k` with IN viewed as bits; refused where the primitive's answer is not specified (U10). -/
def State.withBits (s : State) (k : State → Answer State) : Answer State :=
  match s.inp.data.asBits s.inp.pos with
  | some b => k { s with inp := { s.inp with data := .bits b } }
  | none => .refused .mixedStreamUse

/-- Run `k` with IN viewed as bytes; refused where the primitive's answer is not specified (U10). -/
def State.withBytes (s : State) (k : State → Answer State) : Answer State :=
  match s.inp.data.asBytes s.inp.pos with
  | some x => k { s with inp := { s.inp with data := .bytes x } }
  | none => .refused .mixedStreamUse

/-! ### Phases, flags and errors -/

/-- `phase <- p` (R15). -/
def State.setPhase (s : State) (p : Phase) : State := { s with phase := p }

/-- Accepting a command: `busy <- 1; done <- 0; err <- 0; nnodes <- 0`, and the command's first phase (R36). -/
def State.accept (s : State) (p : Phase) : State :=
  { s with phase := p, flags := flagsAccepted, regs := { s.regs with nnodes := 0 } }

/-- `raise E`: `err <- code(E); phase <- CLOSE`, and nothing else (R204). -/
def State.raise (s : State) (e : ErrKind) : State :=
  { s with phase := .close, flags := s.flags.raised e }

/-- Leaving CLOSE: `done <- 1; busy <- 0; phase <- IDLE` (R155, R205). There is no other return (R209). -/
def State.finish (s : State) : State := { s with phase := .idle, flags := s.flags.finished }

/-! ### Tables and registers -/

/-- `node[i] <- v` (R32). DESIGN CHOICE: for an index of `NODE_CAP` or above, of which the store has no entry, nothing is
written (notes/assumptions/37.md). -/
def State.setNode (s : State) (i : Idx) (v : Node) : State :=
  { s with node := s.node.setIfInBounds i.toNat v }

/-- `freq[sym] <- v` (R31). -/
def State.setFreq (s : State) (sym : Nat) (v : Count) : State :=
  { s with freq := s.freq.setIfInBounds sym v }

/-- Other values of the working registers (R28). -/
def State.setRegs (s : State) (r : Regs) : State := { s with regs := r }

/-- The next free value of width `w` (notes/assumptions/6.md). -/
def State.freeValue (s : State) (w : Nat) : BitVec w := Config.free w s.freeCtr

/-- One free value more has been taken. -/
def State.tookFree (s : State) : State := { s with freeCtr := s.freeCtr + 1 }

/-- `sym` holds a value the rules do not state (notes/assumptions/6.md). -/
def State.freeSym (s : State) : State := (s.setRegs { s.regs with sym := s.freeValue 9 }).tookFree

/-! ### Tokens and fields read and written -/

/-- `OUT.writeBits(1, 0)`: the token N (R82, R135). -/
def State.emitN (s : State) : State := s.writeBits 1 0

/-- `OUT.writeBits(1, 1)` then `OUT.writeBits(9, sym)`: the token L (R83, R135). -/
def State.emitL (s : State) (sym : Sym) : State := (s.writeBits 1 1).writeBits 9 sym.toNat

/-- `OUT.writeBits(len, bits)` of a code table entry: the token C (R84, R90). -/
def State.emitCode (s : State) (e : CodeEntry) : State := s.writeBits e.len.toNat e.bits.toNat

/-- `acc <- (acc << 1) | b`, one bit fewer to read (R28, R166). -/
def State.gatherBit (s : State) (b : Bool) : State :=
  s.setRegs { s.regs with acc := BitVec.ofNat 32 (shiftIn s.regs.acc.toNat b), bitcnt := s.regs.bitcnt - 1 }

/-- Take up to `n` bits into `acc`, first bit most significant; `false` if `END` came first, the bits already taken
staying consumed (R61). -/
def gather : Nat → Bits → State → Bool × State
  | 0, _, s => (true, s)
  | _ + 1, [], s => (false, s.sawBitEnd)
  | n + 1, b :: bs, s => gather n bs ((s.tookBit b).gatherBit b)

/-- `IN.readBits(n)` on the bits `bs`: `acc <- 0; bitcnt <- n`, then the reads (R61, R166). -/
def State.readField (s : State) (n : Nat) (bs : Bits) : Bool × State :=
  gather n bs (s.setRegs { s.regs with acc := 0, bitcnt := BitVec.ofNat 6 n })

/-! ### What the host does (70_reset_and_hazards.md R230, R233 to R237); no step of the block does it -/

/-- The host makes `d` the new IN, positioned at its start, and opens a new empty OUT (R234, R235). -/
def State.provide (s : State) (d : InData) : State :=
  { s with
    inp := { s.inp with data := d, pos := 0 }
    out := { s.out with bits := [], closed := false } }

/-- The host offers a command: `cmd_valid` = 1 with `cmd_op`, held until it is accepted (R36, R40, R242). -/
def State.offer (s : State) (op : BitVec 2) : State := { s with cmd := some op }

/-- `rst` at a clock edge: at once the state of R230, the streams untouched and no `close()` issued, whatever command was
running (R233). What R230 calls unspecified keeps what it held. DESIGN CHOICE, unsafe: notes/assumptions/24.md. -/
def State.rst (s : State) : State :=
  { s with
    phase := .idle
    flags := { busy := false, done := false, err := .none }
    inp := { s.inp with req := none }
    out := { s.out with req := none } }

/-- `op` of COMPRESS (R30). -/
def opCompress : BitVec 2 := 1

/-- `op` of DECOMPRESS (R30). -/
def opDecompress : BitVec 2 := 2

end Sys2Proof.Machine
end

