-- ==== Sys2Proof/Machine/Build.lean ====
section
/-!
DEFINITION. TreeBuilder: the operation BUILD, the priority merge (41_tree_builder.md R110 to R121).
-/

namespace Sys2Proof.Machine

/-- Insertion into `pq`, kept in the order of removal, so that `min(pq)` is its head (R33: "Its internal shape [...]
is not observable"; R113). -/
def insertPq (weight : Idx → Count) (i : Idx) : List Idx → List Idx
  | [] => [i]
  | j :: js => if tieBefore (weight i) (weight j) i j then i :: j :: js else j :: insertPq weight i js

/-- `node[nnodes] <- v; pq <- pq + { nnodes }; nnodes <- nnodes + 1` (R110). -/
def State.addNode (s : State) (v : Node) : State :=
  { s.setNode s.regs.nnodes v with
    pq := insertPq (s.setNode s.regs.nnodes v).weightOf s.regs.nnodes s.pq
    regs := { s.regs with nnodes := s.regs.nnodes + 1 } }

/-- One leaf per symbol with count > 0 (R111). -/
def State.addLeaf (s : State) (sym : Nat) : State :=
  if 0 < (s.freqOf sym).toNat then s.addNode (.leaf (BitVec.ofNat 9 sym) (s.freqOf sym)) else s

/-- One merge: `a` removed first becomes the left child, `b` the right (R112, R114, R116). -/
def State.merge (s : State) (a b : Idx) (rest : List Idx) : State :=
  { s with pq := rest }.addNode (.inner (satAdd (s.weightOf a) (s.weightOf b)) a b)

/-- The merge loop, while `|pq| > 1` (R112). Each pass makes `pq` one shorter, so its length bounds the passes. -/
def mergeLoop : Nat → State → State
  | 0, s => s
  | k + 1, s =>
    match s.pq with
    | a :: b :: rest => mergeLoop k (s.merge a b rest)
    | _ => s

/-- `root <- the one member of pq; pq <- {}` (R115). Without any member, which no count pass leaves (R106), the value
of `root` is not stated (notes/assumptions/8.md). -/
def State.takeRoot (s : State) : State :=
  match s.pq with
  | r :: _ => { s.setRegs { s.regs with root := r } with pq := [] }
  | [] => (s.setRegs { s.regs with root := s.freeValue 10 }).tookFree

/-- `pq <- {}; nnodes <- 0` (R110). -/
def State.startBuild (s : State) : State := { s.setRegs { s.regs with nnodes := 0 } with pq := [] }

/-- The leaves of all symbols, in ascending symbol order (R111). -/
def State.addLeaves (s : State) : State := (List.range Config.nsym).foldl State.addLeaf s

/-- Leaves, merges and the root (R110). -/
def State.buildTree (s : State) : State :=
  (mergeLoop s.startBuild.addLeaves.pq.length s.startBuild.addLeaves).takeRoot

/-- BUILD (R110). What `sym` holds afterwards is not stated (notes/assumptions/6.md). -/
def execBuild (s : State) : Answer State := .next (s.buildTree.freeSym.setPhase .cGen)

end Sys2Proof.Machine
end

