-- ==== Sys2Proof/Machine/Commands.lean ====
section
/-!
DEFINITION. The two commands as the command port carries them: accepted in IDLE, held off otherwise (10_state.md R36,
44_compress.md R150, 45_decompress.md R165). The steps of the command are the phase operations that follow.
-/

namespace Sys2Proof.Machine

/-- A write of a legal `op` to CMD (R36): accepted if `phase = IDLE`; otherwise it "changes nothing". -/
def State.command (s : State) (first : Phase) : State :=
  if s.phase = .idle then s.accept first else s

/-- COMPRESS (R36, R150). -/
def execCompress (s : State) : Answer State := .next (s.command .cCount)

/-- DECOMPRESS (R36, R165). -/
def execDecompress (s : State) : Answer State := .next (s.command .dMark)

end Sys2Proof.Machine
end

