-- ==== Sys2Proof/Machine/Compress.lean ====
section
/-!
DEFINITION. StreamCodec, compress side: C_MARK, C_REWIND, ENCODE, C_TERM, and CLOSE_PHASE, which both commands end in
(44_compress.md R151 to R155, 45_decompress.md R175, 60_exceptions.md R205).
-/

namespace Sys2Proof.Machine

/-- C_MARK: `OUT.writeBits(32, MARKER)` (R151). -/
def execCMark (s : State) : Answer State :=
  .next ((s.writeBits Config.markerW s.marker.toNat).setPhase .cHdr)

/-- C_REWIND: `IN.reset()` (R152). -/
def execCRewind (s : State) : Answer State := .next (s.rewind.setPhase .cEnc)

/-- `sym <- r` (R153). -/
def State.lookUp (s : State) (r : Byte) : State := s.setRegs { s.regs with sym := r.setWidth 9 }

/-- `code[r]` of a byte, which always exists (R34). -/
def State.codeOfByte (s : State) (r : Byte) : CodeEntry := s.code[r.toNat]'(by omega)

/-- The encoding loop over the bytes left, "alternating read, write" (R153). A byte with no code ends the run (R241, U6,
notes/assumptions/20.md). -/
def encodeLoop : List Byte → State → Answer State
  | [], s => .next s.sawByteEnd
  | r :: rs, s =>
    if (s.codeOfByte r).valid then encodeLoop rs (((s.tookByte r).lookUp r).emitCode (s.codeOfByte r))
    else .fault .uncodedByte

/-- ENCODE (R153). -/
def execEncode (s : State) : Answer State :=
  s.withBytes fun s0 => andThen (encodeLoop s0.bytesLeft s0) fun s1 => .next (s1.setPhase .cTerm)

/-- C_TERM: `OUT.writeBits(code[256].len, code[256].bits)` (R154). -/
def execCTerm (s : State) : Answer State := .next ((s.emitCode s.code[256]).setPhase .close)

/-- CLOSE_PHASE: `OUT.close()`, then `done <- 1; busy <- 0; phase <- IDLE`, on the success path and on the error paths
alike (R155, R175, R205). -/
def execClosePhase (s : State) : Answer State := .next s.closeOut.finish

end Sys2Proof.Machine
end

