-- ==== Sys2Proof/Machine/Count.lean ====
section
/-!
DEFINITION. FrequencyCounter: the operation COUNT (40_frequency_counter.md R100 to R106).
-/

namespace Sys2Proof.Machine

/-- `freq[s] <- 0` for every symbol (R101). -/
def State.clearFreq (s : State) : State := { s with freq := Vector.replicate 257 0 }

/-- `freq[r] <- sat_inc(freq[r])` (R100, R103). -/
def State.countByte (s : State) (r : Byte) : State := s.setFreq r.toNat (satInc (s.freqOf r.toNat))

/-- The counting loop over the bytes left; it "stops at the first `END`" (R102). -/
def countLoop : List Byte → State → State
  | [], s => s.sawByteEnd
  | r :: rs, s => countLoop rs ((s.tookByte r).countByte r)

/-- COUNT (R100). What `sym` holds afterwards is not stated (notes/assumptions/6.md). -/
def execCount (s : State) : Answer State :=
  s.withBytes fun s0 =>
    .next ((((countLoop s0.bytesLeft s0.clearFreq).setFreq 256 1).freeSym).setPhase .cBuild)

end Sys2Proof.Machine
end

