-- ==== Sys2Proof/Machine/GenCodes.lean ====
section
/-!
DEFINITION. CodeTableGenerator: the operation GENCODES (42_code_table.md R125 to R132).
-/

namespace Sys2Proof.Machine

/-- `code[s].valid <- 0` for every symbol; `len` and `bits` are left (R125). The traversal stack starts empty (R35). -/
def State.startCodes (s : State) : State :=
  { s.setRegs { s.regs with sp := 0 } with
    code := Vector.ofFn fun i => { s.code[i] with valid := false }
    stk := [] }

/-- `code[sym] <- { valid = 1, len = |p|, bits = val(p) }` (R125, R129). -/
def State.setCode (s : State) (sym : Sym) (p : Bits) : Answer State :=
  if sym.toNat < Config.nsym then .next { s with code := s.code.setIfInBounds sym.toNat (CodeEntry.ofBits p) }
  else .fault .noSuchSymbol

/-- `gen(i, p)`, depth first, 0 for left and 1 for right (R125), by recursion (R15, R131). The first argument is how
many levels the path register still holds (R28: 0 to 256 bits). -/
def gen : Nat → Idx → Bits → State → Answer State
  | 0, _, _, _ => .fault .traversalTooDeep
  | k + 1, i, p, s =>
    match s.nodeAt i with
    | none => .fault .noSuchNode
    | some (.leaf sym _) => s.setCode sym p
    | some (.inner _ l r) => andThen (gen k l (p ++ [false]) s) (gen k r (p ++ [true]))

/-- The whole table: the one-leaf tree gets the code `0` (R127), any other its paths. -/
def State.fillCodes (s : State) : Answer State :=
  match s.nodeAt s.regs.root with
  | none => .fault .noSuchNode
  | some (.leaf sym _) => s.setCode sym [false]
  | some (.inner _ _ _) => gen (Config.codeMax + 1) s.regs.root [] s

/-- `path` and `plen` hold values the rules do not state, `plen` in 0 to 256 (R28, R131; notes/assumptions/6.md). -/
def State.freePath (s : State) : State :=
  ((s.setRegs { s.regs with
    path := Config.free 256 s.freeCtr
    plen := BitVec.ofNat 9 ((Config.free 9 (s.freeCtr + 1)).toNat % (Config.codeMax + 1)) }).tookFree).tookFree

/-- GENCODES (R125). -/
def execGencodes (s : State) : Answer State :=
  andThen s.startCodes.fillCodes fun s1 => .next (s1.freePath.setPhase .cMark)

end Sys2Proof.Machine
end

