-- ==== Sys2Proof/Machine/Streams.lean ====
section
/-!
DEFINITION. The five stream transactions as instructions of their own (20_memory.md R51 to R55): what the IN and OUT
primitives do in answer to a request.
-/

namespace Sys2Proof.Machine

/-- READBYTE: the next byte, or `END` (R51). -/
def execReadByte (s : State) : Answer State :=
  s.withBytes fun s0 =>
    match s0.bytesLeft with
    | [] => .next s0.sawByteEnd
    | b :: _ => .next (s0.tookByte b)

/-- READBIT: the next bit, or `END` (R52). -/
def execReadBit (s : State) : Answer State :=
  s.withBits fun s0 =>
    match s0.bitsLeft with
    | [] => .next s0.sawBitEnd
    | b :: _ => .next (s0.tookBit b)

/-- RESET: the read position goes to 0 (R54). -/
def execReset (s : State) : Answer State := .next s.rewind

/-- WRITEBITS: the low `width` bits of `value` are appended to OUT, most significant first (R53); a width
above 256 puts 0 bits before the value's 256 (notes/assumptions/39.md). -/
def execWriteBits (width : BitVec 9) (value : BitVec 256) (s : State) : Answer State :=
  .next (s.writeBits width.toNat value.toNat)

/-- CLOSE: `closed <- 1` (R55). -/
def execClose (s : State) : Answer State := .next s.closeOut

end Sys2Proof.Machine
end

