-- ==== Sys2Proof/Machine/Decompress.lean ====
section
/-!
DEFINITION. StreamCodec, decompress side: D_MARK and the decode bit-walk, WALK and WALK_INT (45_decompress.md R166 to
R174).
-/

namespace Sys2Proof.Machine

/-- The comparison "of all 32 bits" (R166). -/
def State.checkMarker (s : State) : State :=
  if s.regs.acc = s.marker then s.setPhase .dHdr else s.raise .format

/-- The 32 marker bits out of `bs`, then the comparison; `END` among them is FormatError (R166). -/
def State.readMarker (s : State) (bs : Bits) : State :=
  match s.readField Config.markerW bs with
  | (true, s1) => s1.checkMarker
  | (false, s1) => s1.raise .format

/-- D_MARK (R166). -/
def execDMark (s : State) : Answer State := s.withBits fun s0 => .next (s0.readMarker s0.bitsLeft)

/-- `cur <- i` (R168). -/
def State.setCur (s : State) (i : Idx) : State := s.setRegs { s.regs with cur := i }

/-- The move of the walk lands on node `n` (R168, R171, R172, R174). DESIGN CHOICE: the value of the write is the leaf's whole
9-bit `sym`, as R168 writes it, also for leaves 257 to 511, although R40 has the bits of `out_value` above the width 0
(notes/assumptions/35.md). -/
def State.landOn (s : State) (n : Idx) : Answer State :=
  match s.nodeAt n with
  | none => .fault .noSuchNode
  | some (.inner _ _ _) => .next ((s.setCur n).setPhase .dInt)
  | some (.leaf sym _) =>
    if sym = 256 then .next ((s.setCur n).setPhase .close)
    else .next (((s.writeBits 8 sym.toNat).setCur s.regs.root).setPhase .dRoot)

/-- One bit moves the walk: 0 left, 1 right; from a leaf, which only the root can be, the bit is ignored and that leaf
counts as reached (R168, R170). -/
def State.moveBy (s : State) (b : Bool) : Answer State :=
  match s.nodeAt s.regs.cur with
  | none => .fault .noSuchNode
  | some (.inner _ l r) => s.landOn (if b then r else l)
  | some (.leaf _ _) => s.landOn s.regs.cur

/-- One iteration of the loop: one `readBit()`, then its move, or TruncatedBodyError at `END` (R168, R169, R174). -/
def State.walkStep (s : State) : Answer State :=
  s.withBits fun s0 =>
    match s0.bitsLeft with
    | [] => .next (s0.sawBitEnd.raise .truncatedBody)
    | b :: _ => (s0.tookBit b).moveBy b

/-- WALK: an iteration from AT_ROOT, where `cur = root` (R168, R174). -/
def execWalk (s : State) : Answer State := (s.setCur s.regs.root).walkStep

/-- WALK_INT: an iteration from AT_INTERNAL_NODE (R168, R174). -/
def execWalkInt (s : State) : Answer State := s.walkStep

end Sys2Proof.Machine
end

