-- ==== Sys2Proof/Machine/Header.lean ====
section
/-!
DEFINITION. HeaderCodec: the operations HDRSER and HDRDES (43_header_codec.md R135 to R145), and what the tokens N and
L do to the deserializer.
-/

namespace Sys2Proof.Machine

/-! ### Serialize -/

/-- The traversal stack starts empty (R35). -/
def State.clearStk (s : State) : State := { s.setRegs { s.regs with sp := 0 } with stk := [] }

/-- `ser(i)`, in preorder (R135, R139), by recursion (R15). The first argument is how many entries the traversal stack
still holds (R35). -/
def ser : Nat → Idx → State → Answer State
  | 0, _, _ => .fault .traversalTooDeep
  | k + 1, i, s =>
    match s.nodeAt i with
    | none => .fault .noSuchNode
    | some (.leaf sym _) => .next (s.emitL sym)
    | some (.inner _ l r) => andThen (ser k l s.emitN) (ser k r)

/-- HDRSER (R135). -/
def execHdrser (s : State) : Answer State :=
  andThen (ser Config.nodeCap s.regs.root s.clearStk) fun s1 => .next (s1.setPhase .cRewind)

/-! ### Deserialize -/

/-- `nnodes = NODE_CAP` (R140, R142). -/
def State.storeFull (s : State) : Bool := decide (Config.nodeCap ≤ s.regs.nnodes.toNat)

/-- `i := nnodes; nnodes <- nnodes + 1`: the entry of a token is reserved when the token is met (R32, R140). -/
def State.reserve (s : State) : State := s.setRegs { s.regs with nnodes := s.regs.nnodes + 1 }

/-- `node[i] <- { leaf = 1, sym }`, any 9-bit value (R140, R144); `weight` is unspecified (R32, U3,
notes/assumptions/7.md). -/
def State.putLeaf (s : State) (i : Idx) (sym : Sym) : State :=
  (s.setNode i (.leaf sym (s.freeValue 32))).tookFree

/-- `node[i] <- { leaf = 0, left = l, right = r }`; `weight` is unspecified (R32, R140, U3). -/
def State.putInner (s : State) (i l r : Idx) : State :=
  (s.setNode i (.inner (s.freeValue 32) l r)).tookFree

/-- Another traversal stack, with `sp` its depth (R28, R35), modulo 2^10 (notes/assumptions/40.md). -/
def State.setStk (s : State) (st : List (Idx × BitVec 2)) : State :=
  { s.setRegs { s.regs with sp := BitVec.ofNat 10 st.length } with stk := st }

/-- The tree is complete: `root <- i; cur <- root; phase <- D_ROOT` (R140). -/
def State.headerDone (s : State) (i : Idx) : State :=
  ((s.setStk []).setRegs { (s.setStk []).regs with root := i, cur := i }).setPhase .dRoot

/-- The subtree of node `i` is complete. An entry `(j, 0)` of the stack waits for its left subtree and now waits for its
right one; an entry `(j, 1)` is complete too: its left child is `j + 1`, the preorder index (R143), its right child
`i`. With no entry left the header is complete (R140, R86 (b)). DESIGN CHOICE: R35 gives the visit state its width only;
0 waits for the left subtree, any other value for the right one, and only internal nodes are pushed
(notes/assumptions/34.md); a `j` the store has no entry for completes without a write (notes/assumptions/37.md). -/
def closeSubtree : List (Idx × BitVec 2) → Idx → State → State
  | [], i, s => s.headerDone i
  | (j, v) :: st, i, s =>
    if v = 0 then s.setStk ((j, 1) :: st) else closeSubtree st j (s.putInner j (j + 1) i)

/-- The nine bits of a leaf's field, then the leaf; `END` among them is CorruptHeaderError (R140, R141). -/
def State.leafField (s : State) (i : Idx) (bs : Bits) : State :=
  match s.readField Config.symW bs with
  | (true, s1) => closeSubtree s1.stk i (s1.putLeaf i (s1.regs.acc.setWidth 9))
  | (false, s1) => s1.raise .corruptHeader

/-- The token N: an internal node, waiting for its left subtree, visit state 0 (R82, R140, R142; notes/assumptions/34.md).
DESIGN CHOICE: it is pushed whatever the stack holds, also beside `NODE_CAP` entries (notes/assumptions/40.md). -/
def State.tokenN (s : State) : State :=
  if s.storeFull then s.raise .corruptHeader
  else (s.reserve.tookBit false).setStk ((s.regs.nnodes, 0) :: s.stk)

/-- The token L, `bs` being the bits after its flag (R83, R140, R142). -/
def State.tokenL (s : State) (bs : Bits) : State :=
  if s.storeFull then s.raise .corruptHeader
  else (s.reserve.tookBit true).leafField s.regs.nnodes bs

/-- One call of `des` up to the node's own bits: the capacity is checked before the flag is read, and the index is
reserved before it too (R140 to R142). -/
def State.headerToken (s : State) : State :=
  if s.storeFull then s.raise .corruptHeader
  else
    match s.bitsLeft with
    | [] => s.reserve.sawBitEnd.raise .corruptHeader
    | false :: _ => s.tokenN
    | true :: bs => s.tokenL bs

/-- Tokens, until the phase is left. Every token takes a node, so one more call than `NODE_CAP` never runs out (R142). -/
def headerLoop : Nat → State → State
  | 0, s => s.raise .corruptHeader
  | k + 1, s =>
    if s.headerToken.phase = .dHdr then headerLoop k s.headerToken else s.headerToken

/-- `nnodes <- 0`, the stack empty, in phase D_HDR (R140, R35). -/
def State.startHeader (s : State) : State :=
  (s.clearStk.setRegs { s.clearStk.regs with nnodes := 0 }).setPhase .dHdr

/-- HDRDES (R140). Outside the operation the stack is empty (R35, notes/assumptions/21.md). -/
def execHdrdes (s : State) : Answer State :=
  s.withBits fun s0 =>
    .next { headerLoop (Config.nodeCap + 1) s0.startHeader with stk := [] }

end Sys2Proof.Machine
end

