-- ==== Sys2Proof/Machine/Tokens.lean ====
section
/-!
DEFINITION. The five wire tokens (30_encoding.md R80 to R86). In a phase of COMPRESS a token is written to OUT; in any
other it is taken from IN by the decoder: the read position moves past the token's bits, which are the operand's
(notes/assumptions/17.md).
-/

namespace Sys2Proof.Machine

/-- A C token is read by the walk from the root, until it reaches a leaf (R86 (c), R168). The walk stands at an internal
node exactly while `phase` = D_INT (R174). -/
def walkCode : Bits → State → Answer State
  | [], s => .next s
  | b :: bs, s =>
    andThen ((s.tookBit b).moveBy b) fun s1 => if s1.phase = .dInt then walkCode bs s1 else .next s1

/-- A code, first digit first, written as one `writeBits` of its length (R84, R153) or walked (R168). -/
def State.codeToken (s : State) (code : Bits) : Answer State :=
  if s.phase.compressing then .next (s.writeBits code.length (val code))
  else s.withBits fun s0 => walkCode code ((s0.setCur s0.regs.root).setPhase .dRoot)

/-- M: written by C_MARK (R151), checked by D_MARK (R166). -/
def execM (marker : BitVec 32) (s : State) : Answer State :=
  if s.phase.compressing then .next (s.writeBits Config.markerW marker.toNat)
  else s.withBits fun s0 => .next (s0.readMarker (bits Config.markerW marker.toNat))

/-- N: written by HDRSER (R135), parsed by HDRDES (R140). -/
def execN (s : State) : Answer State :=
  if s.phase.compressing then .next s.emitN else s.withBits fun s0 => .next s0.tokenN

/-- L: written by HDRSER (R135), parsed by HDRDES (R140). -/
def execL (sym : Sym) (s : State) : Answer State :=
  if s.phase.compressing then .next (s.emitL sym)
  else s.withBits fun s0 => .next (s0.tokenL (bits Config.symW sym.toNat))

/-- C: written by ENCODE (R153), decoded by WALK (R168). -/
def execC (code : Bits) (s : State) : Answer State := s.codeToken code

/-- T, the code of symbol 256: written by C_TERM (R154); reaching the leaf of 256 ends WALK (R171). -/
def execT (code : Bits) (s : State) : Answer State := s.codeToken code

end Sys2Proof.Machine
end

