-- ==== Sys2Proof/Machine/Dispatch.lean ====
section
/-!
DEFINITION. The dispatch: one arm per constructor of Instr, each one call of its meaning.
-/

namespace Sys2Proof.Machine

def exec (i : Instr) (s : State) : Host.Outcome State Fault Refusal :=
  match i with
  | .compress => Sys2Proof.Machine.execCompress s
  | .decompress => Sys2Proof.Machine.execDecompress s
  | .count => Sys2Proof.Machine.execCount s
  | .build => Sys2Proof.Machine.execBuild s
  | .gencodes => Sys2Proof.Machine.execGencodes s
  | .cMark => Sys2Proof.Machine.execCMark s
  | .hdrser => Sys2Proof.Machine.execHdrser s
  | .cRewind => Sys2Proof.Machine.execCRewind s
  | .encode => Sys2Proof.Machine.execEncode s
  | .cTerm => Sys2Proof.Machine.execCTerm s
  | .dMark => Sys2Proof.Machine.execDMark s
  | .hdrdes => Sys2Proof.Machine.execHdrdes s
  | .walk => Sys2Proof.Machine.execWalk s
  | .walkInt => Sys2Proof.Machine.execWalkInt s
  | .closePhase => Sys2Proof.Machine.execClosePhase s
  | .readByte => Sys2Proof.Machine.execReadByte s
  | .readBit => Sys2Proof.Machine.execReadBit s
  | .reset => Sys2Proof.Machine.execReset s
  | .writeBits width value => Sys2Proof.Machine.execWriteBits width value s
  | .close => Sys2Proof.Machine.execClose s
  | .m marker => Sys2Proof.Machine.execM marker s
  | .n => Sys2Proof.Machine.execN s
  | .l sym => Sys2Proof.Machine.execL sym s
  | .c code => Sys2Proof.Machine.execC code s
  | .t code => Sys2Proof.Machine.execT code s

end Sys2Proof.Machine
end

