-- ==== Sys2Proof/Machine/Fetch.lean ====
section
/-!
DEFINITION. What selects the next instruction: a transaction outstanding on a request channel, then the phase register,
and in IDLE the command port (00_scope.md R11, 10_state.md R26, R36, R40); and how an instruction is put there.
-/

namespace Sys2Proof.Machine

/-- The word that selects the next instruction, its format, and the state with a request or an offer taken off its
channel. A transaction outstanding is answered "before HUFFCORE's next step" (R11); the phase register selects the
operation (R26, R95); in IDLE the command port is ready (R40). `none`: IDLE with no command offered. -/
def State.fetch (s : State) : Option (Format × Bits × State) :=
  match s.inp.req, s.out.req, s.phase, s.cmd with
  | some op, _, _, _ => some (.inOp, bits 2 op.toNat, { s with inp := { s.inp with req := none } })
  | none, some r, _, _ =>
    some (.outOp, r.op :: (bits 9 r.width.toNat ++ bits 256 r.value.toNat),
      { s with out := { s.out with req := none } })
  | none, none, .idle, some op => some (.cmd, bits 2 op.toNat, { s with cmd := none })
  | none, none, .idle, none => none
  | none, none, p, _ => some (.phase, bits 4 p.code.toNat, s)

/-- What a word does that is no instruction: a reserved command is "accepted by the port and changes nothing" (R36); a
request code the block never issues, `in_op` = 11, is refused (R92, notes/assumptions/27.md). -/
def noInstr (e : DecodeError) (s : State) : Answer State :=
  match e with
  | .reservedCommand => .next s
  | .tooFewBits | .noOperation | .inOpNeverIssued | .emptyCode | .codeTooLong => .refused .neverIssued

/-- The phase that selects an operation (R26); for a token, the phase that reads it (R62). -/
def phaseFor : Instr → Phase
  | .count => .cCount
  | .build => .cBuild
  | .gencodes => .cGen
  | .cMark => .cMark
  | .hdrser => .cHdr
  | .cRewind => .cRewind
  | .encode => .cEnc
  | .cTerm => .cTerm
  | .dMark => .dMark
  | .hdrdes => .dHdr
  | .walk => .dRoot
  | .walkInt => .dInt
  | .closePhase => .close
  | .m _ => .dMark
  | .n => .dHdr
  | .l _ => .dHdr
  | .c _ => .dRoot
  | .t _ => .dRoot
  | .compress | .decompress | .readByte | .readBit | .reset | .writeBits _ _ | .close => .idle

/-- No transaction outstanding, in phase `p`. -/
def State.readyIn (s : State) (p : Phase) : State :=
  { s with phase := p, inp := { s.inp with req := none }, out := { s.out with req := none } }

/-- `s` with `i` where the next step fetches: a command on the command port in IDLE, a phase operation in the phase
register, a stream transaction on its request channel, a wire token as the next bits of IN in the phase that reads it
(notes/assumptions/22.md, 23.md). -/
def State.placing (s : State) (i : Instr) : State :=
  match i.format with
  | .cmd => (s.readyIn .idle).offer (BitVec.ofNat 2 (val (encode i)))
  | .phase => s.readyIn (phaseFor i)
  | .inOp => { s with inp := { s.inp with req := some (BitVec.ofNat 2 (val (encode i))) } }
  | .outOp =>
    { s with
      inp := { s.inp with req := none }
      out := { s.out with
        req := match i with
          | .writeBits width value => some { op := false, width := width, value := value }
          | _ => some { op := true, width := 0, value := 0 } } }
  | .marker | .header | .code | .terminator =>
    { s.readyIn (phaseFor i) with
      inp := { data := .bits (encode i), pos := 0, req := none, rsp := s.inp.rsp } }

end Sys2Proof.Machine
end

