-- ==== Sys2Proof/Machine/Step.lean ====
section
/-!
DEFINITION. One step: the instruction that the request channels, the phase register or the command port selects, run
by exec (notes/assumptions/10.md). IDLE with no command offered waits (10_state.md R26).
-/

namespace Sys2Proof.Machine

def step (s : State) : Host.Outcome State Fault Refusal :=
  match s.fetch with
  | none => .next s
  | some (f, w, s1) =>
    match decode f w with
    | .ok (i, _) => exec i s1
    | .error e => noInstr e s1

/-- `s` with the instruction of the table's word `w` where step fetches its next instruction. -/
def State.withFetchWord (s : State) (nbits w : Nat) : State :=
  match decodeTableWord nbits w with
  | some i => s.placing i
  | none => s

end Sys2Proof.Machine
end

