-- ==== Sys2Proof/Machine/Tree.lean ====
section
/-!
DEFINITION. The abstract functions of the spec that claims are stated with: the tree a node store holds (10_state.md
R22, R32), its serialization and deserialization (43_header_codec.md R136, R143), its codes (42_code_table.md R125,
R127), the walk and DECOMPRESS as functions (45_decompress.md R177). No instruction's meaning calls them.
-/

namespace Sys2Proof.Machine

/-- A tree without weights (R22, R145). -/
inductive CodeTree where
  | leaf (sym : Sym)
  | node (left right : CodeTree)
  deriving DecidableEq, Repr

/-- `Ser` (R136). -/
def CodeTree.ser : CodeTree → Bits
  | .leaf sym => true :: bits Config.symW sym.toNat
  | .node l r => false :: (l.ser ++ r.ser)

/-- The leaves' symbols from left to right. -/
def CodeTree.leaves : CodeTree → List Sym
  | .leaf sym => [sym]
  | .node l r => l.leaves ++ r.leaves

/-- The number of nodes. -/
def CodeTree.size : CodeTree → Nat
  | .leaf _ => 1
  | .node l r => l.size + r.size + 1

/-- The number of edges on the longest way from the root to a leaf (R117). -/
def CodeTree.depth : CodeTree → Nat
  | .leaf _ => 0
  | .node l r => max l.depth r.depth + 1

/-- Every leaf's symbol with its path from the root, 0 for left and 1 for right (R125). -/
def CodeTree.paths : CodeTree → List (Sym × Bits)
  | .leaf sym => [(sym, [])]
  | .node l r =>
    l.paths.map (fun x => (x.1, false :: x.2)) ++ r.paths.map (fun x => (x.1, true :: x.2))

/-- Every leaf's symbol with its code: the path, but the one-leaf tree's code is `0` (R125, R127). -/
def CodeTree.codes : CodeTree → List (Sym × Bits)
  | .leaf sym => [(sym, [false])]
  | .node l r => (CodeTree.node l r).paths

/-- The code of a symbol, empty for a symbol that is no leaf. -/
def CodeTree.codeOf (t : CodeTree) (sym : Sym) : Bits :=
  match t.codes.find? (fun x => x.1 == sym) with
  | some x => x.2
  | none => []

/-- The writes of HDRSER in preorder (R135). -/
def CodeTree.writes : CodeTree → List Txn
  | .leaf sym => [.writeBits 1 1, .writeBits 9 sym.toNat]
  | .node l r => .writeBits 1 0 :: (l.writes ++ r.writes)

/-- `T(i)` of R32, down to a number of levels; `none` if the store holds no tree of that many levels there. -/
def State.treeAt (s : State) : Nat → Idx → Option CodeTree
  | 0, _ => none
  | k + 1, i =>
    match s.nodeAt i with
    | none => none
    | some (.leaf sym _) => some (.leaf sym)
    | some (.inner _ l r) =>
      match s.treeAt k l, s.treeAt k r with
      | some tl, some tr => some (.node tl tr)
      | _, _ => none

/-- The symbols that get a leaf, ascending: those with count > 0 (R111). -/
def State.symbols (s : State) : List Nat :=
  (List.range Config.nsym).filter fun y => decide (0 < (s.freqOf y).toNat)

/-- The sum of the counts of a tree's leaves, unbounded (R119). -/
def State.countSum (s : State) (t : CodeTree) : Nat := (t.leaves.map fun sym => (s.freqOf sym.toNat).toNat).sum

/-- `Des` (R143), for at most that many levels. -/
def des : Nat → Bits → Option (CodeTree × Bits)
  | 0, _ => none
  | _ + 1, [] => none
  | _ + 1, true :: u =>
    if Config.symW ≤ u.length then
      some (.leaf (BitVec.ofNat 9 (val (u.take Config.symW))), u.drop Config.symW)
    else none
  | k + 1, false :: u =>
    match des k u with
    | none => none
    | some (l, u1) =>
      match des k u1 with
      | none => none
      | some (r, u2) => some (.node l r, u2)

/-- `Des` with the NODE_CAP check (R142, R143, R177). A tree of `n` levels has a header of more than `n` bits. -/
def desCapped (u : Bits) : Option (CodeTree × Bits) :=
  match des (u.length + 1) u with
  | some (t, rest) => if t.size ≤ Config.nodeCap then some (t, rest) else none
  | none => none

/-- The bits of the first `n` header tokens of a bit sequence (R82, R83, R86 (b)); `none` if it ends before. -/
def headerTokens : Nat → Bits → Option Bits
  | 0, _ => some []
  | _ + 1, [] => none
  | n + 1, false :: u => (headerTokens n u).map (false :: ·)
  | n + 1, true :: u =>
    if Config.symW ≤ u.length then
      (headerTokens n (u.drop Config.symW)).map fun p => true :: (u.take Config.symW ++ p)
    else none

/-- The reads that took the bits `p`, one `readBit` each. -/
def readsOf (p : Bits) : List Txn := p.map fun b => .readBit (some b)

/-- The reads of HDRDES on a header that is no tree of at most NODE_CAP nodes: `NODE_CAP` tokens, after which the next one is
refused "before reading that token's flag" (R142), or, if the bits end before, all of them and the `END` (R141). -/
def badHeaderReads (u : Bits) : List Txn :=
  match headerTokens Config.nodeCap u with
  | some p => readsOf p
  | none => readsOf u ++ [.readBit none]

/-- `Walk(t, cur, u, Y)` (R177): the bytes written and how it ends. -/
def walkBits (t : CodeTree) : CodeTree → Bits → List Byte → List Byte × ErrKind
  | _, [], y => (y, .truncatedBody)
  | cur, b :: u, y =>
    match (match cur with
      | .node l r => if b then r else l
      | .leaf sym => CodeTree.leaf sym) with
    | .leaf sym => if sym = 256 then (y, .none) else walkBits t t u (y ++ [sym.setWidth 8])
    | .node l r => walkBits t (.node l r) u y

/-- A write with the value that counts, the low `width` bits (R53); any other transaction as it is. -/
def Txn.lowBits : Txn → Txn
  | .writeBits w v => .writeBits w (v % 2 ^ w)
  | .readByte b => .readByte b
  | .readBit b => .readBit b
  | .reset => .reset
  | .close => .close

/-- The transactions of the walk from `cur` on the bits `u`: a read per bit, the write of a byte right after the read that
reached its leaf, with the bits of its symbol that count (R172), nothing after the leaf of 256 (R171, R176, R178), the
`END` otherwise (R169). -/
def walkTrace (t : CodeTree) : CodeTree → Bits → List Txn
  | _, [] => [.readBit none]
  | cur, b :: u =>
    .readBit (some b) ::
      match (match cur with
        | .node l r => if b then r else l
        | .leaf sym => CodeTree.leaf sym) with
      | .leaf sym => if sym = 256 then [] else .writeBits 8 (sym.toNat % 256) :: walkTrace t t u
      | .node l r => walkTrace t (.node l r) u

/-- The transactions of DECOMPRESS on `B` for the marker `m`: the marker's reads, the header's, the walk's, and `close()` last,
on every path (R178, R205). -/
def decompressTrace (m : BitVec 32) (b : Bits) : List Txn :=
  (if b.length < Config.markerW then readsOf b ++ [.readBit none]
  else
    readsOf (b.take Config.markerW) ++
      if val (b.take Config.markerW) ≠ m.toNat then []
      else
        match desCapped (b.drop Config.markerW) with
        | none => badHeaderReads (b.drop Config.markerW)
        | some (t, u) => readsOf t.ser ++ walkTrace t t u) ++ [.close]

/-- `Decompress(B)` (R177), for the marker `m`. -/
def decompressBits (m : BitVec 32) (b : Bits) : List Byte × ErrKind :=
  if b.length < Config.markerW ∨ val (b.take Config.markerW) ≠ m.toNat then ([], .format)
  else
    match desCapped (b.drop Config.markerW) with
    | none => ([], .corruptHeader)
    | some (t, u) => walkBits t t u []

end Sys2Proof.Machine
end

