-- ==== Sys2Proof/Safety.lean ====
section
/-!
DEFINITION. What a safe run is, in the terms claims use: the invariant every step keeps, the trees the phases rely on,
and the states a command starts from.
-/

namespace Sys2Proof.Machine

/-- No transaction stands on a request channel: what holds between any two operations (R11, R230). -/
def State.Quiet (s : State) : Prop := s.inp.req = none ∧ s.out.req = none

/-- What holds between any two steps. `busy` says a command runs (R29); `done` and `busy` exclude each other (R36,
R155); an error leads to CLOSE and stays to be read (R204, R205); `pq` and the traversal stack are empty outside the
operations that use them (R33, R35); the registers keep the ranges of R28 and R32; the read position lies in IN (R51,
R52). -/
def State.Inv (s : State) : Prop :=
  (s.flags.busy = true ↔ s.phase ≠ .idle) ∧
  (s.flags.busy = true → s.flags.done = false) ∧
  (s.flags.err ≠ .none → s.phase = .close ∨ s.phase = .idle) ∧
  s.pq = [] ∧ s.stk = [] ∧
  s.regs.nnodes.toNat ≤ Config.nodeCap ∧ s.regs.bitcnt.toNat ≤ 32 ∧ s.regs.plen.toNat ≤ Config.codeMax ∧
  s.inp.pos ≤ s.inp.data.size

/-- A tree COMPRESS builds: every leaf a symbol, no two alike, 256 among them (R23). -/
def CodeTree.Proper (t : CodeTree) : Prop :=
  t.leaves.Nodup ∧ (∀ x ∈ t.leaves, x.toNat ≤ 256) ∧ (256 : Sym) ∈ t.leaves

/-- The tree each phase relies on is there: after the count pass the end-of-stream symbol is counted (R104); from BUILD
to HDRSER the root is the root of a proper tree (R23, R115); in the walk the root and, inside it, `cur` are nodes of
a tree (R167, R174). -/
def State.TreeInv (s : State) : Prop :=
  (s.phase = .cBuild → 0 < (s.freqOf 256).toNat) ∧
  (s.phase = .cGen ∨ s.phase = .cMark ∨ s.phase = .cHdr →
    ∃ t, s.treeAt (Config.codeMax + 1) s.regs.root = some t ∧ t.Proper) ∧
  (s.phase = .dRoot ∨ s.phase = .dInt → ∃ t, s.treeAt Config.nodeCap s.regs.root = some t) ∧
  (s.phase = .dInt → ∃ t, s.treeAt Config.nodeCap s.regs.cur = some t)

/-- A command can start: IDLE, no transaction outstanding (R36, R230). -/
def State.Ready (s : State) : Prop := s.phase = .idle ∧ s.Quiet

end Sys2Proof.Machine
end

