-- ==== Sys2Proof/Certificates/Slice0/Obligations.lean ====
section
/-!
DEFINITION. The statements for the provers, each a rule of the spec or what several rules give together.
A next state is written as the old one with the fields that change, so the frame is part of the equation.
-/

open Sys2Proof Sys2Proof.Machine

/-! ### Reset, the command port, the step -/

/-- R230: after reset the block is in IDLE with its flags clear, STATUS reads 0, the command port is ready and no request
is outstanding. -/
def Obligations.ResetLeavesIdleWithFlagsClear : Prop :=
  State.reset.phase = .idle ∧
  State.reset.flags = { busy := false, done := false, err := .none } ∧
  State.reset.statusWord = 0 ∧ State.reset.cmdReady = true ∧ State.reset.Quiet

/-- R230, R233: `rst`, also during a command, leaves the block as R230 says: no `close()` is issued, what was written to OUT
stays there, and the next command offered is started. -/
def Obligations.RstAbandonsTheCommand : Prop :=
  ∀ s : State,
    s.rst.Ready ∧ s.rst.statusWord = 0 ∧ s.rst.cmdReady = true ∧ s.rst.trace = s.trace ∧ s.rst.out.bits = s.out.bits ∧
    s.rst.out.closed = s.out.closed ∧ s.rst.inp.pos = s.inp.pos ∧ s.rst.inp.data = s.inp.data ∧
    step (s.rst.offer opDecompress) = exec .decompress { s.rst with cmd := none } ∧
    ∃ t : State, step (s.rst.offer opDecompress) = .next t ∧ t.phase = .dMark ∧ t.flags = flagsAccepted

/-- Both invariants hold at reset. What they say there of `nnodes`, `bitcnt`, `plen`, `pq`, `stk` and the read position, which
R230 leaves unspecified, holds by the model's choice of reset values (notes/assumptions/3.md, 4.md, 5.md). -/
def Obligations.ResetMeetsTheInvariants : Prop := State.reset.Inv ∧ State.reset.TreeInv

/-- R36: COMPRESS and DECOMPRESS are accepted in IDLE, with the one effect the rule gives; otherwise they change nothing;
a reserved command is taken off the port and changes nothing. -/
def Obligations.CommandAcceptedExactlyInIdle : Prop :=
  ∀ s : State,
    (s.phase = .idle →
      exec .compress s = .next { s with
        phase := .cCount
        flags := { busy := true, done := false, err := .none }
        regs := { s.regs with nnodes := 0 } } ∧
      exec .decompress s = .next { s with
        phase := .dMark
        flags := { busy := true, done := false, err := .none }
        regs := { s.regs with nnodes := 0 } }) ∧
    (s.phase ≠ .idle → exec .compress s = .next s ∧ exec .decompress s = .next s) ∧
    (s.Ready → ∀ op : BitVec 2, s.cmd = some op → op = 0 ∨ op = 3 → step s = .next { s with cmd := none })

/-- R242: a command offered while the block is busy has no effect on the step and stays offered. -/
def Obligations.CommandOfferedWhileBusyIsHeldOff : Prop :=
  ∀ (s t : State) (op : BitVec 2),
    s.phase ≠ .idle → step s = .next t → step (s.offer op) = .next (t.offer op)

/-- R29, R30, R200: the fields of STATUS, with the codes 0, 1, 2, 3 of no error, FormatError, CorruptHeaderError and
TruncatedBodyError. -/
def Obligations.StatusWordHasItsFields : Prop :=
  ∀ s : State,
    s.statusWord.toNat = s.flags.busy.toNat + 2 * s.flags.done.toNat + 4 *
      match s.flags.err with
      | .none => 0
      | .format => 1
      | .corruptHeader => 2
      | .truncatedBody => 3

/-- The step runs the instruction decoded from what is selected: a transaction outstanding on IN, then on OUT, then in
IDLE the command offered, and in any other phase the phase code (R11, R26, R36); with nothing selected it waits. A
request or an offer is taken off its channel first. R40 has at most one transaction outstanding: that IN's goes first if
OUT's stands too is the model's choice (notes/assumptions/12.md), and so is that waiting is a step that changes nothing
(notes/assumptions/22.md, 31.md). -/
def Obligations.StepRunsTheSelectedInstruction : Prop :=
  ∀ (s : State) (i : Instr) (rest : Bits),
    (∀ op, s.inp.req = some op → decode .inOp (bits 2 op.toNat) = .ok (i, rest) →
      step s = exec i { s with inp := { s.inp with req := none } }) ∧
    (∀ r, s.inp.req = none → s.out.req = some r →
      decode .outOp (r.op :: (bits 9 r.width.toNat ++ bits 256 r.value.toNat)) = .ok (i, rest) →
      step s = exec i { s with out := { s.out with req := none } }) ∧
    (∀ op, s.Ready → s.cmd = some op → decode .cmd (bits 2 op.toNat) = .ok (i, rest) →
      step s = exec i { s with cmd := none }) ∧
    (s.Quiet → s.phase ≠ .idle → decode .phase (bits 4 s.phase.code.toNat) = .ok (i, rest) → step s = exec i s) ∧
    (s.Ready → s.cmd = none → step s = .next s)

/-- R26, R95: each phase selects its operation. -/
def Obligations.PhaseSelectsItsOperation : Prop :=
  ∀ s : State, s.Quiet →
    (s.phase = .cCount → step s = exec .count s) ∧
    (s.phase = .cBuild → step s = exec .build s) ∧
    (s.phase = .cGen → step s = exec .gencodes s) ∧
    (s.phase = .cMark → step s = exec .cMark s) ∧
    (s.phase = .cHdr → step s = exec .hdrser s) ∧
    (s.phase = .cRewind → step s = exec .cRewind s) ∧
    (s.phase = .cEnc → step s = exec .encode s) ∧
    (s.phase = .cTerm → step s = exec .cTerm s) ∧
    (s.phase = .dMark → step s = exec .dMark s) ∧
    (s.phase = .dHdr → step s = exec .hdrdes s) ∧
    (s.phase = .dRoot → step s = exec .walk s) ∧
    (s.phase = .dInt → step s = exec .walkInt s) ∧
    (s.phase = .close → step s = exec .closePhase s)

/-! ### Decoding -/

/-- Decoding an encoded well-formed instruction gives it back, with the bits after it, for every operand. A code has no
boundary of its own (R84), so for C and T no bits follow. -/
def Obligations.DecodeInvertsEncode : Prop :=
  ∀ i : Instr, i.WellFormed →
    decode i.format (encode i) = .ok (i, []) ∧
    (i.format ≠ .code → i.format ≠ .terminator →
      ∀ rest, decode i.format (encode i ++ rest) = .ok (i, rest))

/-- What decodes is well formed, of the format it was read in, and, but for the operands close ignores, the encoding of
what was read: every word has one meaning. -/
def Obligations.DecodeAcceptsOnlyEncodings : Prop :=
  ∀ (f : Format) (bs : Bits) (i : Instr) (rest : Bits),
    decode f bs = .ok (i, rest) →
      i.WellFormed ∧ i.format = f ∧ (i ≠ .close → bs = encode i ++ rest)

/-- Words written out from R26, R81 to R84, R91 and R92: every command, phase and stream code, and a token of each format.
A code has no boundary of its own (R84), so C and T are given as whole codes. -/
def Obligations.WordsDecodeAsTheTablesSay : Prop :=
  decode .cmd [false, true] = .ok (.compress, []) ∧
  decode .cmd [true, false] = .ok (.decompress, []) ∧
  decode .phase [false, false, false, true] = .ok (.count, []) ∧
  decode .phase [false, false, true, false] = .ok (.build, []) ∧
  decode .phase [false, false, true, true] = .ok (.gencodes, []) ∧
  decode .phase [false, true, false, false] = .ok (.cMark, []) ∧
  decode .phase [false, true, false, true] = .ok (.hdrser, []) ∧
  decode .phase [false, true, true, false] = .ok (.cRewind, []) ∧
  decode .phase [false, true, true, true] = .ok (.encode, []) ∧
  decode .phase [true, false, false, false] = .ok (.cTerm, []) ∧
  decode .phase [true, false, false, true] = .ok (.dMark, []) ∧
  decode .phase [true, false, true, false] = .ok (.hdrdes, []) ∧
  decode .phase [true, false, true, true] = .ok (.walk, []) ∧
  decode .phase [true, true, false, false] = .ok (.walkInt, []) ∧
  decode .phase [true, true, false, true] = .ok (.closePhase, []) ∧
  decode .inOp [false, false] = .ok (.readByte, []) ∧
  decode .inOp [false, true] = .ok (.readBit, []) ∧
  decode .inOp [true, false] = .ok (.reset, []) ∧
  decode .outOp ([false, false, false, false, false, false, false, false, true, false] ++
    List.replicate 254 false ++ [false, true]) = .ok (.writeBits 2 1, []) ∧
  decode .outOp (true :: List.replicate 265 false) = .ok (.close, []) ∧
  decode .marker (
    [true, true, true, true, true, false, true, false, true, true, false, false, true, true, true, false] ++
    [true, false, false, false, false, false, true, false, false, false, false, false, false, false, false, true]) =
    .ok (.m 0xFACE8201, []) ∧
  decode .header [false] = .ok (.n, []) ∧
  decode .header [true, true, false, false, false, false, false, false, false, false] = .ok (.l 256, []) ∧
  decode .header [true, false, false, true, false, false, false, false, true, false] = .ok (.l 66, []) ∧
  decode .code [true, true, true, false] = .ok (.c [true, true, true, false], []) ∧
  decode .terminator [true, false] = .ok (.t [true, false], [])

/-- R91, R26, R92: the decoder gives no instruction for the reserved command codes, the phase codes that select no operation
and the IN request code 11, each by a name of its own. For the reserved commands that is the decoder's error only: the
port accepts them and nothing changes (R36, R91, notes/assumptions/33.md). That code 11, of which R92 says only "never
issued", is refused is the model's choice (notes/assumptions/27.md). -/
def Obligations.ReservedCodesAreRefusedByName : Prop :=
  ∀ rest : Bits,
    decode .cmd (false :: false :: rest) = .error .reservedCommand ∧
    decode .cmd (true :: true :: rest) = .error .reservedCommand ∧
    decode .phase (false :: false :: false :: false :: rest) = .error .noOperation ∧
    decode .phase (true :: true :: true :: false :: rest) = .error .noOperation ∧
    decode .phase (true :: true :: true :: true :: rest) = .error .noOperation ∧
    decode .inOp (true :: true :: rest) = .error .inOpNeverIssued

/-! ### Bits, bytes and the stream transactions -/

/-- R13: `val(bits(w, v))` is the low `w` bits of `v`, and `bits(n, val(p)) = p`. -/
def Obligations.BitsAndValAreInverse : Prop :=
  (∀ w v : Nat, val (bits w v) = v % 2 ^ w) ∧ (∀ p : Bits, bits p.length (val p) = p)

/-- R60: stream bit `k` is bit `7 - (k mod 8)` of byte `k div 8`; packing inverts unpacking, and pads a last partial byte
with 0 bits at its low end. -/
def Obligations.BytePackingIsMsbFirstWithZeroPad : Prop :=
  (∀ (x : List Byte) (k : Nat),
    (unpackBytes x)[k]? = x[k / 8]?.map fun b => b.getLsbD (7 - k % 8)) ∧
  (∀ x : List Byte, packBits (unpackBytes x) = x) ∧
  (∀ b : Bits, ∃ pad, pad < 8 ∧ unpackBytes (packBits b) = b ++ List.replicate pad false)

/-- R51: the byte at the read position, which advances; at the end `END`, and the position stays. Every other field is
unchanged; a bit medium of whole bytes is read from its start by R60. -/
def Obligations.ReadByteAnswersTheNextByteOrEnd : Prop :=
  ∀ (s : State) (x : List Byte), s.inp.data.asBytes s.inp.pos = some x →
    (∀ b, x[s.inp.pos]? = some b →
      exec .readByte s = .next { s with
        inp := { s.inp with data := .bytes x, pos := s.inp.pos + 1, rsp := some (.byte b) }
        trace := s.trace ++ [.readByte (some b)] }) ∧
    (s.inp.pos = x.length →
      exec .readByte s = .next { s with
        inp := { s.inp with data := .bytes x, rsp := some .endOfData }
        trace := s.trace ++ [.readByte none] })

/-- R52: the bit at the read position, which advances; at the end `END`, and the position stays. Every other field is
unchanged; a byte medium is read from its start by R60. -/
def Obligations.ReadBitAnswersTheNextBitOrEnd : Prop :=
  ∀ (s : State) (x : Bits), s.inp.data.asBits s.inp.pos = some x →
    (∀ b, x[s.inp.pos]? = some b →
      exec .readBit s = .next { s with
        inp := { s.inp with data := .bits x, pos := s.inp.pos + 1, rsp := some (.bit b) }
        trace := s.trace ++ [.readBit (some b)] }) ∧
    (s.inp.pos = x.length →
      exec .readBit s = .next { s with
        inp := { s.inp with data := .bits x, rsp := some .endOfData }
        trace := s.trace ++ [.readBit none] })

/-- R54, R55: reset moves the read position to 0 and nothing else of IN or OUT; close sets `closed`. -/
def Obligations.ResetRewindsAndCloseCloses : Prop :=
  ∀ s : State,
    exec .reset s = .next { s with
      inp := { s.inp with pos := 0, rsp := some .ack }
      trace := s.trace ++ [.reset] } ∧
    exec .close s = .next { s with
      out := { s.out with closed := true }
      trace := s.trace ++ [.close] }

/-- R53: the low `width` bits of `value` are appended, most significant first, after the bits already there; nothing else
changes. For a width above 256, which the block does not issue, the bits above the 256 of `out_value` are 0, the
model's reading of R13 (notes/assumptions/39.md). -/
def Obligations.WriteBitsAppendsTheLowBitsMsbFirst : Prop :=
  ∀ (s : State) (w : BitVec 9) (v : BitVec 256), ∃ new : Bits,
    exec (.writeBits w v) s = .next { s with
      out := { s.out with bits := s.out.bits ++ new }
      trace := s.trace ++ [.writeBits w.toNat v.toNat] } ∧
    new.length = w.toNat ∧ ∀ k, k < w.toNat → new[k]? = some (v.getLsbD (w.toNat - 1 - k))

/-- R53: "one write of `w` bits is indistinguishable from any split of it into consecutive writes of its high part then
its low part", and bits at or above position `w` are ignored. -/
def Obligations.WriteBitsMayBeSplit : Prop :=
  ∀ (s : State) (a b v : Nat),
    ((s.writeBits a (v / 2 ^ b)).writeBits b v).out = (s.writeBits (a + b) v).out ∧
    (s.writeBits a v).out = (s.writeBits a (v % 2 ^ a)).out

/-- R61: `readBits(n)` returns `v` from a stream on which `writeBits(n, v)` was written, and takes those bits; if the
stream is shorter it answers `END` with the bits there were consumed. That the value stands in `acc` and `bitcnt` counts
down to 0 is R28, R166 and R231, and for a field other than the marker the model's reading (notes/assumptions/26.md). -/
def Obligations.ReadFieldInvertsWriteBits : Prop :=
  ∀ (s : State) (n : Nat) (bs : Bits), n ≤ 32 → ∃ t : State,
    t = { s with
      regs := { s.regs with acc := t.regs.acc, bitcnt := t.regs.bitcnt }
      inp := { s.inp with pos := s.inp.pos + min n bs.length, rsp := t.inp.rsp }
      trace := t.trace } ∧
    (∀ (v : Nat) (u : Bits), bs = bits n v ++ u →
      s.readField n bs = (true, t) ∧ t.regs.acc.toNat = v % 2 ^ n ∧ t.regs.bitcnt = 0 ∧
      t.trace = s.trace ++ (bits n v).map fun b => .readBit (some b)) ∧
    (bs.length < n →
      s.readField n bs = (false, t) ∧
      t.trace = s.trace ++ (bs.map fun b => .readBit (some b)) ++ [.readBit none])

/-- U10, R62: readByte and readBit mixed on one stream, or readByte off a byte boundary, is refused by name. The refusal
is the model's choice for what the spec does not specify (notes/assumptions/14.md), and so is that a position
other than 0 means units of that form were taken (notes/assumptions/38.md). -/
def Obligations.MixedStreamUseIsRefused : Prop :=
  ∀ s : State,
    (∀ b, s.inp.data = .bits b → s.inp.pos ≠ 0 ∨ b.length % 8 ≠ 0 →
      exec .readByte s = .refused .mixedStreamUse ∧ exec .count s = .refused .mixedStreamUse ∧
      exec .encode s = .refused .mixedStreamUse) ∧
    (∀ x, s.inp.data = .bytes x → s.inp.pos ≠ 0 →
      exec .readBit s = .refused .mixedStreamUse ∧ exec .dMark s = .refused .mixedStreamUse ∧
      exec .hdrdes s = .refused .mixedStreamUse ∧ exec .walkInt s = .refused .mixedStreamUse)

/-! ### COUNT and BUILD -/

/-- R103, R116: saturating increment and addition. -/
def Obligations.CountsAndWeightsSaturate : Prop :=
  ∀ a b : Count,
    (satInc a).toNat = min (a.toNat + 1) (2 ^ 32 - 1) ∧
    (satAdd a b).toNat = min (a.toNat + b.toNat) (2 ^ 32 - 1)

/-- R100, R102 to R105: COUNT counts every byte left, saturating, sets the end-of-stream count to 1, reads to the end
and once more, and goes to C_BUILD; only `freq`, `sym`, IN and the phase change. -/
def Obligations.CountTalliesEveryByte : Prop :=
  ∀ (s : State) (x : List Byte),
    s.inp.data.asBytes s.inp.pos = some x → s.inp.pos ≤ x.length →
    ∃ t : State, exec .count s = .next t ∧
      t = { s with
        phase := .cBuild
        freq := t.freq
        regs := { s.regs with sym := t.regs.sym }
        inp := { s.inp with data := .bytes x, pos := x.length, rsp := some .endOfData }
        trace := s.trace ++ ((x.drop s.inp.pos).map fun b => .readByte (some b)) ++ [.readByte none]
        freeCtr := t.freeCtr } ∧
      (∀ b : Byte, (t.freqOf b.toNat).toNat = min ((x.drop s.inp.pos).count b) (2 ^ 32 - 1)) ∧
      t.freqOf 256 = 1

/-- R110, R111, R115, R117: from `L` symbols with a count BUILD makes a tree with one leaf for each, of `2L - 1` nodes and
depth at most `L - 1`, whose root is the last node made; only the node store, `sym`, `root`, `nnodes` and the phase
change, `pq` being left empty. -/
def Obligations.BuildMakesOneTreeOfAllCountedSymbols : Prop :=
  ∀ s : State, 0 < s.symbols.length → ∃ (t : State) (tree : CodeTree),
    exec .build s = .next t ∧
    t = { s with
      phase := .cGen
      node := t.node
      pq := []
      regs := { s.regs with
        sym := t.regs.sym
        root := BitVec.ofNat 10 (2 * s.symbols.length - 2)
        nnodes := BitVec.ofNat 10 (2 * s.symbols.length - 1) }
      freeCtr := t.freeCtr } ∧
    t.treeAt (Config.codeMax + 1) t.regs.root = some tree ∧
    tree.size = 2 * s.symbols.length - 1 ∧ tree.depth ≤ s.symbols.length - 1 ∧
    (tree.leaves.map BitVec.toNat).Perm s.symbols ∧
    ∀ i : Idx, 2 * s.symbols.length - 1 ≤ i.toNat → t.nodeAt i = s.nodeAt i

/-- R111: the leaves take the node indices from 0 on in ascending symbol order, each with its count as its weight. -/
def Obligations.BuildPutsLeavesInSymbolOrder : Prop :=
  ∀ (s t : State), exec .build s = .next t →
    ∀ (k y : Nat), s.symbols[k]? = some y →
      t.nodeAt (BitVec.ofNat 10 k) = some (.leaf (BitVec.ofNat 9 y) (s.freqOf y))

/-- R112 to R114, R116: internal node `i` merges the two least nodes, in the order of R113, among those made before it
that are no node's child yet: first the left child, then the right, with their weights' saturated sum. -/
def Obligations.BuildMergesTheTwoLightest : Prop :=
  ∀ (s t : State), exec .build s = .next t →
    ∀ i : Idx, s.symbols.length ≤ i.toNat → i.toNat < 2 * s.symbols.length - 1 →
      ∃ (w : Count) (a b : Idx),
        t.nodeAt i = some (.inner w a b) ∧ w = satAdd (t.weightOf a) (t.weightOf b) ∧
        a.toNat < i.toNat ∧ b.toNat < i.toNat ∧ tieBefore (t.weightOf a) (t.weightOf b) a b = true ∧
        (∀ (j : Idx) (w' : Count) (l r : Idx), j.toNat < i.toNat →
          t.nodeAt j = some (.inner w' l r) → l ≠ a ∧ l ≠ b ∧ r ≠ a ∧ r ≠ b) ∧
        ∀ c : Idx, c.toNat < i.toNat →
          (∀ (j : Idx) (w' : Count) (l r : Idx), j.toNat < i.toNat →
            t.nodeAt j = some (.inner w' l r) → l ≠ c ∧ r ≠ c) →
          c = a ∨ c = b ∨ tieBefore (t.weightOf b) (t.weightOf c) b c = true

/-- R119, in the saturated form the spec infers from R116: every node's weight is the sum of the counts of the leaves beneath it, or `2^32 - 1` if that is less. -/
def Obligations.BuildWeightsAreSaturatedLeafSums : Prop :=
  ∀ (s t : State), exec .build s = .next t →
    ∀ (i : Idx) (tree : CodeTree), i.toNat < t.regs.nnodes.toNat →
      t.treeAt (Config.codeMax + 1) i = some tree →
      (t.weightOf i).toNat = min (s.countSum tree) (2 ^ 32 - 1)

/-! ### GENCODES -/

/-- R125 to R129: GENCODES gives each leaf's symbol its path as its code (the one-leaf tree the code `0`), as length and
value, and leaves every other entry invalid; the code is read back from its entry. Only the code table, the traversal
registers and the phase change; that `stk` is empty and `sp` 0 afterwards is the model's reading of R28 and R35
(notes/assumptions/30.md). -/
def Obligations.GencodesStoresEveryPathAsItsCode : Prop :=
  ∀ (s : State) (tree : CodeTree),
    s.treeAt (Config.codeMax + 1) s.regs.root = some tree → tree.leaves.Nodup →
    (∀ y ∈ tree.leaves, y.toNat ≤ 256) →
    ∃ t : State, exec .gencodes s = .next t ∧
      t = { s with
        phase := .cMark
        code := t.code
        stk := []
        regs := { s.regs with path := t.regs.path, plen := t.regs.plen, sp := 0 }
        freeCtr := t.freeCtr } ∧
      (∀ (y : Sym) (p : Bits), (y, p) ∈ tree.codes →
        1 ≤ p.length ∧ p.length ≤ 256 ∧
        ∃ e, t.codeAt y = some e ∧ e.valid = true ∧ e.len.toNat = p.length ∧ e.bits.toNat = val p ∧ e.toBits = p) ∧
      (∀ (y : Sym) (e : CodeEntry), y ∉ tree.leaves → s.codeAt y = some e →
        t.codeAt y = some { e with valid := false })

/-- R130: no code of the table GENCODES makes is a prefix of another symbol's. -/
def Obligations.CodeTableIsPrefixFree : Prop :=
  ∀ (s t : State) (tree : CodeTree),
    s.treeAt (Config.codeMax + 1) s.regs.root = some tree → tree.leaves.Nodup → exec .gencodes s = .next t →
    ∀ (a b : Sym) (ea eb : CodeEntry), a ≠ b →
      t.codeAt a = some ea → t.codeAt b = some eb → ea.valid = true → eb.valid = true →
      ¬ ea.toBits <+: eb.toBits

/-- R132, the spec's own inference from R23 and R127: the valid codes of a tree with two or more leaves meet Kraft's equality; the one-leaf table's sum is 1/2 (both
sides times 2^256). -/
def Obligations.CodeLengthsMeetKraftEquality : Prop :=
  ∀ (s t : State) (tree : CodeTree),
    s.treeAt (Config.codeMax + 1) s.regs.root = some tree → tree.leaves.Nodup → exec .gencodes s = .next t →
    ((t.code.toList.filter fun e => e.valid).map fun e => 2 ^ (256 - e.len.toNat)).sum =
      if tree.leaves.length = 1 then 2 ^ 255 else 2 ^ 256

/-! ### The header -/

/-- R135, R136: HDRSER appends exactly `Ser` of the tree at the root, by the writes of the preorder traversal, and goes to
C_REWIND. That `stk` is empty and `sp` 0 afterwards is the model's reading of R28 and R35 (notes/assumptions/30.md). -/
def Obligations.HdrserAppendsTheSerializedTree : Prop :=
  ∀ (s : State) (tree : CodeTree), s.treeAt Config.nodeCap s.regs.root = some tree →
    exec .hdrser s = .next { s with
      phase := .cRewind
      stk := []
      regs := { s.regs with sp := 0 }
      out := { s.out with bits := s.out.bits ++ tree.ser }
      trace := s.trace ++ tree.writes }

/-- R137, the spec's own inference from R136: the header of a tree of `L` leaves has `11 L - 1` bits. -/
def Obligations.HeaderLengthIsElevenPerLeafLessOne : Prop :=
  ∀ tree : CodeTree, tree.ser.length + 1 = 11 * tree.leaves.length

/-- R138, the spec's own inference from R136: the serialization is self-delimiting. -/
def Obligations.SerializationIsSelfDelimiting : Prop :=
  ∀ (t t' : CodeTree) (u u' : Bits), t.ser ++ u = t'.ser ++ u' → t = t' ∧ u = u'

/-- R145, in the precise form the spec infers from R136 and R143: deserializing a serialized tree of at most NODE_CAP nodes
gives it back, with the bits after it. -/
def Obligations.DeserializeInvertsSerialize : Prop :=
  ∀ (t : CodeTree) (u : Bits), t.size ≤ Config.nodeCap → desCapped (t.ser ++ u) = some (t, u)

/-- R140 to R144: HDRDES computes `Des` of the bits left, with the capacity check. On success the store holds the tree at
`root` = 0, `cur` = `root`, the walk begins, and exactly the header has been read. Otherwise CorruptHeaderError: with
`NODE_CAP` whole tokens there, they are read and the next one is refused before its flag is read (R142); with fewer, all
the bits there were are consumed and the `END` is answered (R141). OUT, the tables of COMPRESS and the other flags are
unchanged either way. That `stk` is empty afterwards, and `sp` 0 on success, is the model's reading of R28 and R35
(notes/assumptions/21.md). -/
def Obligations.HdrdesComputesDes : Prop :=
  ∀ (s : State) (b : Bits), s.inp.data.asBits s.inp.pos = some b → ∃ t : State,
    exec .hdrdes s = .next t ∧
    t = { s with
      phase := t.phase
      flags := t.flags
      regs := { s.regs with
        acc := t.regs.acc, bitcnt := t.regs.bitcnt, root := t.regs.root, cur := t.regs.cur
        nnodes := t.regs.nnodes, sp := t.regs.sp }
      node := t.node
      stk := []
      inp := { s.inp with data := .bits b, pos := t.inp.pos, rsp := t.inp.rsp }
      trace := t.trace
      freeCtr := t.freeCtr } ∧
    (∀ i : Idx, t.regs.nnodes.toNat ≤ i.toNat → t.nodeAt i = s.nodeAt i) ∧
    (∀ (tree : CodeTree) (rest : Bits), desCapped (b.drop s.inp.pos) = some (tree, rest) →
      t.phase = .dRoot ∧ t.flags = s.flags ∧ t.treeAt Config.nodeCap t.regs.root = some tree ∧
      t.regs.root = 0 ∧ t.regs.cur = 0 ∧ t.regs.nnodes.toNat = tree.size ∧ t.regs.sp = 0 ∧ t.bitsLeft = rest ∧
      t.trace = s.trace ++ tree.ser.map fun x => .readBit (some x)) ∧
    (desCapped (b.drop s.inp.pos) = none →
      t.phase = .close ∧ t.flags = { s.flags with err := .corruptHeader } ∧
      (∀ p : Bits, headerTokens Config.nodeCap (b.drop s.inp.pos) = some p →
        t.regs.nnodes = 513 ∧ t.inp.pos = s.inp.pos + p.length ∧
        t.trace = s.trace ++ p.map fun x => .readBit (some x)) ∧
      (headerTokens Config.nodeCap (b.drop s.inp.pos) = none →
        t.inp.pos = s.inp.pos + (b.drop s.inp.pos).length ∧ t.inp.rsp = some .endOfData ∧
        t.trace = s.trace ++ (b.drop s.inp.pos).map (fun x => .readBit (some x)) ++ [.readBit none]))

/-! ### The other phases of COMPRESS, CLOSE -/

/-- R151, R152: C_MARK writes the marker, C_REWIND rewinds IN. -/
def Obligations.MarkerPhaseWritesAndRewindPhaseRewinds : Prop :=
  ∀ s : State,
    exec .cMark s = .next { s with
      phase := .cHdr
      out := { s.out with bits := s.out.bits ++ bits 32 s.marker.toNat }
      trace := s.trace ++ [.writeBits 32 s.marker.toNat] } ∧
    exec .cRewind s = .next { s with
      phase := .cEnc
      inp := { s.inp with pos := 0, rsp := some .ack }
      trace := s.trace ++ [.reset] }

/-- R153: ENCODE writes the code of every byte left, in order, alternating read and write, reads `END` and goes to
C_TERM, when every byte has a code; `sym` holds the last byte looked up. -/
def Obligations.EncodeWritesTheCodeOfEveryByte : Prop :=
  ∀ (s : State) (x : List Byte),
    s.inp.data.asBytes s.inp.pos = some x → s.inp.pos ≤ x.length →
    (∀ b ∈ x.drop s.inp.pos, (s.codeOfByte b).valid = true) →
    exec .encode s = .next { s with
      phase := .cTerm
      regs := { s.regs with
        sym := match (x.drop s.inp.pos).getLast? with
          | some b => b.setWidth 9
          | none => s.regs.sym }
      inp := { s.inp with data := .bytes x, pos := x.length, rsp := some .endOfData }
      out := { s.out with
        bits := s.out.bits ++ (x.drop s.inp.pos).flatMap fun b => (s.codeOfByte b).toBits }
      trace := s.trace ++
        ((x.drop s.inp.pos).flatMap fun b =>
          [.readByte (some b), .writeBits (s.codeOfByte b).len.toNat (s.codeOfByte b).bits.toNat]) ++
        [.readByte none] }

/-- R241, U6: a byte with no code ends the run, "a fault of the environment" (notes/assumptions/20.md). -/
def Obligations.EncodeStopsAtAByteWithoutACode : Prop :=
  ∀ (s : State) (x : List Byte),
    s.inp.data.asBytes s.inp.pos = some x → (∃ b ∈ x.drop s.inp.pos, (s.codeOfByte b).valid = false) →
    exec .encode s = .fault .uncodedByte

/-- R154, R155, R205: C_TERM writes `code[256]`; CLOSE closes OUT, sets `done`, clears `busy`, keeps `err` and goes to
IDLE, whether or not an error was raised. -/
def Obligations.TerminatorIsWrittenAndCloseEndsTheCommand : Prop :=
  ∀ (s : State) (e : CodeEntry), s.codeAt 256 = some e →
    exec .cTerm s = .next { s with
      phase := .close
      out := { s.out with bits := s.out.bits ++ e.toBits }
      trace := s.trace ++ [.writeBits e.len.toNat e.bits.toNat] } ∧
    exec .closePhase s = .next { s with
      phase := .idle
      flags := { busy := false, done := true, err := s.flags.err }
      out := { s.out with closed := true }
      trace := s.trace ++ [.close] }

/-! ### DECOMPRESS -/

/-- R166, R201: D_MARK takes 32 bits, most significant first, and compares all of them with MARKER: equal, and the header
follows; different, FormatError. Fewer than 32 bits: FormatError, all of them consumed. Nothing is written. -/
def Obligations.DMarkAcceptsExactlyTheMarker : Prop :=
  ∀ (s : State) (b : Bits), s.inp.data.asBits s.inp.pos = some b → s.inp.pos ≤ b.length → ∃ t : State,
    exec .dMark s = .next t ∧
    t = { s with
      phase := t.phase
      flags := t.flags
      regs := { s.regs with acc := t.regs.acc, bitcnt := t.regs.bitcnt }
      inp := { s.inp with data := .bits b, pos := min (s.inp.pos + 32) b.length, rsp := t.inp.rsp }
      trace := t.trace } ∧
    (s.inp.pos + 32 ≤ b.length →
      t.regs.acc.toNat = val ((b.drop s.inp.pos).take 32) ∧ t.regs.bitcnt = 0 ∧
      t.trace = s.trace ++ ((b.drop s.inp.pos).take 32).map (fun x => .readBit (some x)) ∧
      (t.regs.acc = s.marker → t.phase = .dHdr ∧ t.flags = s.flags) ∧
      (t.regs.acc ≠ s.marker → t.phase = .close ∧ t.flags = { s.flags with err := .format })) ∧
    (b.length < s.inp.pos + 32 →
      t.phase = .close ∧ t.flags = { s.flags with err := .format } ∧
      t.trace = s.trace ++ (b.drop s.inp.pos).map (fun x => .readBit (some x)) ++ [.readBit none])

/-- R168 to R172, R174: the walk's transition table, for WALK from the root and WALK_INT from `cur`. `n` is the node the
move lands on. That the trace has a write's value whole for a leaf above 256 is the model's choice
(notes/assumptions/35.md). -/
def Obligations.WalkFollowsItsTransitionTable : Prop :=
  ∀ (s : State) (b : Bits) (i : Instr) (cur : Idx),
    (i = .walk ∧ cur = s.regs.root) ∨ (i = .walkInt ∧ cur = s.regs.cur) →
    s.inp.data.asBits s.inp.pos = some b →
    (b.drop s.inp.pos = [] →
      exec i s = .next { s with
        phase := .close
        flags := { s.flags with err := .truncatedBody }
        regs := { s.regs with cur := cur }
        inp := { s.inp with data := .bits b, rsp := some .endOfData }
        trace := s.trace ++ [.readBit none] }) ∧
    (∀ (x : Bool) (n : Idx), b[s.inp.pos]? = some x →
      (∃ w l r, s.nodeAt cur = some (.inner w l r) ∧ n = if x then r else l) ∨
        (∃ y w, s.nodeAt cur = some (.leaf y w) ∧ n = cur) →
      (∀ w l r, s.nodeAt n = some (.inner w l r) →
        exec i s = .next { s with
          phase := .dInt
          regs := { s.regs with cur := n }
          inp := { s.inp with data := .bits b, pos := s.inp.pos + 1, rsp := some (.bit x) }
          trace := s.trace ++ [.readBit (some x)] }) ∧
      (∀ y w, s.nodeAt n = some (.leaf y w) → y ≠ 256 →
        exec i s = .next { s with
          phase := .dRoot
          regs := { s.regs with cur := s.regs.root }
          inp := { s.inp with data := .bits b, pos := s.inp.pos + 1, rsp := some (.bit x) }
          out := { s.out with bits := s.out.bits ++ bits 8 (y.toNat % 256) }
          trace := s.trace ++ [.readBit (some x), .writeBits 8 y.toNat] }) ∧
      (∀ w, s.nodeAt n = some (.leaf 256 w) →
        exec i s = .next { s with
          phase := .close
          regs := { s.regs with cur := n }
          inp := { s.inp with data := .bits b, pos := s.inp.pos + 1, rsp := some (.bit x) }
          trace := s.trace ++ [.readBit (some x)] }))

/-! ### The wire tokens -/

/-- R81 to R84: in a phase of COMPRESS a token is written: exactly its bits are appended to OUT. That a token has an
effect of its own in these phases is the model's reading (notes/assumptions/17.md). -/
def Obligations.TokensAreWrittenAsTheirBits : Prop :=
  ∀ (s : State) (i : Instr), s.phase.compressing = true → i.WellFormed →
    i.format = .marker ∨ i.format = .header ∨ i.format = .code ∨ i.format = .terminator →
    ∃ new : List Txn,
      exec i s = .next { s with
        out := { s.out with bits := s.out.bits ++ encode i }
        trace := s.trace ++ new } ∧
      (new.flatMap fun x => match x with
        | .writeBits w v => bits w v
        | _ => []) = encode i

/-- R81, R87, R166: the token M is taken into `acc` and compared; where IN holds its bits, it does what D_MARK does.That a
token has an effect of its own is the model's reading (notes/assumptions/17.md). -/
def Obligations.MarkerTokenIsChecked : Prop :=
  ∀ (s : State) (m : BitVec 32) (b : Bits),
    s.phase.compressing = false → s.inp.data.asBits s.inp.pos = some b →
    (∃ t : State, exec (.m m) s = .next t ∧
      t = { s with
        phase := t.phase
        flags := t.flags
        regs := { s.regs with acc := m, bitcnt := 0 }
        inp := { s.inp with data := .bits b, pos := s.inp.pos + 32, rsp := t.inp.rsp }
        trace := s.trace ++ (bits 32 m.toNat).map fun x => .readBit (some x) } ∧
      (m = s.marker → t.phase = .dHdr ∧ t.flags = s.flags) ∧
      (m ≠ s.marker → t.phase = .close ∧ t.flags = { s.flags with err := .format })) ∧
    (bits 32 m.toNat <+: b.drop s.inp.pos → exec (.m m) s = exec .dMark s)

/-- R82, R140, R142: the token N reserves the next node and puts it on the traversal stack to wait for its left subtree;
with the store full it raises CorruptHeaderError and takes nothing. That a token has an effect of its own is the model's
reading (notes/assumptions/17.md), and so are the visit state 0 and what is pushed (notes/assumptions/34.md), the store
full at `nnodes` above `NODE_CAP` too (notes/assumptions/32.md), and the push beside `NODE_CAP` entries or more, with
`sp` modulo 2^10 (notes/assumptions/40.md). -/
def Obligations.NodeTokenReservesANode : Prop :=
  ∀ (s : State) (b : Bits),
    s.phase.compressing = false → s.inp.data.asBits s.inp.pos = some b →
    (s.regs.nnodes.toNat < 513 →
      exec .n s = .next { s with
        regs := { s.regs with nnodes := s.regs.nnodes + 1, sp := BitVec.ofNat 10 (s.stk.length + 1) }
        stk := (s.regs.nnodes, 0) :: s.stk
        inp := { s.inp with data := .bits b, pos := s.inp.pos + 1, rsp := some (.bit false) }
        trace := s.trace ++ [.readBit (some false)] }) ∧
    (513 ≤ s.regs.nnodes.toNat →
      exec .n s = .next { s with
        phase := .close
        flags := { s.flags with err := .corruptHeader }
        inp := { s.inp with data := .bits b } })

/-- R83, R140, R142 to R144: the token L makes the next node a leaf of its symbol, whatever its nine bits. The open nodes
`es` that wait for their right subtree, innermost first, are completed by it, each the right child of the next: their
entries are written, the left child being the node after. Then the next open node, which waited for its left subtree,
waits for its right one; or, with none left, the header is complete and its root is the last node completed, or the leaf
itself. With the store full, CorruptHeaderError. That a token has an effect of its own is the model's reading
(notes/assumptions/17.md), and so are the visit states (notes/assumptions/34.md), what `acc` and `bitcnt` hold after
the field (R28, R61, R231, notes/assumptions/26.md), and that an open node the store has no entry for completes without
a write (notes/assumptions/37.md), the store is full at `nnodes` above `NODE_CAP` too (notes/assumptions/32.md), and
`sp` is the depth modulo 2^10 (notes/assumptions/40.md). -/
def Obligations.LeafTokenMakesALeaf : Prop :=
  ∀ (s : State) (y : Sym) (b : Bits),
    s.phase.compressing = false → s.inp.data.asBits s.inp.pos = some b →
    (s.regs.nnodes.toNat < 513 → (∀ e ∈ s.stk, e.1 ≠ s.regs.nnodes) →
      ∃ t : State, exec (.l y) s = .next t ∧
        t = { s with
          phase := t.phase
          regs := { s.regs with
            acc := y.setWidth 32, bitcnt := 0, nnodes := s.regs.nnodes + 1
            root := t.regs.root, cur := t.regs.cur, sp := BitVec.ofNat 10 t.stk.length }
          node := t.node
          stk := t.stk
          inp := { s.inp with data := .bits b, pos := s.inp.pos + 10, rsp := t.inp.rsp }
          trace := s.trace ++ (true :: bits 9 y.toNat).map fun x => .readBit (some x)
          freeCtr := t.freeCtr } ∧
        (∃ w, t.nodeAt s.regs.nnodes = some (.leaf y w)) ∧
        ∀ es st : List (Idx × BitVec 2), s.stk = es ++ st → (∀ e ∈ es, e.2 ≠ 0) → (∀ e ∈ st.head?, e.2 = 0) →
          (∀ k, k ≠ s.regs.nnodes → (∀ e ∈ es, e.1 ≠ k) → t.nodeAt k = s.nodeAt k) ∧
          ((es.map Prod.fst).Nodup → ∀ (n : Nat) (j i : Idx), j.toNat < 513 →
            (es.map Prod.fst)[n]? = some j → (s.regs.nnodes :: es.map Prod.fst)[n]? = some i →
            ∃ w, t.nodeAt j = some (.inner w (j + 1) i)) ∧
          (∀ j st', st = (j, 0) :: st' →
            t.stk = (j, 1) :: st' ∧ t.phase = s.phase ∧ t.regs.root = s.regs.root ∧ t.regs.cur = s.regs.cur) ∧
          (st = [] →
            t.stk = [] ∧ t.phase = .dRoot ∧ t.regs.root = (es.map Prod.fst).getLastD s.regs.nnodes ∧
            t.regs.cur = t.regs.root)) ∧
    (513 ≤ s.regs.nnodes.toNat →
      exec (.l y) s = .next { s with
        phase := .close
        flags := { s.flags with err := .corruptHeader }
        inp := { s.inp with data := .bits b } })

/-- R84, R86 (c), R168, R171: the code of a leaf, as the token C or T, is walked from the root to that leaf: its byte is
written and the walk is back at the root; the leaf of 256 stops the walk and writes nothing. That a token has an effect
of its own is the model's reading (notes/assumptions/17.md), and so is that the trace has a write's value whole for a
leaf above 256 (notes/assumptions/35.md). -/
def Obligations.CodeTokenWalksToItsLeaf : Prop :=
  ∀ (s : State) (b : Bits) (tree : CodeTree) (y : Sym) (p : Bits) (i : Instr),
    s.phase.compressing = false → s.inp.data.asBits s.inp.pos = some b →
    s.treeAt Config.nodeCap s.regs.root = some tree → (y, p) ∈ tree.codes → i = .c p ∨ i = .t p →
    (y ≠ 256 →
      exec i s = .next { s with
        phase := .dRoot
        regs := { s.regs with cur := s.regs.root }
        inp := { s.inp with data := .bits b, pos := s.inp.pos + p.length, rsp := p.getLast?.map .bit }
        out := { s.out with bits := s.out.bits ++ bits 8 (y.toNat % 256) }
        trace := s.trace ++ p.map (fun x => .readBit (some x)) ++ [.writeBits 8 y.toNat] }) ∧
    (y = 256 →
      ∃ n w, s.nodeAt n = some (.leaf 256 w) ∧
        exec i s = .next { s with
          phase := .close
          regs := { s.regs with cur := n }
          inp := { s.inp with data := .bits b, pos := s.inp.pos + p.length, rsp := p.getLast?.map .bit }
          trace := s.trace ++ p.map fun x => .readBit (some x) })

/-! ### The whole machine -/

/-- R9, R234 (d): MARKER is "fixed for the block". -/
def Obligations.NoStepChangesTheMarker : Prop := ∀ s t : State, step s = .next t → t.marker = s.marker

/-- R53, R58, R12: no step removes or rewrites a bit of OUT; what it appends is what the `writeBits` transactions it issues
write, and the transactions of before stay as they are. -/
def Obligations.OutIsAppendOnlyAndTheTraceExplainsIt : Prop :=
  ∀ s t : State, step s = .next t → ∃ new : List Txn,
    t.trace = s.trace ++ new ∧
    t.out.bits = s.out.bits ++ new.flatMap (fun x => match x with
      | .writeBits w v => bits w v
      | _ => []) ∧
    (s.out.closed = true ∨ Txn.close ∈ new ↔ t.out.closed = true)

/-- R26, R27: `phase` changes only as the table's last column allows. -/
def Obligations.PhaseMovesOnlyAsTheTableAllows : Prop :=
  ∀ s t : State, s.Quiet → step s = .next t →
    match s.phase with
    | .idle => t.phase = .idle ∨ t.phase = .cCount ∨ t.phase = .dMark
    | .cCount => t.phase = .cBuild
    | .cBuild => t.phase = .cGen
    | .cGen => t.phase = .cMark
    | .cMark => t.phase = .cHdr
    | .cHdr => t.phase = .cRewind
    | .cRewind => t.phase = .cEnc
    | .cEnc => t.phase = .cTerm
    | .cTerm => t.phase = .close
    | .dMark => t.phase = .dHdr ∨ (t.phase = .close ∧ t.flags.err = .format)
    | .dHdr => t.phase = .dRoot ∨ (t.phase = .close ∧ t.flags.err = .corruptHeader)
    | .dRoot | .dInt =>
      t.phase = .dInt ∨ t.phase = .dRoot ∨
        (t.phase = .close ∧ (t.flags = s.flags ∨ t.flags = { s.flags with err := .truncatedBody }))
    | .close => t.phase = .idle

/-- R158, R200 to R204, R210: `err` changes only where its kind is raised, or is cleared by accepting a command; no phase
of COMPRESS changes it. -/
def Obligations.EachErrorIsRaisedOnlyInItsPhase : Prop :=
  ∀ s t : State, step s = .next t →
    (s.phase.compressing = true → t.flags.err = s.flags.err) ∧
    (t.flags.err ≠ s.flags.err →
      (s.phase = .idle ∧ t.flags.err = .none) ∨ (s.phase = .dMark ∧ t.flags.err = .format) ∨
      (s.phase = .dHdr ∧ t.flags.err = .corruptHeader) ∨
      ((s.phase = .dRoot ∨ s.phase = .dInt) ∧ t.flags.err = .truncatedBody))

/-- Every step keeps the invariant of the flags, the registers' ranges, the empty structures and the read position. -/
def Obligations.EveryStepKeepsTheInvariant : Prop := ∀ s t : State, s.Inv → step s = .next t → t.Inv

/-- Every step keeps the trees the phases rely on. -/
def Obligations.EveryStepKeepsTheTrees : Prop := ∀ s t : State, s.TreeInv → step s = .next t → t.TreeInv

/-- R16, R168: with the trees in place no step leaves the node store, the code table or the traversal's bounds: "the walk
is never stuck". -/
def Obligations.NoStepMeetsAMissingNode : Prop :=
  ∀ s : State, s.TreeInv →
    step s ≠ .fault .noSuchNode ∧ step s ≠ .fault .noSuchSymbol ∧ step s ≠ .fault .traversalTooDeep

/-! ### Whole commands -/

/-- R150, R156, R158, R159: COMPRESS of any input, from any state that can start a command, ends after its ten steps with
success and OUT holding `Compress(X)`: marker, serialized tree, the code of every byte, the code of 256. `freq` holds the
counts of the input; the tree is the one BUILD makes of any table of these counts, and its leaves are the bytes that
occur, and 256. -/
def Obligations.CompressComputesItsFunction : Prop :=
  ∀ (s : State) (x : List Byte), s.Ready → ∃ (t : State) (tree : CodeTree),
    core.run 10 ((s.provide (.bytes x)).offer opCompress) = .next t ∧
    t.phase = .idle ∧ t.flags = { busy := false, done := true, err := .none } ∧ t.out.closed = true ∧
    (∀ b : Byte, (t.freqOf b.toNat).toNat = min (x.count b) (2 ^ 32 - 1)) ∧ t.freqOf 256 = 1 ∧
    (∀ c : State, (∀ b : Byte, (c.freqOf b.toNat).toNat = min (x.count b) (2 ^ 32 - 1)) → c.freqOf 256 = 1 →
      ∃ u : State, exec .build c = .next u ∧ u.treeAt (Config.codeMax + 1) u.regs.root = some tree) ∧
    t.treeAt (Config.codeMax + 1) t.regs.root = some tree ∧ tree.Proper ∧ (∀ b : Byte, b.setWidth 9 ∈ tree.leaves ↔ b ∈ x) ∧
    t.out.bits = bits 32 s.marker.toNat ++ tree.ser ++ (x.flatMap fun b => tree.codeOf (b.setWidth 9)) ++
      tree.codeOf 256 ∧
    t.trace = s.trace ++ (x.map fun b => .readByte (some b)) ++ [.readByte none] ++
      [.writeBits 32 s.marker.toNat] ++ tree.writes ++ [.reset] ++
      (x.flatMap fun b => [.readByte (some b),
        .writeBits (tree.codeOf (b.setWidth 9)).length (val (tree.codeOf (b.setWidth 9)))]) ++
      [.readByte none, .writeBits (tree.codeOf 256).length (val (tree.codeOf 256)), .close]

/-- R160: COMPRESS of the empty input, its 43 bits and its trace. -/
def Obligations.CompressOfTheEmptyInput : Prop :=
  ∀ s : State, s.Ready → ∃ t : State,
    core.run 10 ((s.provide (.bytes [])).offer opCompress) = .next t ∧
    t.out.bits = bits 32 s.marker.toNat ++
      [true, true, false, false, false, false, false, false, false, false] ++ [false] ∧
    t.out.bits.length = 43 ∧
    t.trace = s.trace ++ [.readByte none, .writeBits 32 s.marker.toNat, .writeBits 1 1, .writeBits 9 256, .reset,
      .readByte none, .writeBits 1 0, .close]

/-- R177, R178: DECOMPRESS of any bits, from any state that can start a command, ends with the bytes and the error kind of
`Decompress(B)`, OUT closed, and its transactions are those of R178, of a write's value the bits that are written: one
`readBit` per bit consumed, in order, the write of a byte right after its read, no read after the terminator (R176),
`close()` last. The bits read are the first ones of `B`, up to the read position. -/
def Obligations.DecompressComputesItsFunction : Prop :=
  ∀ (s : State) (b : Bits), s.Ready → ∃ (k : Nat) (t : State),
    core.run k ((s.provide (.bits b)).offer opDecompress) = .next t ∧
    t.phase = .idle ∧
    t.flags = { busy := false, done := true, err := (decompressBits s.marker b).2 } ∧
    t.out.bits = unpackBytes (decompressBits s.marker b).1 ∧ t.out.closed = true ∧
    (∃ new : List Txn, t.trace = s.trace ++ new ∧ new.map Txn.lowBits = decompressTrace s.marker b) ∧
    t.inp.pos ≤ b.length ∧
    ((decompressTrace s.marker b).filterMap fun x => match x with
      | .readBit r => r
      | _ => none) = b.take t.inp.pos

/-- R185, R176: decompressing what COMPRESS wrote, whatever bits follow it, gives the input back. -/
def Obligations.DecompressInvertsCompress : Prop :=
  ∀ (s : State) (x : List Byte) (u : Bits), s.Ready → ∃ t : State,
    core.run 10 ((s.provide (.bytes x)).offer opCompress) = .next t ∧
    ∃ (k : Nat) (r : State),
      core.run k ((t.provide (.bits (t.out.bits ++ u))).offer opDecompress) = .next r ∧
      r.phase = .idle ∧ r.flags = { busy := false, done := true, err := .none } ∧
      r.out.bits = unpackBytes x ∧ r.out.closed = true

/-- R187: the same through a byte medium. -/
def Obligations.RoundTripThroughAByteMedium : Prop :=
  ∀ (s : State) (x : List Byte), s.Ready → ∃ t : State,
    core.run 10 ((s.provide (.bytes x)).offer opCompress) = .next t ∧
    ∃ (k : Nat) (r : State),
      core.run k ((t.provide (.bytes t.out.medium)).offer opDecompress) = .next r ∧
      r.phase = .idle ∧ r.flags = { busy := false, done := true, err := .none } ∧ r.out.medium = x ∧
      r.out.closed = true

/-- R191, R201: a stream whose first 32 bits are not MARKER, or that has fewer, ends in FormatError with OUT empty and
closed. -/
def Obligations.WrongMarkerIsAlwaysFormatError : Prop :=
  ∀ (s : State) (b : Bits), s.Ready → b.take 32 ≠ bits 32 s.marker.toNat → ∃ t : State,
    core.run 3 ((s.provide (.bits b)).offer opDecompress) = .next t ∧
    t.phase = .idle ∧ t.flags = { busy := false, done := true, err := .format } ∧
    t.out.bits = [] ∧ t.out.closed = true

/-- R25, R195, R231, R232: what a command leaves in the tables and registers reaches nothing the next COMPRESS does: from
any two states that can start a command, with the same MARKER, the same input gives the same transactions and the same
output. -/
def Obligations.NothingIsCarriedIntoTheNextCompress : Prop :=
  ∀ (s1 s2 : State) (x : List Byte), s1.Ready → s2.Ready → s1.marker = s2.marker →
    ∃ (t1 t2 : State) (new : List Txn),
      core.run 10 ((s1.provide (.bytes x)).offer opCompress) = .next t1 ∧
      core.run 10 ((s2.provide (.bytes x)).offer opCompress) = .next t2 ∧
      t1.trace = s1.trace ++ new ∧ t2.trace = s2.trace ++ new ∧
      t1.out.bits = t2.out.bits ∧ t1.flags = t2.flags ∧ t1.freq = t2.freq
end

