-- ==== Sys2Proof/Laws/Bits.lean ====
section
/-!
SUPPORT. The small lemmas of `bits`, `val` and `shiftIn` (00_scope.md R13).
-/

namespace Sys2Proof

@[simp] theorem bits_zero (v : Nat) : bits 0 v = [] := rfl

theorem bits_succ (w v : Nat) : bits (w + 1) v = v.testBit w :: bits w v := rfl

@[simp] theorem bits_length (w v : Nat) : (bits w v).length = w := by
  induction w with
  | zero => rfl
  | succ w ih => simp [bits_succ, ih]

/-- The bit at position `k` of a field of width `w` is bit `w - 1 - k` of its value. -/
theorem bits_getElem? (w v k : Nat) (h : k < w) : (bits w v)[k]? = some (v.testBit (w - 1 - k)) := by
  induction w generalizing k with
  | zero => omega
  | succ w ih =>
    cases k with
    | zero => simp [bits_succ]
    | succ k =>
      have hk := ih k (by omega)
      rw [bits_succ, List.getElem?_cons_succ, hk]
      congr 2
      omega

/-- Only the low `w` bits of a value matter. -/
theorem bits_congr (w v v' : Nat) (h : ∀ k, k < w → v.testBit k = v'.testBit k) : bits w v = bits w v' := by
  induction w with
  | zero => rfl
  | succ w ih => rw [bits_succ, bits_succ, h w (by omega), ih fun k hk => h k (by omega)]

@[simp] theorem val_nil : val [] = 0 := rfl

/-- The digits before a digit count twice as much. -/
theorem val_concat (p : Bits) (b : Bool) : val (p ++ [b]) = 2 * val p + b.toNat := by
  simp [val, shiftIn]

theorem foldl_shiftIn (p : Bits) (a : Nat) : p.foldl shiftIn a = a * 2 ^ p.length + val p := by
  induction p generalizing a with
  | nil => simp
  | cons b p ih =>
    have h1 := ih (shiftIn a b)
    have h2 := ih (shiftIn 0 b)
    simp only [List.foldl_cons, List.length_cons, val] at h1 h2 ⊢
    rw [h1, h2]
    simp only [shiftIn]
    ring

theorem val_cons (b : Bool) (p : Bits) : val (b :: p) = b.toNat * 2 ^ p.length + val p := by
  have h := foldl_shiftIn p (shiftIn 0 b)
  simpa [val, shiftIn] using h

theorem val_append (p q : Bits) : val (p ++ q) = val p * 2 ^ q.length + val q := by
  rw [val, List.foldl_append, foldl_shiftIn]
  rfl

/-- The value of `n` digits is below `2 ^ n`. -/
theorem val_lt (p : Bits) : val p < 2 ^ p.length := by
  induction p with
  | nil => simp
  | cons b p ih =>
    rw [val_cons, List.length_cons, pow_succ]
    cases b <;> simp <;> omega

end Sys2Proof
end

