-- ==== Sys2Proof/Laws/State.lean ====
section
/-!
SUPPORT. One lemma per field per update of State, true by rfl, so that no later proof unfolds a record update.
-/

namespace Sys2Proof.Machine

variable (s : State)

@[simp] theorem State.tookByte_phase (b : Byte) : (s.tookByte b).phase = s.phase := rfl
@[simp] theorem State.tookByte_flags (b : Byte) : (s.tookByte b).flags = s.flags := rfl
@[simp] theorem State.tookByte_regs (b : Byte) : (s.tookByte b).regs = s.regs := rfl
@[simp] theorem State.tookByte_freq (b : Byte) : (s.tookByte b).freq = s.freq := rfl
@[simp] theorem State.tookByte_node (b : Byte) : (s.tookByte b).node = s.node := rfl
@[simp] theorem State.tookByte_pq (b : Byte) : (s.tookByte b).pq = s.pq := rfl
@[simp] theorem State.tookByte_code (b : Byte) : (s.tookByte b).code = s.code := rfl
@[simp] theorem State.tookByte_stk (b : Byte) : (s.tookByte b).stk = s.stk := rfl
@[simp] theorem State.tookByte_marker (b : Byte) : (s.tookByte b).marker = s.marker := rfl
@[simp] theorem State.tookByte_inp (b : Byte) : (s.tookByte b).inp = { s.inp with pos := s.inp.pos + 1, rsp := some (.byte b) } := rfl
@[simp] theorem State.tookByte_out (b : Byte) : (s.tookByte b).out = s.out := rfl
@[simp] theorem State.tookByte_cmd (b : Byte) : (s.tookByte b).cmd = s.cmd := rfl
@[simp] theorem State.tookByte_trace (b : Byte) : (s.tookByte b).trace = s.trace ++ [.readByte (some b)] := rfl
@[simp] theorem State.tookByte_freeCtr (b : Byte) : (s.tookByte b).freeCtr = s.freeCtr := rfl

@[simp] theorem State.sawByteEnd_phase : s.sawByteEnd.phase = s.phase := rfl
@[simp] theorem State.sawByteEnd_flags : s.sawByteEnd.flags = s.flags := rfl
@[simp] theorem State.sawByteEnd_regs : s.sawByteEnd.regs = s.regs := rfl
@[simp] theorem State.sawByteEnd_freq : s.sawByteEnd.freq = s.freq := rfl
@[simp] theorem State.sawByteEnd_node : s.sawByteEnd.node = s.node := rfl
@[simp] theorem State.sawByteEnd_pq : s.sawByteEnd.pq = s.pq := rfl
@[simp] theorem State.sawByteEnd_code : s.sawByteEnd.code = s.code := rfl
@[simp] theorem State.sawByteEnd_stk : s.sawByteEnd.stk = s.stk := rfl
@[simp] theorem State.sawByteEnd_marker : s.sawByteEnd.marker = s.marker := rfl
@[simp] theorem State.sawByteEnd_inp : s.sawByteEnd.inp = { s.inp with rsp := some .endOfData } := rfl
@[simp] theorem State.sawByteEnd_out : s.sawByteEnd.out = s.out := rfl
@[simp] theorem State.sawByteEnd_cmd : s.sawByteEnd.cmd = s.cmd := rfl
@[simp] theorem State.sawByteEnd_trace : s.sawByteEnd.trace = s.trace ++ [.readByte none] := rfl
@[simp] theorem State.sawByteEnd_freeCtr : s.sawByteEnd.freeCtr = s.freeCtr := rfl

@[simp] theorem State.tookBit_phase (b : Bool) : (s.tookBit b).phase = s.phase := rfl
@[simp] theorem State.tookBit_flags (b : Bool) : (s.tookBit b).flags = s.flags := rfl
@[simp] theorem State.tookBit_regs (b : Bool) : (s.tookBit b).regs = s.regs := rfl
@[simp] theorem State.tookBit_freq (b : Bool) : (s.tookBit b).freq = s.freq := rfl
@[simp] theorem State.tookBit_node (b : Bool) : (s.tookBit b).node = s.node := rfl
@[simp] theorem State.tookBit_pq (b : Bool) : (s.tookBit b).pq = s.pq := rfl
@[simp] theorem State.tookBit_code (b : Bool) : (s.tookBit b).code = s.code := rfl
@[simp] theorem State.tookBit_stk (b : Bool) : (s.tookBit b).stk = s.stk := rfl
@[simp] theorem State.tookBit_marker (b : Bool) : (s.tookBit b).marker = s.marker := rfl
@[simp] theorem State.tookBit_inp (b : Bool) : (s.tookBit b).inp = { s.inp with pos := s.inp.pos + 1, rsp := some (.bit b) } := rfl
@[simp] theorem State.tookBit_out (b : Bool) : (s.tookBit b).out = s.out := rfl
@[simp] theorem State.tookBit_cmd (b : Bool) : (s.tookBit b).cmd = s.cmd := rfl
@[simp] theorem State.tookBit_trace (b : Bool) : (s.tookBit b).trace = s.trace ++ [.readBit (some b)] := rfl
@[simp] theorem State.tookBit_freeCtr (b : Bool) : (s.tookBit b).freeCtr = s.freeCtr := rfl

@[simp] theorem State.sawBitEnd_phase : s.sawBitEnd.phase = s.phase := rfl
@[simp] theorem State.sawBitEnd_flags : s.sawBitEnd.flags = s.flags := rfl
@[simp] theorem State.sawBitEnd_regs : s.sawBitEnd.regs = s.regs := rfl
@[simp] theorem State.sawBitEnd_freq : s.sawBitEnd.freq = s.freq := rfl
@[simp] theorem State.sawBitEnd_node : s.sawBitEnd.node = s.node := rfl
@[simp] theorem State.sawBitEnd_pq : s.sawBitEnd.pq = s.pq := rfl
@[simp] theorem State.sawBitEnd_code : s.sawBitEnd.code = s.code := rfl
@[simp] theorem State.sawBitEnd_stk : s.sawBitEnd.stk = s.stk := rfl
@[simp] theorem State.sawBitEnd_marker : s.sawBitEnd.marker = s.marker := rfl
@[simp] theorem State.sawBitEnd_inp : s.sawBitEnd.inp = { s.inp with rsp := some .endOfData } := rfl
@[simp] theorem State.sawBitEnd_out : s.sawBitEnd.out = s.out := rfl
@[simp] theorem State.sawBitEnd_cmd : s.sawBitEnd.cmd = s.cmd := rfl
@[simp] theorem State.sawBitEnd_trace : s.sawBitEnd.trace = s.trace ++ [.readBit none] := rfl
@[simp] theorem State.sawBitEnd_freeCtr : s.sawBitEnd.freeCtr = s.freeCtr := rfl

@[simp] theorem State.rewind_phase : s.rewind.phase = s.phase := rfl
@[simp] theorem State.rewind_flags : s.rewind.flags = s.flags := rfl
@[simp] theorem State.rewind_regs : s.rewind.regs = s.regs := rfl
@[simp] theorem State.rewind_freq : s.rewind.freq = s.freq := rfl
@[simp] theorem State.rewind_node : s.rewind.node = s.node := rfl
@[simp] theorem State.rewind_pq : s.rewind.pq = s.pq := rfl
@[simp] theorem State.rewind_code : s.rewind.code = s.code := rfl
@[simp] theorem State.rewind_stk : s.rewind.stk = s.stk := rfl
@[simp] theorem State.rewind_marker : s.rewind.marker = s.marker := rfl
@[simp] theorem State.rewind_inp : s.rewind.inp = { s.inp with pos := 0, rsp := some .ack } := rfl
@[simp] theorem State.rewind_out : s.rewind.out = s.out := rfl
@[simp] theorem State.rewind_cmd : s.rewind.cmd = s.cmd := rfl
@[simp] theorem State.rewind_trace : s.rewind.trace = s.trace ++ [.reset] := rfl
@[simp] theorem State.rewind_freeCtr : s.rewind.freeCtr = s.freeCtr := rfl

@[simp] theorem State.writeBits_phase (w v : Nat) : (s.writeBits w v).phase = s.phase := rfl
@[simp] theorem State.writeBits_flags (w v : Nat) : (s.writeBits w v).flags = s.flags := rfl
@[simp] theorem State.writeBits_regs (w v : Nat) : (s.writeBits w v).regs = s.regs := rfl
@[simp] theorem State.writeBits_freq (w v : Nat) : (s.writeBits w v).freq = s.freq := rfl
@[simp] theorem State.writeBits_node (w v : Nat) : (s.writeBits w v).node = s.node := rfl
@[simp] theorem State.writeBits_pq (w v : Nat) : (s.writeBits w v).pq = s.pq := rfl
@[simp] theorem State.writeBits_code (w v : Nat) : (s.writeBits w v).code = s.code := rfl
@[simp] theorem State.writeBits_stk (w v : Nat) : (s.writeBits w v).stk = s.stk := rfl
@[simp] theorem State.writeBits_marker (w v : Nat) : (s.writeBits w v).marker = s.marker := rfl
@[simp] theorem State.writeBits_inp (w v : Nat) : (s.writeBits w v).inp = s.inp := rfl
@[simp] theorem State.writeBits_out (w v : Nat) : (s.writeBits w v).out = { s.out with bits := s.out.bits ++ bits w v } := rfl
@[simp] theorem State.writeBits_cmd (w v : Nat) : (s.writeBits w v).cmd = s.cmd := rfl
@[simp] theorem State.writeBits_trace (w v : Nat) : (s.writeBits w v).trace = s.trace ++ [.writeBits w v] := rfl
@[simp] theorem State.writeBits_freeCtr (w v : Nat) : (s.writeBits w v).freeCtr = s.freeCtr := rfl

@[simp] theorem State.closeOut_phase : s.closeOut.phase = s.phase := rfl
@[simp] theorem State.closeOut_flags : s.closeOut.flags = s.flags := rfl
@[simp] theorem State.closeOut_regs : s.closeOut.regs = s.regs := rfl
@[simp] theorem State.closeOut_freq : s.closeOut.freq = s.freq := rfl
@[simp] theorem State.closeOut_node : s.closeOut.node = s.node := rfl
@[simp] theorem State.closeOut_pq : s.closeOut.pq = s.pq := rfl
@[simp] theorem State.closeOut_code : s.closeOut.code = s.code := rfl
@[simp] theorem State.closeOut_stk : s.closeOut.stk = s.stk := rfl
@[simp] theorem State.closeOut_marker : s.closeOut.marker = s.marker := rfl
@[simp] theorem State.closeOut_inp : s.closeOut.inp = s.inp := rfl
@[simp] theorem State.closeOut_out : s.closeOut.out = { s.out with closed := true } := rfl
@[simp] theorem State.closeOut_cmd : s.closeOut.cmd = s.cmd := rfl
@[simp] theorem State.closeOut_trace : s.closeOut.trace = s.trace ++ [.close] := rfl
@[simp] theorem State.closeOut_freeCtr : s.closeOut.freeCtr = s.freeCtr := rfl

@[simp] theorem State.setPhase_phase (p : Phase) : (s.setPhase p).phase = p := rfl
@[simp] theorem State.setPhase_flags (p : Phase) : (s.setPhase p).flags = s.flags := rfl
@[simp] theorem State.setPhase_regs (p : Phase) : (s.setPhase p).regs = s.regs := rfl
@[simp] theorem State.setPhase_freq (p : Phase) : (s.setPhase p).freq = s.freq := rfl
@[simp] theorem State.setPhase_node (p : Phase) : (s.setPhase p).node = s.node := rfl
@[simp] theorem State.setPhase_pq (p : Phase) : (s.setPhase p).pq = s.pq := rfl
@[simp] theorem State.setPhase_code (p : Phase) : (s.setPhase p).code = s.code := rfl
@[simp] theorem State.setPhase_stk (p : Phase) : (s.setPhase p).stk = s.stk := rfl
@[simp] theorem State.setPhase_marker (p : Phase) : (s.setPhase p).marker = s.marker := rfl
@[simp] theorem State.setPhase_inp (p : Phase) : (s.setPhase p).inp = s.inp := rfl
@[simp] theorem State.setPhase_out (p : Phase) : (s.setPhase p).out = s.out := rfl
@[simp] theorem State.setPhase_cmd (p : Phase) : (s.setPhase p).cmd = s.cmd := rfl
@[simp] theorem State.setPhase_trace (p : Phase) : (s.setPhase p).trace = s.trace := rfl
@[simp] theorem State.setPhase_freeCtr (p : Phase) : (s.setPhase p).freeCtr = s.freeCtr := rfl

@[simp] theorem State.accept_phase (p : Phase) : (s.accept p).phase = p := rfl
@[simp] theorem State.accept_flags (p : Phase) : (s.accept p).flags = flagsAccepted := rfl
@[simp] theorem State.accept_regs (p : Phase) : (s.accept p).regs = { s.regs with nnodes := 0 } := rfl
@[simp] theorem State.accept_freq (p : Phase) : (s.accept p).freq = s.freq := rfl
@[simp] theorem State.accept_node (p : Phase) : (s.accept p).node = s.node := rfl
@[simp] theorem State.accept_pq (p : Phase) : (s.accept p).pq = s.pq := rfl
@[simp] theorem State.accept_code (p : Phase) : (s.accept p).code = s.code := rfl
@[simp] theorem State.accept_stk (p : Phase) : (s.accept p).stk = s.stk := rfl
@[simp] theorem State.accept_marker (p : Phase) : (s.accept p).marker = s.marker := rfl
@[simp] theorem State.accept_inp (p : Phase) : (s.accept p).inp = s.inp := rfl
@[simp] theorem State.accept_out (p : Phase) : (s.accept p).out = s.out := rfl
@[simp] theorem State.accept_cmd (p : Phase) : (s.accept p).cmd = s.cmd := rfl
@[simp] theorem State.accept_trace (p : Phase) : (s.accept p).trace = s.trace := rfl
@[simp] theorem State.accept_freeCtr (p : Phase) : (s.accept p).freeCtr = s.freeCtr := rfl

@[simp] theorem State.raise_phase (e : ErrKind) : (s.raise e).phase = .close := rfl
@[simp] theorem State.raise_flags (e : ErrKind) : (s.raise e).flags = s.flags.raised e := rfl
@[simp] theorem State.raise_regs (e : ErrKind) : (s.raise e).regs = s.regs := rfl
@[simp] theorem State.raise_freq (e : ErrKind) : (s.raise e).freq = s.freq := rfl
@[simp] theorem State.raise_node (e : ErrKind) : (s.raise e).node = s.node := rfl
@[simp] theorem State.raise_pq (e : ErrKind) : (s.raise e).pq = s.pq := rfl
@[simp] theorem State.raise_code (e : ErrKind) : (s.raise e).code = s.code := rfl
@[simp] theorem State.raise_stk (e : ErrKind) : (s.raise e).stk = s.stk := rfl
@[simp] theorem State.raise_marker (e : ErrKind) : (s.raise e).marker = s.marker := rfl
@[simp] theorem State.raise_inp (e : ErrKind) : (s.raise e).inp = s.inp := rfl
@[simp] theorem State.raise_out (e : ErrKind) : (s.raise e).out = s.out := rfl
@[simp] theorem State.raise_cmd (e : ErrKind) : (s.raise e).cmd = s.cmd := rfl
@[simp] theorem State.raise_trace (e : ErrKind) : (s.raise e).trace = s.trace := rfl
@[simp] theorem State.raise_freeCtr (e : ErrKind) : (s.raise e).freeCtr = s.freeCtr := rfl

@[simp] theorem State.finish_phase : s.finish.phase = .idle := rfl
@[simp] theorem State.finish_flags : s.finish.flags = s.flags.finished := rfl
@[simp] theorem State.finish_regs : s.finish.regs = s.regs := rfl
@[simp] theorem State.finish_freq : s.finish.freq = s.freq := rfl
@[simp] theorem State.finish_node : s.finish.node = s.node := rfl
@[simp] theorem State.finish_pq : s.finish.pq = s.pq := rfl
@[simp] theorem State.finish_code : s.finish.code = s.code := rfl
@[simp] theorem State.finish_stk : s.finish.stk = s.stk := rfl
@[simp] theorem State.finish_marker : s.finish.marker = s.marker := rfl
@[simp] theorem State.finish_inp : s.finish.inp = s.inp := rfl
@[simp] theorem State.finish_out : s.finish.out = s.out := rfl
@[simp] theorem State.finish_cmd : s.finish.cmd = s.cmd := rfl
@[simp] theorem State.finish_trace : s.finish.trace = s.trace := rfl
@[simp] theorem State.finish_freeCtr : s.finish.freeCtr = s.freeCtr := rfl

@[simp] theorem State.setNode_phase (i : Idx) (v : Node) : (s.setNode i v).phase = s.phase := rfl
@[simp] theorem State.setNode_flags (i : Idx) (v : Node) : (s.setNode i v).flags = s.flags := rfl
@[simp] theorem State.setNode_regs (i : Idx) (v : Node) : (s.setNode i v).regs = s.regs := rfl
@[simp] theorem State.setNode_freq (i : Idx) (v : Node) : (s.setNode i v).freq = s.freq := rfl
@[simp] theorem State.setNode_node (i : Idx) (v : Node) : (s.setNode i v).node = s.node.setIfInBounds i.toNat v := rfl
@[simp] theorem State.setNode_pq (i : Idx) (v : Node) : (s.setNode i v).pq = s.pq := rfl
@[simp] theorem State.setNode_code (i : Idx) (v : Node) : (s.setNode i v).code = s.code := rfl
@[simp] theorem State.setNode_stk (i : Idx) (v : Node) : (s.setNode i v).stk = s.stk := rfl
@[simp] theorem State.setNode_marker (i : Idx) (v : Node) : (s.setNode i v).marker = s.marker := rfl
@[simp] theorem State.setNode_inp (i : Idx) (v : Node) : (s.setNode i v).inp = s.inp := rfl
@[simp] theorem State.setNode_out (i : Idx) (v : Node) : (s.setNode i v).out = s.out := rfl
@[simp] theorem State.setNode_cmd (i : Idx) (v : Node) : (s.setNode i v).cmd = s.cmd := rfl
@[simp] theorem State.setNode_trace (i : Idx) (v : Node) : (s.setNode i v).trace = s.trace := rfl
@[simp] theorem State.setNode_freeCtr (i : Idx) (v : Node) : (s.setNode i v).freeCtr = s.freeCtr := rfl

@[simp] theorem State.setFreq_phase (sym : Nat) (v : Count) : (s.setFreq sym v).phase = s.phase := rfl
@[simp] theorem State.setFreq_flags (sym : Nat) (v : Count) : (s.setFreq sym v).flags = s.flags := rfl
@[simp] theorem State.setFreq_regs (sym : Nat) (v : Count) : (s.setFreq sym v).regs = s.regs := rfl
@[simp] theorem State.setFreq_freq (sym : Nat) (v : Count) : (s.setFreq sym v).freq = s.freq.setIfInBounds sym v := rfl
@[simp] theorem State.setFreq_node (sym : Nat) (v : Count) : (s.setFreq sym v).node = s.node := rfl
@[simp] theorem State.setFreq_pq (sym : Nat) (v : Count) : (s.setFreq sym v).pq = s.pq := rfl
@[simp] theorem State.setFreq_code (sym : Nat) (v : Count) : (s.setFreq sym v).code = s.code := rfl
@[simp] theorem State.setFreq_stk (sym : Nat) (v : Count) : (s.setFreq sym v).stk = s.stk := rfl
@[simp] theorem State.setFreq_marker (sym : Nat) (v : Count) : (s.setFreq sym v).marker = s.marker := rfl
@[simp] theorem State.setFreq_inp (sym : Nat) (v : Count) : (s.setFreq sym v).inp = s.inp := rfl
@[simp] theorem State.setFreq_out (sym : Nat) (v : Count) : (s.setFreq sym v).out = s.out := rfl
@[simp] theorem State.setFreq_cmd (sym : Nat) (v : Count) : (s.setFreq sym v).cmd = s.cmd := rfl
@[simp] theorem State.setFreq_trace (sym : Nat) (v : Count) : (s.setFreq sym v).trace = s.trace := rfl
@[simp] theorem State.setFreq_freeCtr (sym : Nat) (v : Count) : (s.setFreq sym v).freeCtr = s.freeCtr := rfl

@[simp] theorem State.setRegs_phase (r : Regs) : (s.setRegs r).phase = s.phase := rfl
@[simp] theorem State.setRegs_flags (r : Regs) : (s.setRegs r).flags = s.flags := rfl
@[simp] theorem State.setRegs_regs (r : Regs) : (s.setRegs r).regs = r := rfl
@[simp] theorem State.setRegs_freq (r : Regs) : (s.setRegs r).freq = s.freq := rfl
@[simp] theorem State.setRegs_node (r : Regs) : (s.setRegs r).node = s.node := rfl
@[simp] theorem State.setRegs_pq (r : Regs) : (s.setRegs r).pq = s.pq := rfl
@[simp] theorem State.setRegs_code (r : Regs) : (s.setRegs r).code = s.code := rfl
@[simp] theorem State.setRegs_stk (r : Regs) : (s.setRegs r).stk = s.stk := rfl
@[simp] theorem State.setRegs_marker (r : Regs) : (s.setRegs r).marker = s.marker := rfl
@[simp] theorem State.setRegs_inp (r : Regs) : (s.setRegs r).inp = s.inp := rfl
@[simp] theorem State.setRegs_out (r : Regs) : (s.setRegs r).out = s.out := rfl
@[simp] theorem State.setRegs_cmd (r : Regs) : (s.setRegs r).cmd = s.cmd := rfl
@[simp] theorem State.setRegs_trace (r : Regs) : (s.setRegs r).trace = s.trace := rfl
@[simp] theorem State.setRegs_freeCtr (r : Regs) : (s.setRegs r).freeCtr = s.freeCtr := rfl

@[simp] theorem State.tookFree_phase : s.tookFree.phase = s.phase := rfl
@[simp] theorem State.tookFree_flags : s.tookFree.flags = s.flags := rfl
@[simp] theorem State.tookFree_regs : s.tookFree.regs = s.regs := rfl
@[simp] theorem State.tookFree_freq : s.tookFree.freq = s.freq := rfl
@[simp] theorem State.tookFree_node : s.tookFree.node = s.node := rfl
@[simp] theorem State.tookFree_pq : s.tookFree.pq = s.pq := rfl
@[simp] theorem State.tookFree_code : s.tookFree.code = s.code := rfl
@[simp] theorem State.tookFree_stk : s.tookFree.stk = s.stk := rfl
@[simp] theorem State.tookFree_marker : s.tookFree.marker = s.marker := rfl
@[simp] theorem State.tookFree_inp : s.tookFree.inp = s.inp := rfl
@[simp] theorem State.tookFree_out : s.tookFree.out = s.out := rfl
@[simp] theorem State.tookFree_cmd : s.tookFree.cmd = s.cmd := rfl
@[simp] theorem State.tookFree_trace : s.tookFree.trace = s.trace := rfl
@[simp] theorem State.tookFree_freeCtr : s.tookFree.freeCtr = s.freeCtr + 1 := rfl

@[simp] theorem State.setStk_phase (st : List (Idx × BitVec 2)) : (s.setStk st).phase = s.phase := rfl
@[simp] theorem State.setStk_flags (st : List (Idx × BitVec 2)) : (s.setStk st).flags = s.flags := rfl
@[simp] theorem State.setStk_regs (st : List (Idx × BitVec 2)) : (s.setStk st).regs = { s.regs with sp := BitVec.ofNat 10 st.length } := rfl
@[simp] theorem State.setStk_freq (st : List (Idx × BitVec 2)) : (s.setStk st).freq = s.freq := rfl
@[simp] theorem State.setStk_node (st : List (Idx × BitVec 2)) : (s.setStk st).node = s.node := rfl
@[simp] theorem State.setStk_pq (st : List (Idx × BitVec 2)) : (s.setStk st).pq = s.pq := rfl
@[simp] theorem State.setStk_code (st : List (Idx × BitVec 2)) : (s.setStk st).code = s.code := rfl
@[simp] theorem State.setStk_stk (st : List (Idx × BitVec 2)) : (s.setStk st).stk = st := rfl
@[simp] theorem State.setStk_marker (st : List (Idx × BitVec 2)) : (s.setStk st).marker = s.marker := rfl
@[simp] theorem State.setStk_inp (st : List (Idx × BitVec 2)) : (s.setStk st).inp = s.inp := rfl
@[simp] theorem State.setStk_out (st : List (Idx × BitVec 2)) : (s.setStk st).out = s.out := rfl
@[simp] theorem State.setStk_cmd (st : List (Idx × BitVec 2)) : (s.setStk st).cmd = s.cmd := rfl
@[simp] theorem State.setStk_trace (st : List (Idx × BitVec 2)) : (s.setStk st).trace = s.trace := rfl
@[simp] theorem State.setStk_freeCtr (st : List (Idx × BitVec 2)) : (s.setStk st).freeCtr = s.freeCtr := rfl

@[simp] theorem State.addNode_phase (v : Node) : (s.addNode v).phase = s.phase := rfl
@[simp] theorem State.addNode_flags (v : Node) : (s.addNode v).flags = s.flags := rfl
@[simp] theorem State.addNode_regs (v : Node) : (s.addNode v).regs = { s.regs with nnodes := s.regs.nnodes + 1 } := rfl
@[simp] theorem State.addNode_freq (v : Node) : (s.addNode v).freq = s.freq := rfl
@[simp] theorem State.addNode_node (v : Node) : (s.addNode v).node = s.node.setIfInBounds s.regs.nnodes.toNat v := rfl
@[simp] theorem State.addNode_pq (v : Node) : (s.addNode v).pq = insertPq (s.setNode s.regs.nnodes v).weightOf s.regs.nnodes s.pq := rfl
@[simp] theorem State.addNode_code (v : Node) : (s.addNode v).code = s.code := rfl
@[simp] theorem State.addNode_stk (v : Node) : (s.addNode v).stk = s.stk := rfl
@[simp] theorem State.addNode_marker (v : Node) : (s.addNode v).marker = s.marker := rfl
@[simp] theorem State.addNode_inp (v : Node) : (s.addNode v).inp = s.inp := rfl
@[simp] theorem State.addNode_out (v : Node) : (s.addNode v).out = s.out := rfl
@[simp] theorem State.addNode_cmd (v : Node) : (s.addNode v).cmd = s.cmd := rfl
@[simp] theorem State.addNode_trace (v : Node) : (s.addNode v).trace = s.trace := rfl
@[simp] theorem State.addNode_freeCtr (v : Node) : (s.addNode v).freeCtr = s.freeCtr := rfl

@[simp] theorem State.provide_phase (d : InData) : (s.provide d).phase = s.phase := rfl
@[simp] theorem State.provide_flags (d : InData) : (s.provide d).flags = s.flags := rfl
@[simp] theorem State.provide_regs (d : InData) : (s.provide d).regs = s.regs := rfl
@[simp] theorem State.provide_freq (d : InData) : (s.provide d).freq = s.freq := rfl
@[simp] theorem State.provide_node (d : InData) : (s.provide d).node = s.node := rfl
@[simp] theorem State.provide_pq (d : InData) : (s.provide d).pq = s.pq := rfl
@[simp] theorem State.provide_code (d : InData) : (s.provide d).code = s.code := rfl
@[simp] theorem State.provide_stk (d : InData) : (s.provide d).stk = s.stk := rfl
@[simp] theorem State.provide_marker (d : InData) : (s.provide d).marker = s.marker := rfl
@[simp] theorem State.provide_inp (d : InData) : (s.provide d).inp = { s.inp with data := d, pos := 0 } := rfl
@[simp] theorem State.provide_out (d : InData) : (s.provide d).out = { s.out with bits := [], closed := false } := rfl
@[simp] theorem State.provide_cmd (d : InData) : (s.provide d).cmd = s.cmd := rfl
@[simp] theorem State.provide_trace (d : InData) : (s.provide d).trace = s.trace := rfl
@[simp] theorem State.provide_freeCtr (d : InData) : (s.provide d).freeCtr = s.freeCtr := rfl

@[simp] theorem State.offer_phase (op : BitVec 2) : (s.offer op).phase = s.phase := rfl
@[simp] theorem State.offer_flags (op : BitVec 2) : (s.offer op).flags = s.flags := rfl
@[simp] theorem State.offer_regs (op : BitVec 2) : (s.offer op).regs = s.regs := rfl
@[simp] theorem State.offer_freq (op : BitVec 2) : (s.offer op).freq = s.freq := rfl
@[simp] theorem State.offer_node (op : BitVec 2) : (s.offer op).node = s.node := rfl
@[simp] theorem State.offer_pq (op : BitVec 2) : (s.offer op).pq = s.pq := rfl
@[simp] theorem State.offer_code (op : BitVec 2) : (s.offer op).code = s.code := rfl
@[simp] theorem State.offer_stk (op : BitVec 2) : (s.offer op).stk = s.stk := rfl
@[simp] theorem State.offer_marker (op : BitVec 2) : (s.offer op).marker = s.marker := rfl
@[simp] theorem State.offer_inp (op : BitVec 2) : (s.offer op).inp = s.inp := rfl
@[simp] theorem State.offer_out (op : BitVec 2) : (s.offer op).out = s.out := rfl
@[simp] theorem State.offer_cmd (op : BitVec 2) : (s.offer op).cmd = some op := rfl
@[simp] theorem State.offer_trace (op : BitVec 2) : (s.offer op).trace = s.trace := rfl
@[simp] theorem State.offer_freeCtr (op : BitVec 2) : (s.offer op).freeCtr = s.freeCtr := rfl

@[simp] theorem State.rst_phase : s.rst.phase = .idle := rfl
@[simp] theorem State.rst_flags : s.rst.flags = { busy := false, done := false, err := .none } := rfl
@[simp] theorem State.rst_regs : s.rst.regs = s.regs := rfl
@[simp] theorem State.rst_freq : s.rst.freq = s.freq := rfl
@[simp] theorem State.rst_node : s.rst.node = s.node := rfl
@[simp] theorem State.rst_pq : s.rst.pq = s.pq := rfl
@[simp] theorem State.rst_code : s.rst.code = s.code := rfl
@[simp] theorem State.rst_stk : s.rst.stk = s.stk := rfl
@[simp] theorem State.rst_marker : s.rst.marker = s.marker := rfl
@[simp] theorem State.rst_inp : s.rst.inp = { s.inp with req := none } := rfl
@[simp] theorem State.rst_out : s.rst.out = { s.out with req := none } := rfl
@[simp] theorem State.rst_cmd : s.rst.cmd = s.cmd := rfl
@[simp] theorem State.rst_trace : s.rst.trace = s.trace := rfl
@[simp] theorem State.rst_freeCtr : s.rst.freeCtr = s.freeCtr := rfl

end Sys2Proof.Machine
end

