-- ==== Sys2Proof/Laws/Ops.lean ====
section
/-!
SUPPORT. What each shared operation can do, said once: `andThen`, the two views of IN, reading a field.
-/

namespace Sys2Proof.Machine

@[simp] theorem andThen_next {α β : Type} (a : α) (k : α → Answer β) : andThen (.next a) k = k a := rfl

@[simp] theorem andThen_fault {α β : Type} (r : Fault) (k : α → Answer β) : andThen (.fault r) k = .fault r := rfl

@[simp] theorem andThen_refused {α β : Type} (r : Refusal) (k : α → Answer β) :
    andThen (.refused r) k = .refused r := rfl

/-- A next answer of a sequence comes from a next answer of its first part. -/
theorem andThen_eq_next {α β : Type} {a : Answer α} {k : α → Answer β} {b : β} (h : andThen a k = .next b) :
    ∃ x, a = .next x ∧ k x = .next b := by
  cases a with
  | next x => exact ⟨x, rfl, h⟩
  | fault r => cases h
  | refused r => cases h

/-- A fault of a sequence is its first part's, or comes after a next answer of it. -/
theorem andThen_eq_fault {α β : Type} {a : Answer α} {k : α → Answer β} {r : Fault} (h : andThen a k = .fault r) :
    a = .fault r ∨ ∃ x, a = .next x ∧ k x = .fault r := by
  cases a with
  | next x => exact .inr ⟨x, rfl, h⟩
  | fault r' => exact .inl (by simpa using h)
  | refused r' => cases h

/-- The view of IN as bits, where it exists. -/
theorem withBits_eq {s : State} {b : Bits} (h : s.inp.data.asBits s.inp.pos = some b) (k : State → Answer State) :
    s.withBits k = k { s with inp := { s.inp with data := .bits b } } := by
  simp [State.withBits, h]

/-- The view of IN as bytes, where it exists. -/
theorem withBytes_eq {s : State} {x : List Byte} (h : s.inp.data.asBytes s.inp.pos = some x)
    (k : State → Answer State) :
    s.withBytes k = k { s with inp := { s.inp with data := .bytes x } } := by
  simp [State.withBytes, h]

/-- Without the view the instruction is refused; with it the rest decides. -/
theorem withBits_cases (s : State) (k : State → Answer State) :
    (s.inp.data.asBits s.inp.pos = none ∧ s.withBits k = .refused .mixedStreamUse) ∨
      ∃ b, s.inp.data.asBits s.inp.pos = some b ∧
        s.withBits k = k { s with inp := { s.inp with data := .bits b } } := by
  cases h : s.inp.data.asBits s.inp.pos with
  | none => exact .inl ⟨rfl, by simp [State.withBits, h]⟩
  | some b => exact .inr ⟨b, rfl, withBits_eq h k⟩

theorem withBytes_cases (s : State) (k : State → Answer State) :
    (s.inp.data.asBytes s.inp.pos = none ∧ s.withBytes k = .refused .mixedStreamUse) ∨
      ∃ x, s.inp.data.asBytes s.inp.pos = some x ∧
        s.withBytes k = k { s with inp := { s.inp with data := .bytes x } } := by
  cases h : s.inp.data.asBytes s.inp.pos with
  | none => exact .inl ⟨rfl, by simp [State.withBytes, h]⟩
  | some x => exact .inr ⟨x, rfl, withBytes_eq h k⟩

@[simp] theorem asBits_bits (b : Bits) (n : Nat) : (InData.bits b).asBits n = some b := by
  cases n <;> rfl

@[simp] theorem asBytes_bytes (x : List Byte) (n : Nat) : (InData.bytes x).asBytes n = some x := by
  cases n <;> rfl

/-- Taking one bit into `acc` touches `acc`, `bitcnt`, IN and the trace alone. -/
theorem takeIntoAcc_eq (s : State) (b : Bool) :
    (s.tookBit b).gatherBit b = { s with
      regs := { s.regs with
        acc := BitVec.ofNat 32 (shiftIn s.regs.acc.toNat b), bitcnt := s.regs.bitcnt - 1 }
      inp := { s.inp with pos := s.inp.pos + 1, rsp := some (.bit b) }
      trace := s.trace ++ [.readBit (some b)] } := rfl

/-- The answer IN shows after the bits `p`, `before` being the one shown before them. -/
def lastBit : Bits → Option Rsp → Option Rsp
  | [], before => before
  | b :: p, _ => lastBit p (some (.bit b))

/-- After at least one bit it is the last bit. -/
theorem lastBit_eq (p : Bits) (before : Option Rsp) (h : p ≠ []) : lastBit p before = p.getLast?.map Rsp.bit := by
  induction p generalizing before with
  | nil => exact absurd rfl h
  | cons b p ih =>
    cases p with
    | nil => rfl
    | cons c p => rw [lastBit, ih _ (by simp), List.getLast?_cons_cons]

/-- What reading `n` bits into `acc` does: it touches `acc`, `bitcnt`, IN's position and answer, and the trace alone, and
answers `true` exactly if there are `n` bits. -/
theorem gather_eq (n : Nat) (bs : Bits) (s : State) :
    gather n bs s = (decide (n ≤ bs.length), { s with
      regs := { s.regs with
        acc := (bs.take n).foldl (fun a b => BitVec.ofNat 32 (shiftIn a.toNat b)) s.regs.acc
        bitcnt := s.regs.bitcnt - BitVec.ofNat 6 (min n bs.length) }
      inp := { s.inp with
        pos := s.inp.pos + min n bs.length
        rsp := if n ≤ bs.length then lastBit (bs.take n) s.inp.rsp else some .endOfData }
      trace := s.trace ++ ((bs.take n).map fun b => .readBit (some b)) ++
        if n ≤ bs.length then [] else [.readBit none] }) := by
  induction n generalizing bs s with
  | zero => simp [gather, lastBit]
  | succ n ih =>
    cases bs with
    | nil => simp [gather, State.sawBitEnd]
    | cons b bs =>
      have hc : s.regs.bitcnt - 1 - BitVec.ofNat 6 (min n bs.length) =
          s.regs.bitcnt - BitVec.ofNat 6 (min n bs.length + 1) := by
        rw [BitVec.ofNat_add, BitVec.sub_sub, BitVec.add_comm]
        rfl
      simp only [gather, ih, takeIntoAcc_eq, List.length_cons, List.take_succ_cons, List.map_cons,
        List.foldl_cons, Nat.add_le_add_iff_right, Nat.add_min_add_right, lastBit, hc,
        List.append_assoc, List.singleton_append, Nat.add_assoc, Nat.add_comm 1]

/-- The bits gathered into `acc` are `val` of them, in 32 bits. -/
theorem gathered_eq (p : Bits) (a : BitVec 32) :
    p.foldl (fun a b => BitVec.ofNat 32 (shiftIn a.toNat b)) a = BitVec.ofNat 32 (p.foldl shiftIn a.toNat) := by
  induction p generalizing a with
  | nil => simp
  | cons b p ih =>
    rw [List.foldl_cons, ih, List.foldl_cons]
    apply BitVec.eq_of_toNat_eq
    simp only [BitVec.toNat_ofNat, foldl_shiftIn]
    rw [Nat.add_mod, Nat.mul_mod, Nat.mod_mod, ← Nat.mul_mod, ← Nat.add_mod]

/-- What `readBits(n)` does (R61): `acc` holds the value of the bits taken, the rest as `gather_eq` says. -/
theorem readField_eq (s : State) (n : Nat) (bs : Bits) :
    s.readField n bs = (decide (n ≤ bs.length), { s with
      regs := { s.regs with
        acc := BitVec.ofNat 32 (val (bs.take n))
        bitcnt := BitVec.ofNat 6 n - BitVec.ofNat 6 (min n bs.length) }
      inp := { s.inp with
        pos := s.inp.pos + min n bs.length
        rsp := if n ≤ bs.length then lastBit (bs.take n) s.inp.rsp else some .endOfData }
      trace := s.trace ++ ((bs.take n).map fun b => .readBit (some b)) ++
        if n ≤ bs.length then [] else [.readBit none] }) := by
  simp only [State.readField, gather_eq, gathered_eq, State.setRegs, val]
  rfl

end Sys2Proof.Machine
end

