-- ==== Sys2Proof/Laws/Build.lean ====
section
/-!
SUPPORT. What the operations of BUILD can do: the priority structure's order and contents, and the fields they touch.
-/

namespace Sys2Proof.Machine

/-- Insertion adds the index to the members and nothing else (R110). -/
theorem insertPq_perm (w : Idx → Count) (i : Idx) (pq : List Idx) : (insertPq w i pq).Perm (i :: pq) := by
  induction pq with
  | nil => exact .refl _
  | cons j js ih =>
    rw [insertPq]
    split
    · exact .refl _
    · exact (ih.cons j).trans (.swap i j js)

theorem insertPq_length (w : Idx → Count) (i : Idx) (pq : List Idx) : (insertPq w i pq).length = pq.length + 1 :=
  (insertPq_perm w i pq).length_eq

/-- The order of R113 is total on distinct indices. -/
theorem tieBefore_total {wa wb : Count} {a b : Idx} (h : a ≠ b) (hn : tieBefore wa wb a b = false) :
    tieBefore wb wa b a = true := by
  simp only [tieBefore, decide_eq_false_iff_not, decide_eq_true_eq] at hn ⊢
  have : a.toNat ≠ b.toNat := fun e => h (BitVec.eq_of_toNat_eq e)
  omega

theorem tieBefore_trans {wa wb wc : Count} {a b c : Idx} (h : tieBefore wa wb a b = true)
    (k : tieBefore wb wc b c = true) : tieBefore wa wc a c = true := by
  simp only [tieBefore, decide_eq_true_eq] at h k ⊢
  omega

/-- Insertion keeps the members in the order of removal, so the head is `min(pq)` (R113). -/
theorem insertPq_sorted (w : Idx → Count) (i : Idx) (pq : List Idx) (hi : i ∉ pq)
    (h : pq.Pairwise fun a b => tieBefore (w a) (w b) a b = true) :
    (insertPq w i pq).Pairwise fun a b => tieBefore (w a) (w b) a b = true := by
  induction pq with
  | nil => simp [insertPq]
  | cons j js ih =>
    obtain ⟨h1, h2⟩ := List.pairwise_cons.mp h
    rw [insertPq]
    split
    · rename_i hb
      refine List.pairwise_cons.mpr ⟨fun x hx => ?_, h⟩
      rcases List.mem_cons.mp hx with rfl | hx
      · exact hb
      · exact tieBefore_trans hb (h1 x hx)
    · rename_i hb
      refine List.pairwise_cons.mpr ⟨fun x hx => ?_, ih (fun hm => hi (List.mem_cons_of_mem _ hm)) h2⟩
      rcases List.mem_cons.mp ((insertPq_perm w i js).mem_iff.mp hx) with rfl | hx
      · exact tieBefore_total (fun e => hi (e ▸ List.mem_cons_self ..)) (by simpa using hb)
      · exact h1 x hx

/-- The fields that building a tree touches: the node store, `pq`, and `nnodes`. -/
theorem addNode_eq (s : State) (v : Node) : s.addNode v = { s with
    node := s.node.setIfInBounds s.regs.nnodes.toNat v
    pq := insertPq (s.setNode s.regs.nnodes v).weightOf s.regs.nnodes s.pq
    regs := { s.regs with nnodes := s.regs.nnodes + 1 } } := rfl

/-- A symbol's leaf touches the node store, `pq` and `nnodes` alone (R111). -/
theorem addLeaf_frame (s : State) (y : Nat) : s.addLeaf y = { s with
    node := (s.addLeaf y).node
    pq := (s.addLeaf y).pq
    regs := { s.regs with nnodes := (s.addLeaf y).regs.nnodes } } := by
  rw [State.addLeaf]
  split <;> rfl

theorem addLeaves_frame (ys : List Nat) (s : State) : ys.foldl State.addLeaf s = { s with
    node := (ys.foldl State.addLeaf s).node
    pq := (ys.foldl State.addLeaf s).pq
    regs := { s.regs with nnodes := (ys.foldl State.addLeaf s).regs.nnodes } } := by
  induction ys generalizing s with
  | nil => rfl
  | cons y ys ih =>
    rw [List.foldl_cons]
    have h1 := ih (s.addLeaf y)
    rw [addLeaf_frame s y] at h1 ⊢
    exact h1

/-- The merges touch the node store, `pq` and `nnodes` alone, and leave at most one member (R112). -/
theorem mergeLoop_frame (k : Nat) (s : State) : mergeLoop k s = { s with
    node := (mergeLoop k s).node
    pq := (mergeLoop k s).pq
    regs := { s.regs with nnodes := (mergeLoop k s).regs.nnodes } } := by
  induction k generalizing s with
  | zero => rfl
  | succ k ih =>
    rw [mergeLoop]
    split
    · exact ih _
    · rfl

theorem merge_pq_length (s : State) (a b : Idx) (rest : List Idx) : (s.merge a b rest).pq.length = rest.length + 1 := by
  rw [State.merge, addNode_eq]
  exact insertPq_length _ _ _

theorem mergeLoop_pq_length (k : Nat) (s : State) (h : s.pq.length ≤ k) : (mergeLoop k s).pq.length = min 1 s.pq.length := by
  induction k generalizing s with
  | zero =>
    rw [mergeLoop]
    omega
  | succ k ih =>
    rw [mergeLoop]
    split
    · rename_i a b rest hp
      have hl := merge_pq_length s a b rest
      rw [hp, List.length_cons, List.length_cons] at h
      rw [ih _ (by omega), hl, hp, List.length_cons, List.length_cons]
      omega
    · rename_i hp
      match hq : s.pq with
      | [] => simp
      | [x] => simp
      | a :: b :: rest => exact absurd hq (hp a b rest)

end Sys2Proof.Machine
end

