-- ==== Sys2Proof/Laws/Header.lean ====
section
/-!
SUPPORT. What the deserializer and the walk can do: which fields they touch and which phases they end in.
-/

namespace Sys2Proof.Machine

/-- The fields the deserializer never touches (R140). -/
structure HeaderFrame (s t : State) : Prop where
  sym : t.regs.sym = s.regs.sym
  path : t.regs.path = s.regs.path
  plen : t.regs.plen = s.regs.plen
  freq : t.freq = s.freq
  pq : t.pq = s.pq
  code : t.code = s.code
  marker : t.marker = s.marker
  data : t.inp.data = s.inp.data
  req : t.inp.req = s.inp.req
  out : t.out = s.out
  cmd : t.cmd = s.cmd
  busy : t.flags.busy = s.flags.busy
  done : t.flags.done = s.flags.done

theorem HeaderFrame.same (s : State) : HeaderFrame s s :=
  ⟨rfl, rfl, rfl, rfl, rfl, rfl, rfl, rfl, rfl, rfl, rfl, rfl, rfl⟩

theorem HeaderFrame.then {s t u : State} (h : HeaderFrame s t) (k : HeaderFrame t u) : HeaderFrame s u :=
  ⟨k.sym.trans h.sym, k.path.trans h.path, k.plen.trans h.plen, k.freq.trans h.freq, k.pq.trans h.pq,
    k.code.trans h.code, k.marker.trans h.marker, k.data.trans h.data, k.req.trans h.req, k.out.trans h.out,
    k.cmd.trans h.cmd, k.busy.trans h.busy, k.done.trans h.done⟩

/-- Closing a subtree touches the node store, the stack, `root`, `cur`, `sp`, the phase and the free values alone; the
phase stays or becomes D_ROOT. -/
theorem closeSubtree_frame (st : List (Idx × BitVec 2)) (i : Idx) (s : State) :
    closeSubtree st i s = { s with
      phase := (closeSubtree st i s).phase
      regs := { s.regs with
        root := (closeSubtree st i s).regs.root
        cur := (closeSubtree st i s).regs.cur
        sp := (closeSubtree st i s).regs.sp }
      node := (closeSubtree st i s).node
      stk := (closeSubtree st i s).stk
      freeCtr := (closeSubtree st i s).freeCtr } ∧
    ((closeSubtree st i s).phase = s.phase ∨ (closeSubtree st i s).phase = .dRoot) := by
  induction st generalizing i s with
  | nil => exact ⟨rfl, .inr rfl⟩
  | cons e st ih =>
    obtain ⟨j, v⟩ := e
    rw [closeSubtree]
    split
    · exact ⟨rfl, .inl rfl⟩
    · obtain ⟨h1, h2⟩ := ih j (s.putInner j (j + 1) i)
      refine ⟨?_, h2⟩
      exact h1

/-- Reading a leaf's field and closing its subtree: CorruptHeaderError if the bits end in it (R141). -/
theorem leafField_cases (s : State) (i : Idx) (bs : Bits) :
    (Config.symW ≤ bs.length ∧ s.leafField i bs =
      closeSubtree s.stk i ((s.readField Config.symW bs).2.putLeaf i
        ((s.readField Config.symW bs).2.regs.acc.setWidth 9))) ∨
    (bs.length < Config.symW ∧ s.leafField i bs = (s.readField Config.symW bs).2.raise .corruptHeader) := by
  rw [State.leafField, readField_eq]
  by_cases h : Config.symW ≤ bs.length
  · left
    refine ⟨h, ?_⟩
    rw [show decide (Config.symW ≤ bs.length) = true from decide_eq_true h]
  · right
    refine ⟨by omega, ?_⟩
    rw [show decide (Config.symW ≤ bs.length) = false from decide_eq_false h]

theorem leafField_frame (s : State) (i : Idx) (bs : Bits) : HeaderFrame s (s.leafField i bs) := by
  rcases leafField_cases s i bs with ⟨-, h⟩ | ⟨-, h⟩
  · rw [h, (closeSubtree_frame _ _ _).1, readField_eq]
    exact ⟨rfl, rfl, rfl, rfl, rfl, rfl, rfl, rfl, rfl, rfl, rfl, rfl, rfl⟩
  · rw [h, readField_eq]
    exact ⟨rfl, rfl, rfl, rfl, rfl, rfl, rfl, rfl, rfl, rfl, rfl, rfl, rfl⟩

/-- One token of the header leaves the fields of `HeaderFrame` alone. -/
theorem headerToken_frame (s : State) : HeaderFrame s s.headerToken := by
  rw [State.headerToken]
  split
  · exact ⟨rfl, rfl, rfl, rfl, rfl, rfl, rfl, rfl, rfl, rfl, rfl, rfl, rfl⟩
  · split
    · exact ⟨rfl, rfl, rfl, rfl, rfl, rfl, rfl, rfl, rfl, rfl, rfl, rfl, rfl⟩
    · rw [State.tokenN]
      split <;> exact ⟨rfl, rfl, rfl, rfl, rfl, rfl, rfl, rfl, rfl, rfl, rfl, rfl, rfl⟩
    · rw [State.tokenL]
      split
      · exact ⟨rfl, rfl, rfl, rfl, rfl, rfl, rfl, rfl, rfl, rfl, rfl, rfl, rfl⟩
      · exact HeaderFrame.then (t := s.reserve.tookBit true)
          ⟨rfl, rfl, rfl, rfl, rfl, rfl, rfl, rfl, rfl, rfl, rfl, rfl, rfl⟩ (leafField_frame _ _ _)

theorem headerLoop_frame (k : Nat) (s : State) : HeaderFrame s (headerLoop k s) := by
  induction k generalizing s with
  | zero => exact ⟨rfl, rfl, rfl, rfl, rfl, rfl, rfl, rfl, rfl, rfl, rfl, rfl, rfl⟩
  | succ k ih =>
    rw [headerLoop]
    split
    · exact (headerToken_frame s).then (ih _)
    · exact headerToken_frame s

/-- A token's phase, from D_HDR: it stays, becomes D_ROOT with the flags as they were, or CorruptHeaderError is raised. -/
theorem headerToken_phase (s : State) (h : s.phase = .dHdr) :
    (s.headerToken.phase = .dHdr ∨ s.headerToken.phase = .dRoot) ∧ s.headerToken.flags = s.flags ∨
      s.headerToken.phase = .close ∧ s.headerToken.flags = s.flags.raised .corruptHeader := by
  rw [State.headerToken]
  split
  · exact .inr ⟨rfl, rfl⟩
  · split
    · exact .inr ⟨rfl, rfl⟩
    · rw [State.tokenN]
      split
      · exact .inr ⟨rfl, rfl⟩
      · exact .inl ⟨.inl h, rfl⟩
    · rw [State.tokenL]
      split
      · exact .inr ⟨rfl, rfl⟩
      · rename_i bs _ _
        rcases leafField_cases (s.reserve.tookBit true) s.regs.nnodes bs with ⟨-, e⟩ | ⟨-, e⟩
        · rw [e, readField_eq]
          obtain ⟨e1, e2⟩ := closeSubtree_frame (s.reserve.tookBit true).stk s.regs.nnodes
            (((s.reserve.tookBit true).readField Config.symW bs).2.putLeaf s.regs.nnodes
              (((s.reserve.tookBit true).readField Config.symW bs).2.regs.acc.setWidth 9))
          rw [readField_eq] at e1 e2
          left
          refine ⟨?_, ?_⟩
          · rcases e2 with e2 | e2
            · exact .inl (e2.trans h)
            · exact .inr e2
          · rw [e1]
            rfl
        · rw [e, readField_eq]
          exact .inr ⟨rfl, rfl⟩

/-- The deserializer, from D_HDR, ends in D_ROOT with the flags as they were, or raises CorruptHeaderError (R140). -/
theorem headerLoop_phase (k : Nat) (s : State) (h : s.phase = .dHdr) :
    ((headerLoop k s).phase = .dRoot ∧ (headerLoop k s).flags = s.flags) ∨
      ((headerLoop k s).phase = .close ∧ (headerLoop k s).flags = s.flags.raised .corruptHeader) := by
  induction k generalizing s with
  | zero => exact .inr ⟨rfl, rfl⟩
  | succ k ih =>
    rw [headerLoop]
    rcases headerToken_phase s h with ⟨h1, h2⟩ | ⟨h1, h2⟩
    · split
      · rename_i h3
        have := ih _ h3
        rwa [h2] at this
      · rename_i h3
        exact .inl ⟨h1.resolve_left h3, h2⟩
    · rw [if_neg (by rw [h1]; decide)]
      exact .inr ⟨h1, h2⟩

/-! ### The walk -/

/-- Landing on a node: the rows of R174's table, or no such node. -/
theorem landOn_cases (s : State) (n : Idx) :
    (s.nodeAt n = none ∧ s.landOn n = .fault .noSuchNode) ∨
    (∃ w l r, s.nodeAt n = some (.inner w l r) ∧ s.landOn n = .next ((s.setCur n).setPhase .dInt)) ∨
    (∃ w, s.nodeAt n = some (.leaf 256 w) ∧ s.landOn n = .next ((s.setCur n).setPhase .close)) ∨
    (∃ y w, s.nodeAt n = some (.leaf y w) ∧ y ≠ 256 ∧
      s.landOn n = .next (((s.writeBits 8 y.toNat).setCur s.regs.root).setPhase .dRoot)) := by
  rw [State.landOn]
  cases h : s.nodeAt n with
  | none => exact .inl ⟨rfl, rfl⟩
  | some v =>
    cases v with
    | inner w l r => exact .inr (.inl ⟨w, l, r, rfl, rfl⟩)
    | leaf y w =>
      by_cases hy : y = 256
      · subst hy
        exact .inr (.inr (.inl ⟨w, rfl, rfl⟩))
      · exact .inr (.inr (.inr ⟨y, w, rfl, hy, if_neg hy⟩))

/-- A bit's move: from an internal node to a child, from a leaf to itself (R168, R170). -/
theorem moveBy_cases (s : State) (b : Bool) :
    (s.nodeAt s.regs.cur = none ∧ s.moveBy b = .fault .noSuchNode) ∨
    (∃ w l r, s.nodeAt s.regs.cur = some (.inner w l r) ∧ s.moveBy b = s.landOn (if b then r else l)) ∨
    (∃ y w, s.nodeAt s.regs.cur = some (.leaf y w) ∧ s.moveBy b = s.landOn s.regs.cur) := by
  rw [State.moveBy]
  cases h : s.nodeAt s.regs.cur with
  | none => exact .inl ⟨rfl, rfl⟩
  | some v =>
    cases v with
    | inner w l r => exact .inr (.inl ⟨w, l, r, rfl, rfl⟩)
    | leaf y w => exact .inr (.inr ⟨y, w, rfl, rfl⟩)

/-- One iteration of the walk, IN being viewed as the bits `b` (R168, R169). -/
theorem walkStep_cases (s : State) (b : Bits) (h : s.inp.data.asBits s.inp.pos = some b) :
    (b.drop s.inp.pos = [] ∧ s.walkStep =
      .next (({ s with inp := { s.inp with data := .bits b } } : State).sawBitEnd.raise .truncatedBody)) ∨
    (∃ x rest, b.drop s.inp.pos = x :: rest ∧ s.walkStep =
      (({ s with inp := { s.inp with data := .bits b } } : State).tookBit x).moveBy x) := by
  rw [State.walkStep, withBits_eq h]
  cases hd : b.drop s.inp.pos with
  | nil => exact .inl ⟨rfl, by simp [State.bitsLeft, hd]⟩
  | cons x rest => exact .inr ⟨x, rest, rfl, by simp [State.bitsLeft, hd]⟩

end Sys2Proof.Machine
end

