-- ==== Sys2Proof/Laws/Passes.lean ====
section
/-!
SUPPORT. What the two passes of COMPRESS over IN do, and what the writes and the two traversals of the tree leave alone.
-/

namespace Sys2Proof.Machine

/-- The counting loop counts every byte, reads all of them and then `END` (R102). -/
theorem countLoop_eq (rs : List Byte) (s : State) :
    countLoop rs s = { s with
      freq := rs.foldl (fun f r => f.setIfInBounds r.toNat (satInc (f[r.toNat]?.getD 0))) s.freq
      inp := { s.inp with pos := s.inp.pos + rs.length, rsp := some .endOfData }
      trace := s.trace ++ (rs.map fun r => .readByte (some r)) ++ [.readByte none] } := by
  induction rs generalizing s with
  | nil => simp [countLoop, State.sawByteEnd]
  | cons r rs ih =>
    simp only [countLoop, ih, State.tookByte, State.countByte, State.setFreq, State.freqOf, List.foldl_cons,
      List.length_cons, List.map_cons, List.append_assoc, List.singleton_append, Nat.add_assoc, Nat.add_comm 1]

/-- What one byte of the encoding pass adds, its entry being valid (R153). -/
theorem encodeByte_eq (s : State) (r : Byte) (e : CodeEntry) :
    ((s.tookByte r).lookUp r).emitCode e = { s with
      regs := { s.regs with sym := r.setWidth 9 }
      inp := { s.inp with pos := s.inp.pos + 1, rsp := some (.byte r) }
      out := { s.out with bits := s.out.bits ++ e.toBits }
      trace := s.trace ++ [.readByte (some r), .writeBits e.len.toNat e.bits.toNat] } := by
  simp [State.emitCode, State.writeBits, State.lookUp, State.setRegs, State.tookByte, CodeEntry.toBits]

/-- The encoding loop answers next, or stops at a byte without a code (R153, R241). -/
theorem encodeLoop_cases (rs : List Byte) (s : State) :
    (∃ t, encodeLoop rs s = .next t) ∨ encodeLoop rs s = .fault .uncodedByte := by
  induction rs generalizing s with
  | nil => exact .inl ⟨_, rfl⟩
  | cons r rs ih =>
    rw [encodeLoop]
    split
    · exact ih _
    · exact .inr rfl

/-- The encoding loop touches `sym`, IN, OUT's bits and the trace alone. -/
theorem encodeLoop_frame (rs : List Byte) (s t : State) (h : encodeLoop rs s = .next t) :
    t = { s with
      regs := { s.regs with sym := t.regs.sym }
      inp := t.inp
      out := { s.out with bits := t.out.bits }
      trace := t.trace } := by
  induction rs generalizing s with
  | nil =>
    cases h
    rfl
  | cons r rs ih =>
    rw [encodeLoop] at h
    split at h
    · have h2 := ih _ h
      rw [encodeByte_eq] at h2
      ext1 <;> rw [h2]
    · cases h

/-- The serializer touches OUT's bits and the trace alone. -/
theorem ser_frame (k : Nat) (i : Idx) (s t : State) (h : ser k i s = .next t) :
    t = { s with out := { s.out with bits := t.out.bits }, trace := t.trace } := by
  induction k generalizing i s t with
  | zero => cases h
  | succ k ih =>
    rw [ser] at h
    split at h
    · cases h
    · cases h
      rfl
    · obtain ⟨u, h1, h2⟩ := andThen_eq_next h
      have e1 := ih _ _ _ h1
      have e2 := ih _ _ _ h2
      rw [e1] at e2
      ext1 <;> rw [e2] <;> rfl

/-- The traversal of GENCODES touches the code table alone. -/
theorem gen_frame (k : Nat) (i : Idx) (p : Bits) (s t : State) (h : gen k i p s = .next t) :
    t = { s with code := t.code } := by
  induction k generalizing i p s t with
  | zero => cases h
  | succ k ih =>
    rw [gen] at h
    split at h
    · cases h
    · rw [State.setCode] at h
      split at h
      · cases h
        rfl
      · cases h
    · obtain ⟨u, h1, h2⟩ := andThen_eq_next h
      have e1 := ih _ _ _ _ h1
      have e2 := ih _ _ _ _ h2
      rw [e1] at e2
      ext1 <;> rw [e2]

/-- So does the whole of its table filling. -/
theorem fillCodes_frame (s t : State) (h : s.fillCodes = .next t) : t = { s with code := t.code } := by
  rw [State.fillCodes] at h
  split at h
  · cases h
  · rw [State.setCode] at h
    split at h
    · cases h
      rfl
    · cases h
  · exact gen_frame _ _ _ _ _ h

end Sys2Proof.Machine
end

