-- ==== Sys2Proof/Laws/PerInstr.lean ====
section
/-!
SUPPORT. The family EncodedLength: how many bits the word or token of each well-formed instruction has (10_state.md R26,
30_encoding.md R81 to R84, R91, R92).
-/

namespace Sys2Proof

/-- The number of bits of an instruction's word or token: 2 of a command or an IN request, 4 of a phase code, one bit with
9 and 256 of operands of an OUT request, 32 of the marker, 1 of N, 10 of L, a code's own length. -/
def Laws.EncodedLength.width : Instr → Nat
  | .compress | .decompress | .readByte | .readBit | .reset => 2
  | .count | .build | .gencodes | .cMark | .hdrser | .cRewind | .encode | .cTerm
  | .dMark | .hdrdes | .walk | .walkInt | .closePhase => 4
  | .writeBits _ _ | .close => 266
  | .m _ => 32
  | .n => 1
  | .l _ => 10
  | .c code => code.length
  | .t code => code.length

/-- The encoding of `i` has exactly that many bits, and at least one. -/
def Laws.EncodedLength.Statement (i : Instr) : Prop :=
  i.WellFormed → (encode i).length = Laws.EncodedLength.width i ∧ encode i ≠ []

/-- A code of the range of R84 is not empty. -/
theorem code_ne_nil (p : Bits) (h : decide (1 ≤ p.length ∧ p.length ≤ Config.codeMax) = true) : p ≠ [] := by
  rintro rfl
  simp at h

/-- A close with its ignored operands (R92). -/
theorem encode_close_length : (encode .close).length = 266 := by
  rw [encode, List.length_cons, List.length_replicate]

namespace Laws.EncodedLength

theorem compress : Statement .compress := fun _ => ⟨rfl, by simp [encode]⟩
theorem decompress : Statement .decompress := fun _ => ⟨rfl, by simp [encode]⟩
theorem count : Statement .count := fun _ => ⟨rfl, by simp [encode]⟩
theorem build : Statement .build := fun _ => ⟨rfl, by simp [encode]⟩
theorem gencodes : Statement .gencodes := fun _ => ⟨rfl, by simp [encode]⟩
theorem cMark : Statement .cMark := fun _ => ⟨rfl, by simp [encode]⟩
theorem hdrser : Statement .hdrser := fun _ => ⟨rfl, by simp [encode]⟩
theorem cRewind : Statement .cRewind := fun _ => ⟨rfl, by simp [encode]⟩
theorem encode : Statement .encode := fun _ => ⟨rfl, by simp [Sys2Proof.encode]⟩
theorem cTerm : Statement .cTerm := fun _ => ⟨rfl, by simp [Sys2Proof.encode]⟩
theorem dMark : Statement .dMark := fun _ => ⟨rfl, by simp [Sys2Proof.encode]⟩
theorem hdrdes : Statement .hdrdes := fun _ => ⟨rfl, by simp [Sys2Proof.encode]⟩
theorem walk : Statement .walk := fun _ => ⟨rfl, by simp [Sys2Proof.encode]⟩
theorem walkInt : Statement .walkInt := fun _ => ⟨rfl, by simp [Sys2Proof.encode]⟩
theorem closePhase : Statement .closePhase := fun _ => ⟨rfl, by simp [Sys2Proof.encode]⟩
theorem readByte : Statement .readByte := fun _ => ⟨rfl, by simp [Sys2Proof.encode]⟩
theorem readBit : Statement .readBit := fun _ => ⟨rfl, by simp [Sys2Proof.encode]⟩
theorem reset : Statement .reset := fun _ => ⟨rfl, by simp [Sys2Proof.encode]⟩
theorem writeBits (w : BitVec 9) (v : BitVec 256) : Statement (.writeBits w v) :=
  fun _ => ⟨by simp [Sys2Proof.encode, width], by simp [Sys2Proof.encode]⟩
theorem close : Statement .close := fun _ => ⟨encode_close_length, List.cons_ne_nil _ _⟩
theorem m (v : BitVec 32) : Statement (.m v) :=
  fun _ => ⟨by simp [Sys2Proof.encode, width], by simp [Sys2Proof.encode, bits_succ]⟩
theorem n : Statement .n := fun _ => ⟨rfl, by simp [Sys2Proof.encode]⟩
theorem l (y : Sym) : Statement (.l y) := fun _ => ⟨by simp [Sys2Proof.encode, width], by simp [Sys2Proof.encode]⟩
theorem c (p : Bits) : Statement (.c p) := fun h => ⟨rfl, code_ne_nil p h⟩
theorem t (p : Bits) : Statement (.t p) := fun h => ⟨rfl, code_ne_nil p h⟩

end Laws.EncodedLength

end Sys2Proof
end

