-- ==== Sys2Proof/Laws/Step.lean ====
section
/-!
SUPPORT. What a step runs: one lemma per case of what selects the instruction (00_scope.md R11, 10_state.md R26, R36).
-/

namespace Sys2Proof.Machine

/-- Every case of what is selected: a transaction on IN, one on OUT, a command in IDLE, nothing in IDLE, a phase. -/
theorem fetch_cases (s : State) :
    (∃ op, s.inp.req = some op ∧
      s.fetch = some (.inOp, bits 2 op.toNat, { s with inp := { s.inp with req := none } })) ∨
    (∃ r, s.inp.req = none ∧ s.out.req = some r ∧
      s.fetch = some (.outOp, r.op :: (bits 9 r.width.toNat ++ bits 256 r.value.toNat),
        { s with out := { s.out with req := none } })) ∨
    (s.inp.req = none ∧ s.out.req = none ∧ s.phase = .idle ∧
      ((∃ op, s.cmd = some op ∧ s.fetch = some (.cmd, bits 2 op.toNat, { s with cmd := none })) ∨
        (s.cmd = none ∧ s.fetch = none))) ∨
    (s.inp.req = none ∧ s.out.req = none ∧ s.phase ≠ .idle ∧
      s.fetch = some (.phase, bits 4 s.phase.code.toNat, s)) := by
  cases h1 : s.inp.req with
  | some op => exact .inl ⟨op, rfl, by simp [State.fetch, h1]⟩
  | none =>
    cases h2 : s.out.req with
    | some r => exact .inr (.inl ⟨r, rfl, rfl, by simp [State.fetch, h1, h2]⟩)
    | none =>
      by_cases h3 : s.phase = .idle
      · refine .inr (.inr (.inl ⟨rfl, rfl, h3, ?_⟩))
        cases h4 : s.cmd with
        | some op => exact .inl ⟨op, rfl, by simp [State.fetch, h1, h2, h3, h4]⟩
        | none => exact .inr ⟨rfl, by simp [State.fetch, h1, h2, h3, h4]⟩
      · refine .inr (.inr (.inr ⟨rfl, rfl, h3, ?_⟩))
        cases h5 : s.phase with
        | idle => exact absurd h5 h3
        | _ => simp [State.fetch, h1, h2, h5]

/-- A step, once it is known what is fetched and what that decodes to. -/
theorem step_of_decode {s s1 : State} {f : Format} {w rest : Bits} {i : Instr} (h : s.fetch = some (f, w, s1))
    (hd : decode f w = .ok (i, rest)) : step s = exec i s1 := by
  simp [step, h, hd]

/-- With nothing selected the block waits. -/
theorem step_of_idle {s : State} (h : s.fetch = none) : step s = .next s := by simp [step, h]

/-- The four request codes of IN: three transactions, and the one never issued (R92). -/
theorem decode_inOp_cases (op : BitVec 2) :
    decode .inOp (bits 2 op.toNat) = .ok (.readByte, []) ∨ decode .inOp (bits 2 op.toNat) = .ok (.readBit, []) ∨
      decode .inOp (bits 2 op.toNat) = .ok (.reset, []) ∨ decode .inOp (bits 2 op.toNat) = .error .inOpNeverIssued := by
  revert op
  decide

/-- The four command codes: two commands and two reserved (R91). -/
theorem decode_cmd_cases (op : BitVec 2) :
    decode .cmd (bits 2 op.toNat) = .ok (.compress, []) ∨ decode .cmd (bits 2 op.toNat) = .ok (.decompress, []) ∨
      decode .cmd (bits 2 op.toNat) = .error .reservedCommand := by
  revert op
  decide

/-- Every phase but IDLE selects an operation (R26). -/
theorem decode_phase (p : Phase) (h : p ≠ .idle) : ∃ i, decode .phase (bits 4 p.code.toNat) = .ok (i, []) := by
  cases p with
  | idle => exact absurd rfl h
  | cCount => exact ⟨.count, rfl⟩
  | cBuild => exact ⟨.build, rfl⟩
  | cGen => exact ⟨.gencodes, rfl⟩
  | cMark => exact ⟨.cMark, rfl⟩
  | cHdr => exact ⟨.hdrser, rfl⟩
  | cRewind => exact ⟨.cRewind, rfl⟩
  | cEnc => exact ⟨.encode, rfl⟩
  | cTerm => exact ⟨.cTerm, rfl⟩
  | dMark => exact ⟨.dMark, rfl⟩
  | dHdr => exact ⟨.hdrdes, rfl⟩
  | dRoot => exact ⟨.walk, rfl⟩
  | dInt => exact ⟨.walkInt, rfl⟩
  | close => exact ⟨.closePhase, rfl⟩

/-- What an outstanding OUT transaction decodes to (R92): close; a write of at most 256 bits, with some width and value;
or, the width being above 256, nothing. -/
theorem decode_outOp_cases (r : OutReq) :
    ∃ i rest, decode .outOp (r.op :: (bits 9 r.width.toNat ++ bits 256 r.value.toNat)) = .ok (i, rest) ∧
      (i = .close ∨ ∃ w v, i = .writeBits w v) := by
  have hl : ¬ (bits 9 r.width.toNat ++ bits 256 r.value.toNat).length < 9 + 256 := by simp
  simp only [decode, decodeOutOp, if_neg hl]
  cases r.op with
  | true => exact ⟨.close, _, rfl, .inl rfl⟩
  | false => exact ⟨_, _, rfl, .inr ⟨_, _, rfl⟩⟩

end Sys2Proof.Machine
end

