-- ==== Sys2Proof/Laws/Tree.lean ====
section
/-!
SUPPORT. The small lemmas of the abstract functions of a header's tokens and of the transactions of DECOMPRESS.
-/

namespace Sys2Proof.Machine

@[simp] theorem readsOf_nil : readsOf [] = [] := rfl

@[simp] theorem readsOf_cons (b : Bool) (p : Bits) : readsOf (b :: p) = .readBit (some b) :: readsOf p := rfl

@[simp] theorem readsOf_append (p q : Bits) : readsOf (p ++ q) = readsOf p ++ readsOf q := List.map_append

@[simp] theorem headerTokens_zero (u : Bits) : headerTokens 0 u = some [] := rfl

@[simp] theorem headerTokens_nil (n : Nat) : headerTokens (n + 1) [] = none := rfl

theorem headerTokens_false (n : Nat) (u : Bits) :
    headerTokens (n + 1) (false :: u) = (headerTokens n u).map (false :: ·) := rfl

/-- An L token takes ten bits. -/
theorem headerTokens_true (n : Nat) (f u : Bits) (h : f.length = Config.symW) :
    headerTokens (n + 1) (true :: (f ++ u)) = (headerTokens n u).map fun p => true :: (f ++ p) := by
  have hl : Config.symW ≤ (f ++ u).length := by rw [List.length_append]; omega
  rw [headerTokens, if_pos hl, ← h, List.drop_left, List.take_left]

/-- The first tokens of a bit sequence are its first bits. -/
theorem headerTokens_prefix (n : Nat) (u p : Bits) (h : headerTokens n u = some p) : p <+: u := by
  induction n generalizing u p with
  | zero => cases h; exact List.nil_prefix
  | succ n ih =>
    match u, h with
    | false :: u, h =>
      rw [headerTokens_false, Option.map_eq_some_iff] at h
      obtain ⟨q, hq, rfl⟩ := h
      exact (List.prefix_cons_inj false).mpr (ih u q hq)
    | true :: u, h =>
      rw [headerTokens] at h
      split at h
      · rw [Option.map_eq_some_iff] at h
        obtain ⟨q, hq, rfl⟩ := h
        rw [List.prefix_cons_inj]
        conv_rhs => rw [← List.take_append_drop Config.symW u]
        exact (List.prefix_append_right_inj _).mpr (ih _ q hq)
      · cases h

/-- A serialized tree is one token per node. -/
theorem headerTokens_ser (t : CodeTree) (n : Nat) (u : Bits) :
    headerTokens (t.size + n) (t.ser ++ u) = (headerTokens n u).map (t.ser ++ ·) := by
  induction t generalizing n u with
  | leaf sym =>
    rw [CodeTree.size, Nat.add_comm, CodeTree.ser, List.cons_append, headerTokens_true _ _ _ (bits_length _ _)]
    rfl
  | node l r ihl ihr =>
    have h : l.size + r.size + 1 + n = l.size + (r.size + n) + 1 := by omega
    rw [CodeTree.size, CodeTree.ser, h, List.cons_append, headerTokens_false, List.append_assoc, ihl, ihr]
    cases headerTokens n u <;> simp

/-- The walk's transactions are reads of bits and writes of bytes (R178). -/
theorem walkTrace_mem (t cur : CodeTree) (u : Bits) :
    ∀ x ∈ walkTrace t cur u, (∃ r, x = .readBit r) ∨ ∃ v, v < 256 ∧ x = .writeBits 8 v := by
  induction u generalizing cur with
  | nil => intro x hx; exact .inl ⟨none, List.mem_singleton.mp hx⟩
  | cons b u ih =>
    intro x hx
    unfold walkTrace at hx
    rw [List.mem_cons] at hx
    rcases hx with rfl | hx
    · exact .inl ⟨_, rfl⟩
    · split at hx
      · split at hx
        · cases hx
        · rcases List.mem_cons.mp hx with rfl | hx
          · exact .inr ⟨_, Nat.mod_lt _ (by decide), rfl⟩
          · exact ih _ x hx
      · exact ih _ x hx

end Sys2Proof.Machine
end

