-- ==== Sys2Proof/Tests/Slice0.lean ====
section
/-!
SUPPORT. The model's own tests: ill-formed instructions, decoding of words written out from the spec's tables, one step of
each instruction against the worked values of 95_test_vectors.md, and for each obligation with hypotheses a state and
operands that meet them, at the edges of its clauses.
-/

namespace Sys2Proof.Tests

open Sys2Proof.Machine

-- One theorem at a time: each kernel check would otherwise hold a thread of its own.
set_option Elab.async false

/-! ### Helpers -/

/-- A bit string as the spec prints it. -/
def digits (p : List Nat) : Bits := p.map fun d => d == 1

/-- The illustrative marker of 95_test_vectors.md. -/
def start : State := { State.reset with marker := 0xFACE8201 }

/-- `start` in phase `p`. -/
def inPhase (p : Phase) : State := start.setPhase p

/-- A view of the next state; `none` at a fault or a refusal. -/
def view {α : Type} (f : State → α) : Answer State → Option α
  | .next s => some (f s)
  | .fault _ => none
  | .refused _ => none

/-- The fault an operation ends in. -/
def faultOf : Answer State → Option Fault
  | .fault r => some r
  | _ => none

/-- The refusal an operation ends in. -/
def refusalOf : Answer State → Option Refusal
  | .refused r => some r
  | _ => none

/-- An answer with a view is a next state. -/
theorem next_of_view {a : Answer State} (h : (view (fun _ => true) a).isSome = true) : ∃ t, a = .next t := by
  cases a with
  | next s => exact ⟨s, rfl⟩
  | fault r => simp [view] at h
  | refused r => simp [view] at h

/-- Node store entries put in place. -/
def withNodes (s : State) (xs : List (Idx × Node)) : State := xs.foldl (fun u x => u.setNode x.1 x.2) s

/-- Counts put in place. -/
def withCounts (s : State) (xs : List (Nat × Count)) : State := xs.foldl (fun u x => u.setFreq x.1 x.2) s

/-- Codes put in place. -/
def withCodes (s : State) (xs : List (Nat × Bits)) : State :=
  xs.foldl (fun u x => { u with code := u.code.setIfInBounds x.1 (CodeEntry.ofBits x.2) }) s

/-- The children of an internal node. -/
def childrenAt (s : State) (i : Idx) : Option (Idx × Idx) :=
  match s.nodeAt i with
  | some (.inner _ l r) => some (l, r)
  | _ => none

/-- VF2: the counts of `[65,65,66,67]`. -/
def countsA : State := withCounts (inPhase .cBuild) [(65, 2), (66, 1), (67, 1), (256, 1)]

/-- VB1: the node store BUILD makes of them. -/
def nodesA : List (Idx × Node) :=
  [(0, .leaf 65 2), (1, .leaf 66 1), (2, .leaf 67 1), (3, .leaf 256 1), (4, .inner 2 1 2), (5, .inner 3 3 0),
    (6, .inner 5 4 5)]

/-- VB1's tree at root 6, in phase `p`. -/
def treeA (p : Phase) : State :=
  (withNodes (inPhase p) nodesA).setRegs { start.regs with root := 6, cur := 6, nnodes := 7 }

/-- VB1's tree. -/
def shapeA : CodeTree := .node (.node (.leaf 66) (.leaf 67)) (.node (.leaf 256) (.leaf 65))

/-- A store of one leaf at root 0. -/
def oneLeaf (y : Sym) (p : Phase) : State := withNodes (inPhase p) [(0, .leaf y 1)]

/-- VG1's code table. -/
def codesA (p : Phase) : State :=
  withCodes (inPhase p) [(65, digits [1, 1]), (66, digits [0, 0]), (67, digits [0, 1]), (256, digits [1, 0])]

/-- `s` reading the bits `b` from position 0. -/
def readingBits (s : State) (b : Bits) : State := s.provide (.bits b)

/-- `s` reading the bytes `x` from position 0. -/
def readingBytes (s : State) (x : List Byte) : State := s.provide (.bytes x)

/-- The bits of the marker `FA CE 82 01`. -/
def markerBits : Bits :=
  digits [1, 1, 1, 1, 1, 0, 1, 0, 1, 1, 0, 0, 1, 1, 1, 0, 1, 0, 0, 0, 0, 0, 1, 0, 0, 0, 0, 0, 0, 0, 0, 1]

/-- VH1. -/
def headerA : Bits :=
  digits [0, 0, 1, 0, 0, 1, 0, 0, 0, 0, 1, 0, 1, 0, 0, 1, 0, 0, 0, 0, 1, 1] ++
  digits [0, 1, 1, 0, 0, 0, 0, 0, 0, 0, 0, 1, 0, 0, 1, 0, 0, 0, 0, 0, 1]

/-! ### Well-formedness: each check refuses an ill-formed instruction -/

/-- R84: a code has 1 to 256 bits. -/
theorem test_wf_code_lengths :
    ¬ (Instr.c []).WellFormed ∧ ¬ (Instr.t []).WellFormed ∧ (Instr.c [true]).WellFormed ∧
      (Instr.t [false]).WellFormed := by
  decide

theorem test_wf_code_257 :
    ¬ (Instr.c (List.replicate 257 true)).WellFormed ∧ ¬ (Instr.t (List.replicate 257 true)).WellFormed ∧
      (Instr.c (List.replicate 256 true)).WellFormed ∧ (Instr.t (List.replicate 256 true)).WellFormed := by
  decide +kernel

/-! ### Decoding of words written out from the tables -/

/-- R91. -/
theorem test_decode_commands :
    decode .cmd (digits [0, 1]) = .ok (.compress, []) ∧ decode .cmd (digits [1, 0]) = .ok (.decompress, []) := by
  decide

/-- R26: the codes of the COMPRESS phases. -/
theorem test_decode_compress_phases :
    decode .phase (digits [0, 0, 0, 1]) = .ok (.count, []) ∧ decode .phase (digits [0, 0, 1, 0]) = .ok (.build, []) ∧
    decode .phase (digits [0, 0, 1, 1]) = .ok (.gencodes, []) ∧ decode .phase (digits [0, 1, 0, 0]) = .ok (.cMark, []) ∧
    decode .phase (digits [0, 1, 0, 1]) = .ok (.hdrser, []) ∧ decode .phase (digits [0, 1, 1, 0]) = .ok (.cRewind, []) ∧
    decode .phase (digits [0, 1, 1, 1]) = .ok (.encode, []) ∧ decode .phase (digits [1, 0, 0, 0]) = .ok (.cTerm, []) := by
  decide

/-- R26: the codes of the DECOMPRESS phases and CLOSE. -/
theorem test_decode_decompress_phases :
    decode .phase (digits [1, 0, 0, 1]) = .ok (.dMark, []) ∧ decode .phase (digits [1, 0, 1, 0]) = .ok (.hdrdes, []) ∧
    decode .phase (digits [1, 0, 1, 1]) = .ok (.walk, []) ∧ decode .phase (digits [1, 1, 0, 0]) = .ok (.walkInt, []) ∧
    decode .phase (digits [1, 1, 0, 1]) = .ok (.closePhase, []) := by
  decide

/-- R92: `in_op`. -/
theorem test_decode_in_op :
    decode .inOp (digits [0, 0]) = .ok (.readByte, []) ∧ decode .inOp (digits [0, 1]) = .ok (.readBit, []) ∧
    decode .inOp (digits [1, 0]) = .ok (.reset, []) := by
  decide

/-- R92: `out_op`, nine bits of width, 256 of value; `writeBits(2, 3)` of VS5. -/
theorem test_decode_write_bits :
    decode .outOp (digits [0] ++ digits [0, 0, 0, 0, 0, 0, 0, 1, 0] ++ List.replicate 254 false ++ digits [1, 1]) =
      .ok (.writeBits 2 3, []) := by
  decide +kernel

theorem test_decode_close : decode .outOp (true :: List.replicate 265 true) = .ok (.close, []) := by decide +kernel

/-- R53, R92: a width of 257 is read as it stands. -/
theorem test_decode_width_257 :
    decode .outOp (digits [0, 1, 0, 0, 0, 0, 0, 0, 0, 1] ++ List.replicate 256 true) =
      .ok (.writeBits 257 (BitVec.allOnes 256), []) := by
  decide +kernel

/-- VS8. -/
theorem test_decode_marker : decode .marker markerBits = .ok (.m 0xFACE8201, []) := by decide +kernel

/-- R82, R83; `L(66)` of VS7, followed by another token. -/
theorem test_decode_header :
    decode .header (digits [0, 1]) = .ok (.n, digits [1]) ∧
    decode .header (digits [1, 0, 0, 1, 0, 0, 0, 0, 1, 0, 0]) = .ok (.l 66, digits [0]) ∧
    decode .header (digits [1, 0, 0, 1]) = .error .tooFewBits := by
  decide +kernel

/-- VG5: the code of 99, and the terminator of VG1. -/
theorem test_decode_codes :
    decode .code (digits [1, 1, 1, 0]) = .ok (.c (digits [1, 1, 1, 0]), []) ∧
    decode .terminator (digits [1, 0]) = .ok (.t (digits [1, 0]), []) ∧
    decode .code [] = .error .emptyCode := by
  decide

/-- The table's words: the first row that a word can be (notes/assumptions/23.md); an `L` and an `M` are not in doubt. -/
theorem test_decode_table_words :
    decodeTableWord 8 1 = some .compress ∧ decodeTableWord 8 2 = some .decompress ∧
    decodeTableWord 8 7 = some .encode ∧ decodeTableWord 8 13 = some .closePhase ∧
    decodeTableWord 16 0x300 = some (.l 256) ∧ decodeTableWord 32 0xFACE8201 = some (.m 0xFACE8201) := by
  decide +kernel

/-- R53: VS1, VS6. -/
theorem test_bits_notation :
    bits 9 256 = digits [1, 0, 0, 0, 0, 0, 0, 0, 0] ∧ bits 8 300 = digits [0, 0, 1, 0, 1, 1, 0, 0] ∧
    bits 10 578 = digits [1, 0, 0, 1, 0, 0, 0, 0, 1, 0] := by
  decide

/-- VS15, R60: 43 bits in six bytes, five pad bits. -/
theorem test_pack_43_bits :
    packBits (markerBits ++ digits [1, 1, 0, 0, 0, 0, 0, 0, 0, 0, 0]) = [0xFA, 0xCE, 0x82, 0x01, 0xC0, 0x00] := by
  decide +kernel

/-! ### Commands -/

/-- VK4. -/
theorem test_compress_accepted :
    view (fun t => (t.statusWord, t.phase))
      (exec .compress { start with flags := { busy := false, done := true, err := .truncatedBody } }) =
      some (0x1, .cCount) := by
  decide +kernel

/-- VK5: the busy block changes nothing. -/
theorem test_compress_held_off : view (fun t => t.phase) (exec .compress (inPhase .dInt)) = some .dInt := by
  decide +kernel

/-- R36. -/
theorem test_decompress_accepted :
    view (fun t => (t.statusWord, t.phase, t.regs.nnodes)) (exec .decompress (treeA .idle)) =
      some (0x1, .dMark, 0) := by
  decide +kernel

/-- VK2, VK3. -/
theorem test_reserved_commands :
    view (fun t => (t.phase, t.cmd, t.trace)) (step (start.offer 0)) = some (.idle, none, []) ∧
    view (fun t => (t.phase, t.cmd, t.trace)) (step (start.offer 3)) = some (.idle, none, []) := by
  decide +kernel

/-! ### The phase operations -/

/-- VF2. -/
theorem test_count_vf2 :
    view (fun t => ([65, 66, 67, 256, 0].map t.freqOf, t.inp.pos, t.trace.length))
      (exec .count (readingBytes (inPhase .cCount) [65, 65, 66, 67])) = some ([2, 1, 1, 1, 0], 4, 5) := by
  decide +kernel

/-- VF9: the table is cleared first. -/
theorem test_count_vf9 :
    view (fun t => (t.freqOf 65, t.freqOf 256, t.phase)) (exec .count (readingBytes countsA [])) =
      some (0, 1, .cBuild) := by
  decide +kernel

/-- VB1: leaves, ties, merges and root. -/
theorem test_build_vb1 :
    view (fun t => (t.regs.root, t.regs.nnodes, nodesA.map fun x => t.nodeAt x.1)) (exec .build countsA) =
      some (6, 7, nodesA.map fun x => some x.2) := by
  decide +kernel

/-- VB10: the saturated weight, and the lighter leaf first. -/
theorem test_build_vb10 :
    view (fun t => (t.nodeAt 2, t.regs.root))
      (exec .build (withCounts (inPhase .cBuild) [(7, 0xFFFFFFFF), (256, 1)])) =
      some (some (.inner 0xFFFFFFFF 1 0), 2) := by
  decide +kernel

/-- VG1, R129. -/
theorem test_gencodes_vg1 :
    view (fun t => (t.codeAt 65, t.codeAt 66, t.codeAt 67, t.codeAt 256)) (exec .gencodes (treeA .cGen)) =
      some (some ⟨true, 2, 3⟩, some ⟨true, 2, 0⟩, some ⟨true, 2, 1⟩, some ⟨true, 2, 2⟩) := by
  decide +kernel

/-- VG2, R127; the entries of an earlier command are invalid. -/
theorem test_gencodes_vg2 :
    view (fun t => (t.codeAt 256, (t.codeAt 65).map CodeEntry.valid))
      (exec .gencodes (withCodes (oneLeaf 256 .cGen) [(65, [true])])) =
      some (some ⟨true, 1, 0⟩, some false) := by
  decide +kernel

/-- P1, phase C_MARK. -/
theorem test_cMark_p1 :
    view (fun t => (t.out.bits, t.trace, t.phase)) (exec .cMark (inPhase .cMark)) =
      some (markerBits, [.writeBits 32 0xFACE8201], .cHdr) := by
  decide +kernel

/-- VH1. -/
theorem test_hdrser_vh1 :
    view (fun t => (t.out.bits, t.trace.length, t.phase)) (exec .hdrser (treeA .cHdr)) =
      some (headerA, 11, .cRewind) := by
  decide +kernel

/-- VH2. -/
theorem test_hdrser_vh2 :
    view (fun t => t.out.bits) (exec .hdrser (oneLeaf 256 .cHdr)) =
      some (digits [1, 1, 0, 0, 0, 0, 0, 0, 0, 0]) := by
  decide +kernel

/-- P1, phase C_REWIND. -/
theorem test_cRewind_p1 :
    view (fun t => (t.inp.pos, t.trace, t.phase))
      (exec .cRewind { inPhase .cRewind with inp := { data := .bytes [65], pos := 1, req := none, rsp := none } }) =
      some (0, [.reset], .cEnc) := by
  decide +kernel

/-- VE1: the body. -/
theorem test_encode_ve1 :
    view (fun t => (t.out.bits, t.inp.pos, t.regs.sym, t.trace.length, t.phase))
      (exec .encode (readingBytes (codesA .cEnc) [65, 65, 66, 67])) =
      some (digits [1, 1, 1, 1, 0, 0, 0, 1], 4, 67, 9, .cTerm) := by
  decide +kernel

/-- R241: a byte with no code. -/
theorem test_encode_uncoded : faultOf (exec .encode (readingBytes (codesA .cEnc) [65, 68])) = some .uncodedByte := by
  decide +kernel

/-- VE1: the terminator. -/
theorem test_cTerm_ve1 :
    view (fun t => (t.out.bits, t.trace, t.phase)) (exec .cTerm (codesA .cTerm)) =
      some (digits [1, 0], [.writeBits 2 2], .close) := by
  decide +kernel

/-- P4: the marker is accepted. -/
theorem test_dMark_accepts :
    view (fun t => (t.phase, t.flags.err, t.regs.acc, t.inp.pos))
      (exec .dMark (readingBits (inPhase .dMark) (markerBits ++ [true]))) =
      some (.dHdr, .none, 0xFACE8201, 32) := by
  decide +kernel

/-- VD7: 31 bits. -/
theorem test_dMark_vd7 :
    view (fun t => (t.phase, t.flags.err, t.inp.pos, t.trace.length))
      (exec .dMark (readingBits (inPhase .dMark) (markerBits.take 31))) = some (.close, .format, 31, 32) := by
  decide +kernel

/-- VI1. -/
theorem test_hdrdes_vi1 :
    view (fun t => (t.treeAt 513 t.regs.root, t.regs.nnodes, t.inp.pos, t.phase))
      (exec .hdrdes (readingBits (inPhase .dHdr) (headerA ++ [true]))) = some (some shapeA, 7, 43, .dRoot) ∧
    view (fun t => [childrenAt t 0, childrenAt t 1, childrenAt t 4])
      (exec .hdrdes (readingBits (inPhase .dHdr) (headerA ++ [true]))) =
      some [some (1, 4), some (2, 3), some (5, 6)] := by
  decide +kernel

/-- VI6: the end of the stream inside the symbol field. -/
theorem test_hdrdes_vi6 :
    view (fun t => (t.inp.pos, t.flags.err, t.phase, t.out.bits))
      (exec .hdrdes (readingBits (inPhase .dHdr) (digits [1, 0, 0, 1, 0]))) =
      some (5, .corruptHeader, .close, []) := by
  decide +kernel

/-- VD26: at the root leaf of 511 the bit is ignored and `511 mod 256` is written. -/
theorem test_walk_vd26 :
    view (fun t => (t.out.bits, t.phase, t.trace))
      (exec .walk (readingBits (oneLeaf 511 .dRoot) [true])) =
      some (digits [1, 1, 1, 1, 1, 1, 1, 1], .dRoot, [.readBit (some true), .writeBits 8 511]) := by
  decide +kernel

/-- VD24: the end of the stream at the root. -/
theorem test_walk_vd24 :
    view (fun t => (t.flags.err, t.phase, t.out.bits)) (exec .walk (readingBits (oneLeaf 256 .dRoot) [])) =
      some (.truncatedBody, .close, []) := by
  decide +kernel

/-- P4: from node 5 of VB1's tree (its right child) bit 1 reaches the leaf of 65. -/
theorem test_walkInt_byte :
    view (fun t => (t.out.bits, t.phase, t.regs.cur))
      (exec .walkInt (readingBits ((treeA .dInt).setRegs { (treeA .dInt).regs with cur := 5 }) [true])) =
      some (digits [0, 1, 0, 0, 0, 0, 0, 1], .dRoot, 6) := by
  decide +kernel

/-- VD1: bit 0 there reaches the leaf of 256 and the walk ends, writing nothing. -/
theorem test_walkInt_terminator :
    view (fun t => (t.out.bits, t.phase, t.flags.err))
      (exec .walkInt (readingBits ((treeA .dInt).setRegs { (treeA .dInt).regs with cur := 5 }) [false])) =
      some ([], .close, .none) := by
  decide +kernel

/-- P3: STATUS is `0x6` at the end of a FormatError. -/
theorem test_closePhase_p3 :
    view (fun t => (t.statusWord, t.out.closed, t.phase, t.trace))
      (exec .closePhase { inPhase .close with flags := { busy := true, done := false, err := .format } }) =
      some (0x6, true, .idle, [.close]) := by
  decide +kernel

/-! ### The stream transactions -/

/-- VS12: the first and the last answer. -/
theorem test_readByte_vs12 :
    view (fun t => (t.inp.rsp, t.inp.pos)) (exec .readByte (readingBytes start [0x41, 0x42])) =
      some (some (.byte 65), 1) ∧
    view (fun t => (t.inp.rsp, t.inp.pos))
      (exec .readByte { start with inp := { data := .bytes [0x41, 0x42], pos := 2, req := none, rsp := none } }) =
      some (some .endOfData, 2) := by
  decide +kernel

/-- VS13: the first answer on the byte stream `A0`. -/
theorem test_readBit_vs13 :
    view (fun t => (t.inp.rsp, t.inp.pos)) (exec .readBit (readingBytes start [0xA0])) =
      some (some (.bit true), 1) := by
  decide +kernel

/-- VS14. -/
theorem test_reset_vs14 :
    view (fun t => (t.inp.pos, t.inp.data))
      (exec .reset { start with inp := { data := .bytes [0x41, 0x42], pos := 2, req := none, rsp := none } }) =
      some (0, .bytes [0x41, 0x42]) := by
  decide +kernel

/-- VS6: only the low 8 bits. -/
theorem test_writeBits_vs6 :
    view (fun t => t.out.bits) (exec (.writeBits 8 300) start) = some (digits [0, 0, 1, 0, 1, 1, 0, 0]) := by
  decide +kernel

/-- R53, R13: `bits(257, 1)`, 256 zeros and a 1. -/
theorem test_writeBits_width_257 :
    view (fun t => t.out.bits) (exec (.writeBits 257 1) start) = some (List.replicate 256 false ++ [true]) := by
  decide +kernel

/-- R55. -/
theorem test_close : view (fun t => (t.out.closed, t.out.bits)) (exec .close start) = some (true, []) := by
  decide +kernel

/-- VD26's two walk bits, then the end: one read, one write, twice, and the `END`. -/
theorem test_walkTrace_vd26 :
    walkTrace (.leaf 511) (.leaf 511) [true, false] =
      [.readBit (some true), .writeBits 8 255, .readBit (some false), .writeBits 8 255, .readBit none] := by
  decide

/-! ### The wire tokens -/

/-- R81, R201: one wrong bit. -/
theorem test_m_wrong :
    view (fun t => (t.phase, t.flags.err)) (exec (.m 0xFACE8200) (readingBits (inPhase .dMark) markerBits)) =
      some (.close, .format) := by
  decide +kernel

/-- VI13: the store is full. -/
theorem test_n_full :
    view (fun t => (t.phase, t.flags.err))
      (exec .n ((readingBits (inPhase .dHdr) [false]).setRegs { start.regs with nnodes := 513 })) =
      some (.close, .corruptHeader) := by
  decide +kernel

/-- VI10, R144: `L(300)` is accepted. -/
theorem test_l_vi10 :
    view (fun t => (t.treeAt 1 0, t.regs.root, t.regs.nnodes, t.phase))
      (exec (.l 300) (readingBits (inPhase .dHdr) [true])) = some (some (.leaf 300), 0, 1, .dRoot) := by
  decide +kernel

/-- VG1: the code `00` leads to 66. -/
theorem test_c_vg1 :
    view (fun t => (t.out.bits, t.phase, t.inp.pos))
      (exec (.c (digits [0, 0])) (readingBits (treeA .dRoot) (digits [0, 0]))) =
      some (digits [0, 1, 0, 0, 0, 0, 1, 0], .dRoot, 2) := by
  decide +kernel

/-- VG1: the code `10` is the terminator. -/
theorem test_t_vg1 :
    view (fun t => (t.out.bits, t.phase)) (exec (.t (digits [1, 0])) (readingBits (treeA .dRoot) (digits [1, 0]))) =
      some ([], .close) := by
  decide +kernel

/-! ### States and operands that meet the hypotheses of the obligations -/

/-- A view of the next state names that state. -/
theorem next_of_view_eq {α : Type} {f : State → α} {y : α} {a : Answer State} (h : view f a = some y) :
    ∃ t, a = .next t ∧ f t = y := by
  cases a with
  | next s => exact ⟨s, rfl, by simpa [view] using h⟩
  | fault r => simp [view] at h
  | refused r => simp [view] at h

/-- `start` with all of IN's fields given. -/
def readAt (d : InData) (k : Nat) : State := { start with inp := { data := d, pos := k, req := none, rsp := none } }

/-- Node `i` of the right comb of 257 leaves (VI14), the deepest tree. -/
def combNode (i : Nat) : Node :=
  if i % 2 = 1 then .leaf (BitVec.ofNat 9 (i / 2)) 0
  else if i = 512 then .leaf 256 0
  else .inner 0 (BitVec.ofNat 10 (i + 1)) (BitVec.ofNat 10 (i + 2))

/-- The comb in the node store, its root at 0. -/
def comb : State := { inPhase .cGen with node := Vector.ofFn fun i => combNode i.val }

/-- The comb's shape, from the leaf of `256 - k` on. -/
def combShape : Nat → CodeTree
  | 0 => .leaf 256
  | k + 1 => .node (.leaf (BitVec.ofNat 9 (255 - k))) (combShape k)

theorem test_witness_CommandAcceptedExactlyInIdle :
    start.phase = .idle ∧ (inPhase .cCount).phase ≠ .idle ∧
    (start.offer 0).Ready ∧ (start.offer 0).cmd = some 0 ∧ (start.offer 3).Ready ∧ (start.offer 3).cmd = some 3 :=
  ⟨rfl, by decide, ⟨rfl, rfl, rfl⟩, rfl, ⟨rfl, rfl, rfl⟩, rfl⟩

theorem test_witness_CommandOfferedWhileBusyIsHeldOff :
    (inPhase .close).phase ≠ .idle ∧ ∃ t, step (inPhase .close) = .next t :=
  ⟨by decide, next_of_view (by decide +kernel)⟩

theorem test_witness_StepRunsTheSelectedInstruction :
    decode .inOp (bits 2 (0 : BitVec 2).toNat) = .ok (.readByte, []) ∧
    decode .outOp (false :: (bits 9 (2 : BitVec 9).toNat ++ bits 256 (3 : BitVec 256).toNat)) =
      .ok (.writeBits 2 3, []) ∧
    (start.offer 1).Ready ∧ decode .cmd (bits 2 (1 : BitVec 2).toNat) = .ok (.compress, []) ∧
    (inPhase .cMark).Quiet ∧ decode .phase (bits 4 (inPhase .cMark).phase.code.toNat) = .ok (.cMark, []) ∧
    start.Ready ∧ start.cmd = none :=
  ⟨by decide, by decide +kernel, ⟨rfl, rfl, rfl⟩, by decide, ⟨rfl, rfl⟩, by decide, ⟨rfl, rfl, rfl⟩, rfl⟩

theorem test_witness_PhaseSelectsItsOperation : ∀ p : Phase, (inPhase p).Quiet ∧ (inPhase p).phase = p :=
  fun _ => ⟨⟨rfl, rfl⟩, rfl⟩

theorem test_witness_DecodeInvertsEncode :
    (Instr.writeBits 511 1).WellFormed ∧ (Instr.writeBits 511 1).format ≠ .code ∧
    (Instr.writeBits 511 1).format ≠ .terminator ∧ (Instr.c (List.replicate 256 true)).WellFormed := by
  decide +kernel

theorem test_witness_DecodeAcceptsOnlyEncodings :
    decode .header [true, true, true, true, true, true, true, true, true, true] = .ok (.l 511, []) ∧
    decode .header [false] = .ok (.n, []) := by
  decide +kernel

theorem test_witness_ReadByteAnswersTheNextByteOrEnd :
    (InData.bytes [1, 2]).asBytes 1 = some [1, 2] ∧ ([1, 2] : List Byte)[1]? = some 2 ∧
    (InData.bytes [1, 2]).asBytes 2 = some [1, 2] ∧ 2 = ([1, 2] : List Byte).length ∧
    (InData.bits (digits [0, 1, 0, 0, 0, 0, 0, 1])).asBytes 0 = some [0x41] := by
  decide +kernel

theorem test_witness_ReadBitAnswersTheNextBitOrEnd :
    (InData.bits [true, false]).asBits 1 = some [true, false] ∧ [true, false][1]? = some false ∧
    (InData.bits [true, false]).asBits 2 = some [true, false] ∧ 2 = [true, false].length ∧
    (InData.bytes [0xA0]).asBits 0 = some (digits [1, 0, 1, 0, 0, 0, 0, 0]) := by
  decide +kernel

theorem test_witness_ReadFieldInvertsWriteBits :
    32 ≤ 32 ∧ markerBits = bits 32 0xFACE8201 ++ [] ∧ (markerBits.take 31).length < 32 ∧
    ([] : Bits) = bits 0 0 ++ [] := by
  decide +kernel

theorem test_witness_MixedStreamUseIsRefused :
    ((readAt (.bits [true]) 0).inp.pos ≠ 0 ∨ [true].length % 8 ≠ 0) ∧
    ((readAt (.bits (digits [0, 0, 0, 0, 0, 0, 0, 0])) 8).inp.pos ≠ 0) ∧
    (readAt (.bytes [65]) 1).inp.pos ≠ 0 :=
  ⟨.inr (by decide), by decide, by decide⟩

theorem test_witness_CountTalliesEveryByte :
    (readAt (.bytes [65]) 0).inp.data.asBytes 0 = some [65] ∧ 0 ≤ ([65] : List Byte).length ∧
    (readAt (.bytes [65]) 1).inp.data.asBytes 1 = some [65] ∧ 1 ≤ ([65] : List Byte).length := by
  decide

/-- VF5: every count is 1. -/
def fullTable : State := { start with freq := Vector.replicate 257 1 }

theorem fullTable_symbols : fullTable.symbols = List.range 257 := by
  refine List.filter_eq_self.mpr fun y hy => ?_
  have h : y < 257 := List.mem_range.mp hy
  simp [State.freqOf, fullTable, h]

/-- One symbol and all 257 of them (VB2, VB8). -/
theorem test_witness_BuildMakesOneTreeOfAllCountedSymbols :
    0 < (withCounts start [(256, 1)]).symbols.length ∧ 0 < fullTable.symbols.length :=
  ⟨by decide +kernel, by rw [fullTable_symbols, List.length_range]; decide⟩

/-- VB8: the last leaf of a full table. -/
theorem test_witness_BuildPutsLeavesInSymbolOrder :
    (∃ t, exec .build fullTable = .next t) ∧ fullTable.symbols[256]? = some 256 :=
  ⟨⟨_, rfl⟩, by rw [fullTable_symbols, List.getElem?_range (by decide)]⟩

/-- VB1: the first and the last internal node. -/
theorem test_witness_BuildMergesTheTwoLightest :
    (∃ t, exec .build countsA = .next t) ∧
    countsA.symbols.length ≤ (4 : Idx).toNat ∧ (4 : Idx).toNat < 2 * countsA.symbols.length - 1 ∧
    countsA.symbols.length ≤ (6 : Idx).toNat ∧ (6 : Idx).toNat < 2 * countsA.symbols.length - 1 :=
  ⟨⟨_, rfl⟩, by decide +kernel⟩

theorem test_witness_BuildWeightsAreSaturatedLeafSums :
    ∃ t, exec .build countsA = .next t ∧
      (decide ((6 : Idx).toNat < t.regs.nnodes.toNat), t.treeAt (Config.codeMax + 1) 6) = (true, some shapeA) :=
  next_of_view_eq (by decide +kernel)

theorem test_witness_GencodesStoresEveryPathAsItsCode :
    (treeA .cGen).treeAt (Config.codeMax + 1) (treeA .cGen).regs.root = some shapeA ∧ shapeA.leaves.Nodup ∧
    (∀ y ∈ shapeA.leaves, y.toNat ≤ 256) ∧ (65, [true, true]) ∈ shapeA.codes ∧
    (0 : Sym) ∉ shapeA.leaves ∧ ((treeA .cGen).codeAt 0).isSome = true := by
  decide +kernel

theorem comb_nodeAt (i : Nat) (h : i < 513) : comb.nodeAt (BitVec.ofNat 10 i) = some (combNode i) := by
  have h2 : i % 1024 = i := by omega
  simp [State.nodeAt, comb, h2, h]

theorem treeAt_of_combNodes (s : State) (hs : ∀ i, i < 513 → s.nodeAt (BitVec.ofNat 10 i) = some (combNode i))
    (k : Nat) (h : k ≤ 256) : s.treeAt (k + 1) (BitVec.ofNat 10 (512 - 2 * k)) = some (combShape k) := by
  induction k with
  | zero => rw [State.treeAt, hs _ (by omega)]; rfl
  | succ k ih =>
    have h0 : combNode (512 - 2 * (k + 1)) =
        .inner 0 (BitVec.ofNat 10 (512 - 2 * (k + 1) + 1)) (BitVec.ofNat 10 (512 - 2 * k)) := by
      have h3 : 512 - 2 * (k + 1) + 2 = 512 - 2 * k := by omega
      rw [combNode, if_neg (by omega), if_neg (by omega), h3]
    have h1 : combNode (512 - 2 * (k + 1) + 1) = .leaf (BitVec.ofNat 9 (255 - k)) 0 := by
      have h2 : (512 - 2 * (k + 1) + 1) / 2 = 255 - k := by omega
      rw [combNode, if_pos (by omega), h2]
    have hl : s.treeAt (k + 1) (BitVec.ofNat 10 (512 - 2 * (k + 1) + 1)) = some (.leaf (BitVec.ofNat 9 (255 - k))) := by
      rw [State.treeAt, hs _ (by omega), h1]
    rw [State.treeAt, hs _ (by omega), h0]
    simp only [hl, ih (by omega), combShape]

theorem combShape_leaves (k : Nat) (h : k ≤ 256) :
    (combShape k).leaves = (List.range' (256 - k) (k + 1)).map (BitVec.ofNat 9) := by
  induction k with
  | zero => rfl
  | succ k ih =>
    have h1 : 256 - (k + 1) = 255 - k := by omega
    have h2 : 255 - k + 1 = 256 - k := by omega
    rw [combShape, CodeTree.leaves, ih (by omega), h1, List.range'_succ (n := k + 1), h2]
    rfl

/-- The deepest tree, whose longest code has 256 bits, and the one-leaf tree (R127). -/
theorem test_witness_GencodesStoresEveryPathAsItsCode_edges :
    (∃ r, comb.treeAt (Config.codeMax + 1) r = some (combShape 256)) ∧
    (combShape 256).leaves.Nodup ∧ (∀ y ∈ (combShape 256).leaves, y.toNat ≤ 256) ∧
    (oneLeaf 256 .cGen).treeAt (Config.codeMax + 1) 0 = some (.leaf 256) := by
  refine ⟨⟨_, treeAt_of_combNodes comb comb_nodeAt 256 (Nat.le_refl _)⟩, ?_, ?_, by decide +kernel⟩
  · rw [combShape_leaves 256 (Nat.le_refl _)]
    refine List.Nodup.map_on ?_ List.nodup_range'
    intro a ha b hb hab
    rw [List.mem_range'_1] at ha hb
    have := congrArg BitVec.toNat hab
    rw [BitVec.toNat_ofNat, BitVec.toNat_ofNat] at this
    omega
  · intro y hy
    rw [combShape_leaves 256 (Nat.le_refl _), List.mem_map] at hy
    obtain ⟨a, ha, rfl⟩ := hy
    rw [List.mem_range'_1] at ha
    rw [BitVec.toNat_ofNat]
    omega

theorem test_witness_CodeTableIsPrefixFree :
    ∃ t, exec .gencodes (treeA .cGen) = .next t ∧
      ((t.codeAt 65).map CodeEntry.valid, (t.codeAt 66).map CodeEntry.valid) = (some true, some true) :=
  next_of_view_eq (by decide +kernel)

/-- Both cases of the sum. -/
theorem test_witness_CodeLengthsMeetKraftEquality :
    (∃ t, exec .gencodes (treeA .cGen) = .next t) ∧ shapeA.leaves.length ≠ 1 ∧
    (∃ t, exec .gencodes (oneLeaf 256 .cGen) = .next t) ∧ (CodeTree.leaf 256).leaves.length = 1 :=
  ⟨next_of_view (by decide +kernel), by decide, next_of_view (by decide +kernel), by decide⟩

theorem test_witness_HdrserAppendsTheSerializedTree :
    (treeA .cHdr).treeAt Config.nodeCap (treeA .cHdr).regs.root = some shapeA := by
  decide +kernel

theorem test_witness_SerializationIsSelfDelimiting : shapeA.ser ++ [true] = headerA ++ [true] := by decide +kernel

/-- A tree of exactly `NODE_CAP` nodes. -/
theorem test_witness_DeserializeInvertsSerialize :
    (combShape 256).size = Config.nodeCap ∧ (CodeTree.leaf 0).size ≤ Config.nodeCap := by
  decide +kernel

/-- VI1, VI4 and VI9; VI13, whose 513 tokens are there, and VI12, whose 512 are not enough. -/
theorem test_witness_HdrdesComputesDes :
    (InData.bits headerA).asBits 0 = some headerA ∧ desCapped headerA = some (shapeA, []) ∧
    desCapped (headerA.take 42) = none ∧ headerTokens Config.nodeCap (headerA.take 42) = none ∧ desCapped [] = none := by
  decide +kernel

theorem test_witness_HdrdesComputesDes_capacity :
    desCapped (List.replicate 600 false) = none ∧
    headerTokens Config.nodeCap (List.replicate 600 false) = some (List.replicate 513 false) ∧
    desCapped (List.replicate 512 false) = none ∧
    headerTokens Config.nodeCap (List.replicate 512 false) = none := by
  decide +kernel

theorem test_witness_EncodeWritesTheCodeOfEveryByte :
    (InData.bytes [65, 67]).asBytes 0 = some [65, 67] ∧
    (∀ b ∈ ([65, 67] : List Byte).drop 0, ((codesA .cEnc).codeOfByte b).valid = true) ∧
    ∀ b ∈ ([65, 67] : List Byte).drop 2, ((codesA .cEnc).codeOfByte b).valid = true := by
  decide +kernel

theorem test_witness_EncodeStopsAtAByteWithoutACode :
    ∃ b ∈ ([65, 68] : List Byte).drop 0, ((codesA .cEnc).codeOfByte b).valid = false :=
  ⟨68, by decide, by decide +kernel⟩

theorem test_witness_TerminatorIsWrittenAndCloseEndsTheCommand :
    (codesA .cTerm).codeAt 256 = some ⟨true, 2, 2⟩ := by
  decide +kernel

/-- 32 bits, right and wrong, and 31. -/
theorem test_witness_DMarkAcceptsExactlyTheMarker :
    (InData.bits markerBits).asBits 0 = some markerBits ∧ 0 + 32 ≤ markerBits.length ∧
    BitVec.ofNat 32 (val markerBits) = start.marker ∧ BitVec.ofNat 32 (val (List.replicate 32 false)) ≠ start.marker ∧
    (markerBits.take 31).length < 0 + 32 := by
  decide +kernel

/-- The end of the stream; a move to an internal node, to a leaf, to the leaf of 256; a leaf as the root. -/
theorem test_witness_WalkFollowsItsTransitionTable :
    [true].drop 1 = [] ∧ [true][0]? = some true ∧
    (treeA .dRoot).nodeAt (treeA .dRoot).regs.root = some (.inner 5 4 5) ∧
    (treeA .dRoot).nodeAt 5 = some (.inner 3 3 0) ∧
    (treeA .dInt).nodeAt 0 = some (.leaf 65 2) ∧ (65 : Sym) ≠ 256 ∧ (treeA .dInt).nodeAt 3 = some (.leaf 256 1) ∧
    (oneLeaf 65 .dRoot).nodeAt (oneLeaf 65 .dRoot).regs.root = some (.leaf 65 1) := by
  decide +kernel

theorem test_witness_TokensAreWrittenAsTheirBits :
    (inPhase .cHdr).phase.compressing = true ∧ (Instr.m 0).WellFormed ∧ Instr.n.WellFormed ∧
    (Instr.l 511).WellFormed ∧ (Instr.c [true]).WellFormed ∧ (Instr.t [false]).WellFormed := by
  decide

theorem test_witness_MarkerTokenIsChecked :
    (inPhase .dMark).phase.compressing = false ∧ (InData.bits markerBits).asBits 0 = some markerBits ∧
    (0xFACE8201 : BitVec 32) = start.marker ∧ (0 : BitVec 32) ≠ start.marker ∧
    bits 32 (0xFACE8201 : BitVec 32).toNat <+: markerBits.drop 0 := by
  decide +kernel

/-- The store with one entry left, and full. -/
theorem test_witness_NodeTokenReservesANode :
    (inPhase .dHdr).phase.compressing = false ∧ (InData.bits [false]).asBits 0 = some [false] ∧
    (512 : Idx).toNat < 513 ∧ 513 ≤ (513 : Idx).toNat := by
  decide

/-- A header being read, with `n` nodes and the open nodes `st`. -/
def openHeader (n : Idx) (st : List (Idx × BitVec 2)) : State :=
  { readingBits (inPhase .dHdr) [true] with stk := st, regs := { start.regs with nnodes := n } }

/-- No open node; the innermost waiting for its left subtree; two waiting for their right ones, alone or inside one that
waits for its left one; the store full. -/
theorem test_witness_LeafTokenMakesALeaf :
    (∀ n st, (openHeader n st).phase.compressing = false ∧
      (openHeader n st).inp.data.asBits (openHeader n st).inp.pos = some [true] ∧
      (openHeader n st).regs.nnodes = n ∧ (openHeader n st).stk = st) ∧
    (512 : Idx).toNat < 513 ∧ (∀ e ∈ ([] : List (Idx × BitVec 2)), e.1 ≠ (512 : Idx)) ∧
    (∀ e ∈ ([(0, 0)] : List (Idx × BitVec 2)), e.1 ≠ (1 : Idx)) ∧
    (∀ e ∈ ([(511, 1), (2, 1)] : List (Idx × BitVec 2)), e.1 ≠ (512 : Idx) ∧ e.1.toNat < 513 ∧ e.2 ≠ 0) ∧
    (([(511, 1), (2, 1)] : List (Idx × BitVec 2)).map Prod.fst).Nodup ∧
    (∀ e ∈ ([(511, 1), (2, 1)] ++ [(0, 0)] : List (Idx × BitVec 2)), e.1 ≠ (512 : Idx)) ∧
    (∀ e ∈ ([(0, 0)] : List (Idx × BitVec 2)).head?, e.2 = 0) ∧
    513 ≤ (513 : Idx).toNat :=
  ⟨fun _ _ => ⟨rfl, rfl, rfl, rfl⟩, by decide, fun _ he => absurd he List.not_mem_nil, by simp, by simp, by simp, by simp,
    by simp, by decide⟩

theorem test_witness_CodeTokenWalksToItsLeaf :
    (treeA .dRoot).phase.compressing = false ∧ (InData.bits [true, true]).asBits 0 = some [true, true] ∧
    (treeA .dRoot).treeAt Config.nodeCap (treeA .dRoot).regs.root = some shapeA ∧
    (65, [true, true]) ∈ shapeA.codes ∧ (65 : Sym) ≠ 256 ∧ (256, [true, false]) ∈ shapeA.codes ∧
    (256, [false]) ∈ (CodeTree.leaf 256).codes := by
  decide +kernel

/-- A step from every phase. -/
theorem test_witness_steps : ∀ p : Phase, (treeA p).Quiet ∧ ∃ t, step (treeA p) = .next t := by
  intro p
  refine ⟨⟨rfl, rfl⟩, next_of_view ?_⟩
  cases p <;> decide +kernel

/-- The steps that change `err`: each error raised, and a command accepted after one. -/
theorem test_witness_EachErrorIsRaisedOnlyInItsPhase :
    (∃ t, step (inPhase .dMark) = .next t ∧ t.flags.err = .format) ∧
    (∃ t, step (inPhase .dHdr) = .next t ∧ t.flags.err = .corruptHeader) ∧
    (∃ t, step (treeA .dRoot) = .next t ∧ t.flags.err = .truncatedBody) ∧
    (∃ t, step { start.offer 1 with flags := { busy := false, done := true, err := .format } } = .next t ∧
      t.flags.err = .none) :=
  ⟨next_of_view_eq (by decide +kernel), next_of_view_eq (by decide +kernel), next_of_view_eq (by decide +kernel),
    next_of_view_eq (by decide +kernel)⟩

/-- A state of the walk that meets the invariant, with the node store full and IN read to its end. -/
theorem test_witness_EveryStepKeepsTheInvariant :
    { inPhase .dRoot with
      flags := flagsAccepted
      regs := { start.regs with nnodes := 513, bitcnt := 32, plen := 256 }
      inp := { data := .bits [true], pos := 1, req := none, rsp := none } }.Inv := by
  refine ⟨?_, ?_, ?_, rfl, rfl, ?_, ?_, ?_, ?_⟩ <;> decide

/-- The trees of the phases from C_GEN to C_HDR, and of the walk. -/
theorem test_witness_EveryStepKeepsTheTrees :
    0 < (countsA.freqOf 256).toNat ∧ countsA.TreeInv ∧ (treeA .cGen).TreeInv ∧ (treeA .cHdr).TreeInv ∧
    (treeA .dRoot).TreeInv ∧ (treeA .dInt).TreeInv := by
  have hc : (treeA .cGen).treeAt (Config.codeMax + 1) 6 = some shapeA := by decide +kernel
  have hh : (treeA .cHdr).treeAt (Config.codeMax + 1) 6 = some shapeA := by decide +kernel
  have hr : (treeA .dRoot).treeAt Config.nodeCap 6 = some shapeA := by decide +kernel
  have hi : (treeA .dInt).treeAt Config.nodeCap 6 = some shapeA := by decide +kernel
  have hp : shapeA.Proper := ⟨by decide, by decide, by decide⟩
  have h0 : 0 < (countsA.freqOf 256).toNat := by decide +kernel
  refine ⟨h0, ⟨fun _ => h0, ?_, ?_, ?_⟩, ⟨?_, fun _ => ⟨_, hc, hp⟩, ?_, ?_⟩, ⟨?_, fun _ => ⟨_, hh, hp⟩, ?_, ?_⟩,
    ⟨?_, ?_, fun _ => ⟨_, hr⟩, ?_⟩, ⟨?_, ?_, fun _ => ⟨_, hi⟩, fun _ => ⟨_, hi⟩⟩⟩ <;>
  exact fun h => absurd h (by decide +kernel)

/-- The states a command can start from: after reset, and after another command. -/
theorem test_witness_commands_start :
    start.Ready ∧ { codesA .idle with flags := { busy := false, done := true, err := .none } }.Ready ∧
    start.marker = (codesA .idle).marker :=
  ⟨⟨rfl, rfl, rfl⟩, ⟨rfl, rfl, rfl⟩, rfl⟩

/-- The table of the empty input's counts (VF1). -/
theorem test_witness_CompressComputesItsFunction :
    (∀ b : Byte, ((withCounts start [(256, 1)]).freqOf b.toNat).toNat = min (([] : List Byte).count b) (2 ^ 32 - 1)) ∧
    (withCounts start [(256, 1)]).freqOf 256 = 1 := by
  decide +kernel

/-- No bit, 31 bits, and the last of 32 bits wrong. -/
theorem test_witness_WrongMarkerIsAlwaysFormatError :
    ([] : Bits).take 32 ≠ bits 32 start.marker.toNat ∧
    (markerBits.take 31).take 32 ≠ bits 32 start.marker.toNat ∧
    (markerBits.take 31 ++ [false]).take 32 ≠ bits 32 start.marker.toNat := by
  decide +kernel

end Sys2Proof.Tests
end

/-! ### Bit sequences as integers (R13, R53) -/

namespace Sys2Proof

/-- The first of `w + 1` digits counts `2 ^ w`, the others are the digits of width `w`. -/
theorem val_bits (w v : Nat) : val (bits w v) = v % 2 ^ w := by
  induction w with
  | zero => simp [Nat.mod_one]
  | succ w ih => rw [bits_succ, val_cons, bits_length, ih, Nat.mod_pow_succ, Nat.toNat_testBit, Nat.mul_comm, Nat.add_comm]

/-- The digits of a value below its leading digit are those of its tail. -/
theorem bits_val (p : Bits) : bits p.length (val p) = p := by
  induction p with
  | nil => rfl
  | cons b p ih =>
    have hbit (k : Nat) : (val (b :: p)).testBit k =
        if k < p.length then (val p).testBit k else b.toNat.testBit (k - p.length) := by
      rw [val_cons, Nat.mul_comm, Nat.testBit_two_pow_mul_add _ (val_lt p)]
    have hhead : (val (b :: p)).testBit p.length = b := by
      rw [hbit, if_neg (Nat.lt_irrefl _), Nat.sub_self]
      cases b <;> rfl
    have htail : bits p.length (val (b :: p)) = bits p.length (val p) :=
      bits_congr _ _ _ fun k hk => by rw [hbit, if_pos hk]
    rw [List.length_cons, bits_succ, hhead, htail, ih]

/-- Settles O13, by induction on the width and on the digits. -/
theorem bitsAndValAreInverse : Obligations.BitsAndValAreInverse := ⟨val_bits, bits_val⟩

end Sys2Proof

namespace Sys2Proof.Machine

/-- Settles O18: the appended bits are `bits(w, v)`, whose positions `bits_getElem?` gives. -/
theorem writeBitsAppendsTheLowBitsMsbFirst : Obligations.WriteBitsAppendsTheLowBitsMsbFirst := by
  intro s w v
  refine ⟨bits w.toNat v.toNat, rfl, bits_length _ _, fun k hk => ?_⟩
  rw [bits_getElem? _ _ _ hk, BitVec.testBit_toNat]

/-! ### What a step runs (R11, R26, R36) -/

/-- `i` is what the step of `s` runs, on the state `u` whose channel or command port has been emptied (R11, R26, R36). -/
inductive Selects (s : State) : Instr → State → Prop
  | input {i op} (hreq : s.inp.req = some op) (hf : i.format = .inOp) :
    Selects s i { s with inp := { s.inp with req := none } }
  | output {i r} (hin : s.inp.req = none) (hreq : s.out.req = some r) (hf : i.format = .outOp) :
    Selects s i { s with out := { s.out with req := none } }
  | command {i op} (hs : s.Ready) (hcmd : s.cmd = some op) (hf : i.format = .cmd) :
    Selects s i { s with cmd := none }
  | phase {i} (hs : s.Quiet) (hp : phaseFor i = s.phase) (hf : i.format = .phase) : Selects s i s

/-- A phase code other than IDLE's decodes to the operation of that phase. -/
theorem decode_phase_operation (p : Phase) (h : p ≠ .idle) :
    ∃ i, decode .phase (bits 4 p.code.toNat) = .ok (i, []) ∧ phaseFor i = p ∧ i.format = .phase := by
  obtain ⟨i, hi⟩ := decode_phase p h
  refine ⟨i, hi, ?_⟩
  cases p with
  | idle => exact absurd rfl h
  | _ => cases hi; exact ⟨rfl, rfl⟩

/-- All a step can do: refuse `in_op` = 11, take a reserved command off the port, wait, or run what is selected. -/
theorem step_cases (s : State) :
    step s = .refused .neverIssued ∨ step s = .next { s with cmd := none } ∨ step s = .next s ∨
      ∃ i u, Selects s i u ∧ step s = exec i u := by
  have run {i u f w rest} (hi : Selects s i u) (hf : s.fetch = some (f, w, u)) (hd : decode f w = .ok (i, rest)) :
      ∃ i u, Selects s i u ∧ step s = exec i u := ⟨i, u, hi, step_of_decode hf hd⟩
  rcases fetch_cases s with ⟨op, hop, hf⟩ | ⟨r, hin, hr, hf⟩ | ⟨hin, hout, hp, ⟨op, hop, hf⟩ | ⟨-, hf⟩⟩ |
    ⟨hin, hout, hp, hf⟩
  · rcases decode_inOp_cases op with hd | hd | hd | hd
    · exact .inr (.inr (.inr (run (.input hop rfl) hf hd)))
    · exact .inr (.inr (.inr (run (.input hop rfl) hf hd)))
    · exact .inr (.inr (.inr (run (.input hop rfl) hf hd)))
    · exact .inl (by simp [step, hf, hd, noInstr])
  · obtain ⟨i, rest, hd, rfl | ⟨w, v, rfl⟩⟩ := decode_outOp_cases r
    · exact .inr (.inr (.inr (run (.output hin hr rfl) hf hd)))
    · exact .inr (.inr (.inr (run (.output hin hr rfl) hf hd)))
  · rcases decode_cmd_cases op with hd | hd | hd
    · exact .inr (.inr (.inr (run (.command ⟨hp, hin, hout⟩ hop rfl) hf hd)))
    · exact .inr (.inr (.inr (run (.command ⟨hp, hin, hout⟩ hop rfl) hf hd)))
    · exact .inr (.inl (by simp [step, hf, hd, noInstr]))
  · exact .inr (.inr (.inl (step_of_idle hf)))
  · obtain ⟨i, hd, hi, hfmt⟩ := decode_phase_operation s.phase hp
    exact .inr (.inr (.inr (run (.phase ⟨hin, hout⟩ hi hfmt) hf hd)))

theorem fetch_of_inReq {s : State} {op : BitVec 2} (h : s.inp.req = some op) :
    s.fetch = some (.inOp, bits 2 op.toNat, { s with inp := { s.inp with req := none } }) := by
  simp [State.fetch, h]

theorem fetch_of_outReq {s : State} {r : OutReq} (hin : s.inp.req = none) (h : s.out.req = some r) :
    s.fetch = some (.outOp, r.op :: (bits 9 r.width.toNat ++ bits 256 r.value.toNat),
      { s with out := { s.out with req := none } }) := by
  simp [State.fetch, hin, h]

theorem fetch_of_ready {s : State} (h : s.Ready) :
    s.fetch = s.cmd.map fun op => (.cmd, bits 2 op.toNat, { s with cmd := none }) := by
  obtain ⟨hp, hin, hout⟩ := h
  cases hc : s.cmd <;> simp [State.fetch, hin, hout, hp, hc]

theorem fetch_of_busy {s : State} (h : s.Quiet) (hp : s.phase ≠ .idle) :
    s.fetch = some (.phase, bits 4 s.phase.code.toNat, s) := by
  rcases fetch_cases s with ⟨op, hop, -⟩ | ⟨r, -, hr, -⟩ | ⟨-, -, hi, -⟩ | ⟨-, -, -, hf⟩
  · simp [h.1] at hop
  · simp [h.2] at hr
  · exact absurd hi hp
  · exact hf

/-- Settles O7: each clause is what `fetch` selects, decoded. -/
theorem stepRunsTheSelectedInstruction : Obligations.StepRunsTheSelectedInstruction := by
  intro s i rest
  refine ⟨fun op h hd => ?_, fun r hin h hd => ?_, fun op hs hc hd => ?_, fun hs hp hd => ?_, fun hs hc => ?_⟩
  · exact step_of_decode (fetch_of_inReq h) hd
  · exact step_of_decode (fetch_of_outReq hin h) hd
  · exact step_of_decode (by rw [fetch_of_ready hs, hc]; rfl) hd
  · exact step_of_decode (fetch_of_busy hs hp) hd
  · exact step_of_idle (by rw [fetch_of_ready hs, hc]; rfl)

/-! ### What a step issues (R12, R53, R58) -/

/-- The bits a transaction appends to OUT (R53). -/
def Txn.written : Txn → Bits
  | .writeBits w v => bits w v
  | .readByte _ | .readBit _ | .reset | .close => []

/-- A transaction that leaves OUT alone. -/
def Txn.OnIn (x : Txn) : Prop := x.written = [] ∧ x ≠ .close

@[simp] theorem Txn.onIn_readByte (b : Option Byte) : Txn.OnIn (.readByte b) := ⟨rfl, nofun⟩
@[simp] theorem Txn.onIn_readBit (b : Option Bool) : Txn.OnIn (.readBit b) := ⟨rfl, nofun⟩
@[simp] theorem Txn.onIn_reset : Txn.OnIn .reset := ⟨rfl, nofun⟩

/-- From `s` to `t` MARKER is the same, the trace only grows, and OUT changes as the new transactions say. -/
structure Issued (new : List Txn) (s t : State) : Prop where
  marker : t.marker = s.marker
  trace : t.trace = s.trace ++ new
  bits : t.out.bits = s.out.bits ++ new.flatMap Txn.written
  closed : t.out.closed = true ↔ s.out.closed = true ∨ Txn.close ∈ new

/-- Transactions on IN alone. -/
theorem issued_onIn {s t : State} {new : List Txn} (hnew : ∀ x ∈ new, x.OnIn) (hm : t.marker = s.marker)
    (ho : t.out.bits = s.out.bits ∧ t.out.closed = s.out.closed) (ht : t.trace = s.trace ++ new) :
    Issued new s t where
  marker := hm
  trace := ht
  bits := by
    have hw : new.flatMap Txn.written = [] := List.flatMap_eq_nil_iff.mpr fun x hx => (hnew x hx).1
    rw [hw, List.append_nil, ho.1]
  closed := by
    have hc : Txn.close ∉ new := fun h => (hnew _ h).2 rfl
    rw [ho.2, or_iff_left hc]

/-- No transaction. -/
theorem issued_nil {s t : State} (hm : t.marker = s.marker) (ho : t.out = s.out) (ht : t.trace = s.trace) :
    Issued [] s t :=
  issued_onIn (by simp) hm (by simp [ho]) (by simp [ht])

theorem issued_writeBits (s : State) (w v : Nat) : Issued [.writeBits w v] s (s.writeBits w v) where
  marker := rfl
  trace := rfl
  bits := by simp [State.writeBits, Txn.written]
  closed := by simp [State.writeBits]

theorem Issued.trans {s t u : State} {new new' : List Txn} (h : Issued new s t) (k : Issued new' t u) :
    Issued (new ++ new') s u where
  marker := k.marker.trans h.marker
  trace := by rw [k.trace, h.trace, List.append_assoc]
  bits := by rw [k.bits, h.bits, List.append_assoc, List.flatMap_append]
  closed := by rw [k.closed, h.closed, List.mem_append, or_assoc]

/-- `t` follows `s` by some transactions, which explain what it did to OUT. -/
def Explained (s t : State) : Prop := ∃ new, Issued new s t

theorem Explained.trans {s t u : State} : Explained s t → Explained t u → Explained s u
  | ⟨_, h⟩, ⟨_, k⟩ => ⟨_, h.trans k⟩

theorem explained_of_same {s t : State} (hm : t.marker = s.marker) (ho : t.out = s.out) (ht : t.trace = s.trace) :
    Explained s t :=
  ⟨[], issued_nil hm ho ht⟩

/-- Fields other than MARKER, OUT and the trace do not matter where the transactions begin. -/
theorem Explained.of_same {s t u : State} (h : Explained u t) (hm : u.marker = s.marker) (ho : u.out = s.out)
    (ht : u.trace = s.trace) : Explained s t :=
  (explained_of_same hm ho ht).trans h

theorem explained_setPhase (s : State) (p : Phase) : Explained s (s.setPhase p) := explained_of_same rfl rfl rfl

theorem explained_raise (s : State) (e : ErrKind) : Explained s (s.raise e) := explained_of_same rfl rfl rfl

theorem explained_freeSym (s : State) : Explained s s.freeSym := explained_of_same rfl rfl rfl

theorem explained_writeBits (s : State) (w v : Nat) : Explained s (s.writeBits w v) := ⟨_, issued_writeBits s w v⟩

theorem explained_closeOut (s : State) : Explained s s.closeOut :=
  ⟨[.close], rfl, rfl, by simp [State.closeOut, Txn.written], by simp [State.closeOut]⟩

theorem explained_tookByte (s : State) (b : Byte) : Explained s (s.tookByte b) :=
  ⟨[.readByte (some b)], issued_onIn (by simp) rfl ⟨rfl, rfl⟩ rfl⟩

theorem explained_tookBit (s : State) (b : Bool) : Explained s (s.tookBit b) :=
  ⟨[.readBit (some b)], issued_onIn (by simp) rfl ⟨rfl, rfl⟩ rfl⟩

theorem explained_sawByteEnd (s : State) : Explained s s.sawByteEnd :=
  ⟨[.readByte none], issued_onIn (by simp) rfl ⟨rfl, rfl⟩ rfl⟩

theorem explained_sawBitEnd (s : State) : Explained s s.sawBitEnd :=
  ⟨[.readBit none], issued_onIn (by simp) rfl ⟨rfl, rfl⟩ rfl⟩

theorem explained_rewind (s : State) : Explained s s.rewind :=
  ⟨[.reset], issued_onIn (by simp) rfl ⟨rfl, rfl⟩ rfl⟩

/-! #### The shared operations -/

/-- Only the refusal can hide what `k` answers on the bits of IN. -/
theorem withBits_answer {s : State} {k : State → Answer State} {a : Answer State} (h : s.withBits k = a)
    (ha : a ≠ .refused .mixedStreamUse) : ∃ b, k { s with inp := { s.inp with data := .bits b } } = a := by
  rcases withBits_cases s k with ⟨-, e⟩ | ⟨b, -, e⟩
  · exact absurd (h.symm.trans e) ha
  · exact ⟨b, e.symm.trans h⟩

theorem withBytes_answer {s : State} {k : State → Answer State} {a : Answer State} (h : s.withBytes k = a)
    (ha : a ≠ .refused .mixedStreamUse) : ∃ x, k { s with inp := { s.inp with data := .bytes x } } = a := by
  rcases withBytes_cases s k with ⟨-, e⟩ | ⟨x, -, e⟩
  · exact absurd (h.symm.trans e) ha
  · exact ⟨x, e.symm.trans h⟩

theorem explained_of_withBits {s t : State} {k : State → Answer State} (h : s.withBits k = .next t)
    (hk : ∀ u, k u = .next t → Explained u t) : Explained s t := by
  obtain ⟨b, h⟩ := withBits_answer h nofun
  exact (hk _ h).of_same rfl rfl rfl

theorem explained_of_withBytes {s t : State} {k : State → Answer State} (h : s.withBytes k = .next t)
    (hk : ∀ u, k u = .next t → Explained u t) : Explained s t := by
  obtain ⟨x, h⟩ := withBytes_answer h nofun
  exact (hk _ h).of_same rfl rfl rfl

/-- A field read into `acc` issues reads of bits alone. -/
theorem explained_readField (s : State) (n : Nat) (bs : Bits) : Explained s (s.readField n bs).2 := by
  rw [readField_eq]
  refine ⟨_, issued_onIn ?_ rfl ⟨rfl, rfl⟩ (List.append_assoc _ _ _)⟩
  intro x hx
  rcases List.mem_append.mp hx with hx | hx
  · obtain ⟨b, -, rfl⟩ := List.mem_map.mp hx
    exact Txn.onIn_readBit _
  · split at hx
    · cases hx
    · cases List.mem_singleton.mp hx
      exact Txn.onIn_readBit _

/-! #### COMPRESS -/

theorem explained_command (s : State) (p : Phase) : Explained s (s.command p) := by
  rw [State.command]
  split <;> exact explained_of_same rfl rfl rfl

theorem explained_countLoop (rs : List Byte) (s : State) : Explained s (countLoop rs s) := by
  induction rs generalizing s with
  | nil => exact explained_sawByteEnd s
  | cons r rs ih =>
    have hbyte : Explained s ((s.tookByte r).countByte r) :=
      (explained_tookByte s r).trans (explained_of_same rfl rfl rfl)
    rw [countLoop]
    exact hbyte.trans (ih _)

theorem explained_addLeaves (s : State) : Explained s s.addLeaves := by
  rw [State.addLeaves, addLeaves_frame]
  exact explained_of_same rfl rfl rfl

theorem explained_mergeLoop (k : Nat) (s : State) : Explained s (mergeLoop k s) := by
  rw [mergeLoop_frame]
  exact explained_of_same rfl rfl rfl

theorem explained_takeRoot (s : State) : Explained s s.takeRoot := by
  rw [State.takeRoot]
  split <;> exact explained_of_same rfl rfl rfl

theorem explained_buildTree (s : State) : Explained s s.buildTree := by
  have hleaves : Explained s s.startBuild.addLeaves := (explained_addLeaves _).of_same rfl rfl rfl
  exact (hleaves.trans (explained_mergeLoop _ _)).trans (explained_takeRoot _)

theorem explained_ser {k : Nat} {i : Idx} {s t : State} (h : ser k i s = .next t) : Explained s t := by
  induction k generalizing i s t with
  | zero => cases h
  | succ k ih =>
    rw [ser] at h
    split at h
    · cases h
    · cases h
      exact (explained_writeBits s _ _).trans (explained_writeBits _ _ _)
    · obtain ⟨u, hl, hr⟩ := andThen_eq_next h
      exact ((explained_writeBits s _ _).trans (ih hl)).trans (ih hr)

theorem explained_encodeLoop {rs : List Byte} {s t : State} (h : encodeLoop rs s = .next t) : Explained s t := by
  induction rs generalizing s with
  | nil =>
    cases h
    exact explained_sawByteEnd s
  | cons r rs ih =>
    rw [encodeLoop] at h
    split at h
    · have hbyte : Explained s ((s.tookByte r).lookUp r) :=
        (explained_tookByte s r).trans (explained_of_same rfl rfl rfl)
      exact (hbyte.trans (explained_writeBits _ _ _)).trans (ih h)
    · cases h

/-! #### DECOMPRESS -/

theorem explained_checkMarker (s : State) : Explained s s.checkMarker := by
  rw [State.checkMarker]
  split <;> exact explained_of_same rfl rfl rfl

theorem explained_readMarker (s : State) (bs : Bits) : Explained s (s.readMarker bs) := by
  have hread := explained_readField s Config.markerW bs
  rw [State.readMarker]
  split <;> rename_i u e <;> rw [e] at hread
  · exact hread.trans (explained_checkMarker u)
  · exact hread.trans (explained_of_same rfl rfl rfl)

theorem explained_closeSubtree (st : List (Idx × BitVec 2)) (i : Idx) (s : State) :
    Explained s (closeSubtree st i s) := by
  rw [(closeSubtree_frame st i s).1]
  exact explained_of_same rfl rfl rfl

theorem explained_leafField (s : State) (i : Idx) (bs : Bits) : Explained s (s.leafField i bs) := by
  refine (explained_readField s Config.symW bs).trans ?_
  rcases leafField_cases s i bs with ⟨-, e⟩ | ⟨-, e⟩ <;> rw [e]
  · exact (explained_closeSubtree _ _ _).of_same rfl rfl rfl
  · exact explained_of_same rfl rfl rfl

theorem explained_headerToken (s : State) : Explained s s.headerToken := by
  have hraise (u : State) : Explained u (u.raise .corruptHeader) := explained_of_same rfl rfl rfl
  have hreserve : Explained s s.reserve := explained_of_same rfl rfl rfl
  rw [State.headerToken]
  split
  · exact hraise s
  · split
    · exact (hreserve.trans (explained_sawBitEnd _)).trans (hraise _)
    · rw [State.tokenN]
      split
      · exact hraise s
      · exact (hreserve.trans (explained_tookBit _ _)).trans (explained_of_same rfl rfl rfl)
    · rw [State.tokenL]
      split
      · exact hraise s
      · exact (hreserve.trans (explained_tookBit _ _)).trans (explained_leafField _ _ _)

theorem explained_headerLoop (k : Nat) (s : State) : Explained s (headerLoop k s) := by
  induction k generalizing s with
  | zero => exact explained_of_same rfl rfl rfl
  | succ k ih =>
    rw [headerLoop]
    split
    · exact (explained_headerToken s).trans (ih _)
    · exact explained_headerToken s

theorem explained_landOn {s t : State} {n : Idx} (h : s.landOn n = .next t) : Explained s t := by
  rcases landOn_cases s n with ⟨-, e⟩ | ⟨_, _, _, -, e⟩ | ⟨_, -, e⟩ | ⟨y, _, -, -, e⟩ <;> rw [e] at h <;> cases h
  · exact explained_of_same rfl rfl rfl
  · exact explained_of_same rfl rfl rfl
  · exact (explained_writeBits s 8 y.toNat).trans (explained_of_same rfl rfl rfl)

theorem explained_moveBy {s t : State} {b : Bool} (h : s.moveBy b = .next t) : Explained s t := by
  rcases moveBy_cases s b with ⟨-, e⟩ | ⟨_, _, _, -, e⟩ | ⟨_, _, -, e⟩ <;> rw [e] at h
  · cases h
  · exact explained_landOn h
  · exact explained_landOn h

theorem explained_walkStep {s t : State} (h : s.walkStep = .next t) : Explained s t := by
  refine explained_of_withBits h fun u h => ?_
  split at h
  · cases h
    exact (explained_sawBitEnd u).trans (explained_of_same rfl rfl rfl)
  · exact (explained_tookBit u _).trans (explained_moveBy h)

/-! #### The step -/

theorem explained_execReadByte {s t : State} (h : execReadByte s = .next t) : Explained s t := by
  refine explained_of_withBytes h fun u h => ?_
  split at h <;> cases h
  · exact explained_sawByteEnd u
  · exact explained_tookByte u _

theorem explained_execReadBit {s t : State} (h : execReadBit s = .next t) : Explained s t := by
  refine explained_of_withBits h fun u h => ?_
  split at h <;> cases h
  · exact explained_sawBitEnd u
  · exact explained_tookBit u _

theorem explained_execCount {s t : State} (h : execCount s = .next t) : Explained s t := by
  refine explained_of_withBytes h fun u h => ?_
  cases h
  have hclear : Explained u u.clearFreq := explained_of_same rfl rfl rfl
  exact (hclear.trans (explained_countLoop _ _)).trans (explained_of_same rfl rfl rfl)

theorem explained_execGencodes {s t : State} (h : execGencodes s = .next t) : Explained s t := by
  obtain ⟨u, hu, h⟩ := andThen_eq_next h
  cases h
  rw [fillCodes_frame _ _ hu]
  exact explained_of_same rfl rfl rfl

theorem explained_execHdrser {s t : State} (h : execHdrser s = .next t) : Explained s t := by
  obtain ⟨u, hu, h⟩ := andThen_eq_next h
  cases h
  have hclear : Explained s s.clearStk := explained_of_same rfl rfl rfl
  exact (hclear.trans (explained_ser hu)).trans (explained_of_same rfl rfl rfl)

theorem explained_execEncode {s t : State} (h : execEncode s = .next t) : Explained s t := by
  refine explained_of_withBytes h fun u h => ?_
  obtain ⟨v, hv, h⟩ := andThen_eq_next h
  cases h
  exact (explained_encodeLoop hv).trans (explained_of_same rfl rfl rfl)

theorem explained_execDMark {s t : State} (h : execDMark s = .next t) : Explained s t := by
  refine explained_of_withBits h fun u h => ?_
  cases h
  exact explained_readMarker u _

theorem explained_execHdrdes {s t : State} (h : execHdrdes s = .next t) : Explained s t := by
  refine explained_of_withBits h fun u h => ?_
  cases h
  have hstart : Explained u u.startHeader := explained_of_same rfl rfl rfl
  exact (hstart.trans (explained_headerLoop _ _)).trans (explained_of_same rfl rfl rfl)

/-- Every operation of a phase explains what it does to OUT. -/
theorem explained_phaseOperation {i : Instr} {s t : State} (hf : i.format = .phase) (h : exec i s = .next t) :
    Explained s t := by
  cases i with
  | count => exact explained_execCount h
  | build =>
    cases h
    exact ((explained_buildTree s).trans (explained_freeSym _)).trans (explained_setPhase _ _)
  | gencodes => exact explained_execGencodes h
  | cMark =>
    cases h
    exact (explained_writeBits s _ _).trans (explained_of_same rfl rfl rfl)
  | hdrser => exact explained_execHdrser h
  | cRewind =>
    cases h
    exact (explained_rewind s).trans (explained_of_same rfl rfl rfl)
  | encode => exact explained_execEncode h
  | cTerm =>
    cases h
    exact (explained_writeBits s _ _).trans (explained_of_same rfl rfl rfl)
  | dMark => exact explained_execDMark h
  | hdrdes => exact explained_execHdrdes h
  | walk => exact (explained_walkStep (s := s.setCur s.regs.root) h).of_same rfl rfl rfl
  | walkInt => exact explained_walkStep h
  | closePhase =>
    cases h
    exact (explained_closeOut s).trans (explained_of_same rfl rfl rfl)
  | _ => cases hf

/-- So does every transaction asked for on IN. -/
theorem explained_inOperation {i : Instr} {s t : State} (hf : i.format = .inOp) (h : exec i s = .next t) :
    Explained s t := by
  cases i with
  | readByte => exact explained_execReadByte h
  | readBit => exact explained_execReadBit h
  | reset =>
    cases h
    exact explained_rewind s
  | _ => cases hf

/-- So does every transaction asked for on OUT. -/
theorem explained_outOperation {i : Instr} {s t : State} (hf : i.format = .outOp) (h : exec i s = .next t) :
    Explained s t := by
  cases i with
  | writeBits w v =>
    cases h
    exact explained_writeBits s _ _
  | close =>
    cases h
    exact explained_closeOut s
  | _ => cases hf

/-- So does every command. -/
theorem explained_commandOperation {i : Instr} {s t : State} (hf : i.format = .cmd) (h : exec i s = .next t) :
    Explained s t := by
  cases i with
  | compress =>
    cases h
    exact explained_command s _
  | decompress =>
    cases h
    exact explained_command s _
  | _ => cases hf

/-- Taking a request off OUT's channel changes neither its bits nor `closed`. -/
theorem explained_outReqTaken (s : State) : Explained s { s with out := { s.out with req := none } } :=
  ⟨[], issued_onIn (by simp) rfl ⟨rfl, rfl⟩ (List.append_nil _).symm⟩

/-- A step explains what it does to OUT, and keeps MARKER. -/
theorem explained_step {s t : State} (h : step s = .next t) : Explained s t := by
  rcases step_cases s with e | e | e | ⟨i, u, hi, e⟩ <;> rw [e] at h
  · cases h
  · cases h
    exact explained_of_same rfl rfl rfl
  · cases h
    exact explained_of_same rfl rfl rfl
  · cases hi with
    | input _ hf => exact (explained_inOperation hf h).of_same rfl rfl rfl
    | output _ _ hf => exact (explained_outReqTaken s).trans (explained_outOperation hf h)
    | command _ _ hf => exact (explained_commandOperation hf h).of_same rfl rfl rfl
    | phase _ _ hf => exact explained_phaseOperation hf h

/-- Settles O47: every operation keeps MARKER (`explained_step`). -/
theorem noStepChangesTheMarker : Obligations.NoStepChangesTheMarker := by
  intro s t h
  obtain ⟨new, hnew⟩ := explained_step h
  exact hnew.marker

/-- Settles O48: the transactions are those of `explained_step`. -/
theorem outIsAppendOnlyAndTheTraceExplainsIt : Obligations.OutIsAppendOnlyAndTheTraceExplainsIt := by
  intro s t h
  obtain ⟨new, hnew⟩ := explained_step h
  refine ⟨new, hnew.trace, ?_, hnew.closed.symm⟩
  rw [hnew.bits]
  congr 2
  funext x
  cases x <;> rfl

/-! ### The trees in the node store (R16, R32, R168) -/

/-- `T(i)` depends on the node store alone. -/
theorem treeAt_congr {s s' : State} (h : s'.node = s.node) (k : Nat) (i : Idx) : s'.treeAt k i = s.treeAt k i := by
  induction k generalizing i with
  | zero => rfl
  | succ k ih => simp only [State.treeAt, State.nodeAt, h, ih]

theorem treeAt_of_same_node {s s' : State} {k : Nat} {i : Idx} {t : CodeTree} (ht : s.treeAt k i = some t)
    (h : s'.node = s.node) : s'.treeAt k i = some t :=
  (treeAt_congr h k i).trans ht

/-- Where a tree stands, its root's node does, with the subtrees at the children. -/
theorem treeAt_succ_cases {s : State} {k : Nat} {i : Idx} {t : CodeTree} (h : s.treeAt (k + 1) i = some t) :
    (∃ y w, s.nodeAt i = some (.leaf y w) ∧ t = .leaf y) ∨
    (∃ w l r tl tr, s.nodeAt i = some (.inner w l r) ∧ s.treeAt k l = some tl ∧ s.treeAt k r = some tr ∧
      t = .node tl tr) := by
  rw [State.treeAt] at h
  split at h
  · cases h
  · rename_i y w hn
    exact .inl ⟨y, w, hn, (Option.some.inj h).symm⟩
  · rename_i w l r hn
    split at h
    · rename_i tl tr hl hr
      exact .inr ⟨w, l, r, tl, tr, hn, hl, hr, (Option.some.inj h).symm⟩
    · cases h

/-- The node of a tree's root exists. -/
theorem exists_nodeAt_of_treeAt {s : State} {k : Nat} {i : Idx} {t : CodeTree} (h : s.treeAt k i = some t) :
    ∃ v, s.nodeAt i = some v := by
  cases k with
  | zero => cases h
  | succ k =>
    rcases treeAt_succ_cases h with ⟨y, w, hn, -⟩ | ⟨w, l, r, _, _, hn, -⟩
    · exact ⟨_, hn⟩
    · exact ⟨_, hn⟩

/-! #### The traversals of COMPRESS -/

theorem setCode_of_le {s : State} {y : Sym} (p : Bits) (h : y.toNat ≤ 256) : ∃ u, s.setCode y p = .next u :=
  ⟨_, if_pos (Nat.lt_succ_of_le h)⟩

/-- GENCODES traverses a tree of the path register's levels to its end: what it writes, the code table, is not what
`treeAt` reads (R125). -/
theorem gen_answers {k : Nat} {i : Idx} {t : CodeTree} {s : State} (p : Bits) (ht : s.treeAt k i = some t)
    (hy : ∀ y ∈ t.leaves, y.toNat ≤ 256) : ∃ u, gen k i p s = .next u := by
  induction k generalizing i t s p with
  | zero => cases ht
  | succ k ih =>
    rcases treeAt_succ_cases ht with ⟨y, w, hn, rfl⟩ | ⟨w, l, r, tl, tr, hn, hl, hr, rfl⟩
    · rw [gen, hn]
      exact setCode_of_le p (hy y (List.mem_singleton.mpr rfl))
    · obtain ⟨u, hu⟩ := ih (p ++ [false]) hl fun y h => hy y (List.mem_append_left _ h)
      have hr' : u.treeAt k r = some tr := treeAt_of_same_node hr (by rw [gen_frame _ _ _ _ _ hu])
      obtain ⟨v, hv⟩ := ih (p ++ [true]) hr' fun y h => hy y (List.mem_append_right _ h)
      exact ⟨v, by simp only [gen, hn, hu, andThen_next, hv]⟩

theorem fillCodes_answers {s : State} {t : CodeTree} (ht : s.treeAt (Config.codeMax + 1) s.regs.root = some t)
    (hy : ∀ y ∈ t.leaves, y.toNat ≤ 256) : ∃ u, s.fillCodes = .next u := by
  rw [State.fillCodes]
  rcases treeAt_succ_cases ht with ⟨y, w, hn, rfl⟩ | ⟨w, l, r, tl, tr, hn, -⟩ <;> rw [hn]
  · exact setCode_of_le [false] (hy y (List.mem_singleton.mpr rfl))
  · exact gen_answers [] ht hy

/-- The stack of HDRSER has room for a tree of any number of levels up to its own. -/
theorem ser_answers {k m : Nat} {i : Idx} {t : CodeTree} {s : State} (ht : s.treeAt k i = some t) (hk : k ≤ m) :
    ∃ u, ser m i s = .next u := by
  induction k generalizing i t s m with
  | zero => cases ht
  | succ k ih =>
    obtain ⟨m, rfl⟩ : ∃ n, m = n + 1 := ⟨m - 1, by omega⟩
    rcases treeAt_succ_cases ht with ⟨y, w, hn, rfl⟩ | ⟨w, l, r, tl, tr, hn, hl, hr, rfl⟩
    · exact ⟨s.emitL y, by rw [ser, hn]⟩
    · have hl' : s.emitN.treeAt k l = some tl := treeAt_of_same_node hl rfl
      obtain ⟨u, hu⟩ := ih hl' (Nat.le_of_succ_le_succ hk)
      have hr' : u.treeAt k r = some tr := treeAt_of_same_node hr (by rw [ser_frame _ _ _ _ hu]; rfl)
      obtain ⟨v, hv⟩ := ih hr' (Nat.le_of_succ_le_succ hk)
      exact ⟨v, by simp only [ser, hn, hu, andThen_next, hv]⟩

/-! #### The walk -/

theorem landOn_answers {s : State} {n : Idx} {v : Node} (h : s.nodeAt n = some v) : ∃ u, s.landOn n = .next u := by
  rcases landOn_cases s n with ⟨hn, -⟩ | ⟨_, _, _, -, e⟩ | ⟨_, -, e⟩ | ⟨_, _, -, -, e⟩
  · simp [hn] at h
  · exact ⟨_, e⟩
  · exact ⟨_, e⟩
  · exact ⟨_, e⟩

/-- From the root of a tree the walk's move finds its node (R168). -/
theorem moveBy_answers {s : State} {k : Nat} {t : CodeTree} (b : Bool) (h : s.treeAt k s.regs.cur = some t) :
    ∃ u, s.moveBy b = .next u := by
  cases k with
  | zero => cases h
  | succ k =>
    rw [State.moveBy]
    rcases treeAt_succ_cases h with ⟨y, w, hn, -⟩ | ⟨w, l, r, tl, tr, hn, hl, hr, -⟩
    · simp only [hn]
      exact landOn_answers hn
    · simp only [hn]
      obtain ⟨vl, hvl⟩ := exists_nodeAt_of_treeAt hl
      obtain ⟨vr, hvr⟩ := exists_nodeAt_of_treeAt hr
      cases b with
      | false => exact landOn_answers hvl
      | true => exact landOn_answers hvr

theorem walkStep_ne_fault {s : State} {k : Nat} {t : CodeTree} (ht : s.treeAt k s.regs.cur = some t) (f : Fault) :
    s.walkStep ≠ .fault f := by
  intro h
  rcases withBits_cases s _ with ⟨-, e⟩ | ⟨b, hb, -⟩
  · cases e.symm.trans h
  · rcases walkStep_cases s b hb with ⟨-, e⟩ | ⟨x, rest, -, e⟩
    · cases e.symm.trans h
    · obtain ⟨u, hu⟩ := moveBy_answers x
        (treeAt_of_same_node (s' := ({ s with inp := { s.inp with data := .bits b } } : State).tookBit x) ht rfl)
      cases (hu.symm.trans e.symm).trans h

/-! #### The step -/

theorem withBits_ne_fault {s : State} {k : State → Answer State} {f : Fault} (hk : ∀ u, ∃ v, k u = .next v) :
    s.withBits k ≠ .fault f := by
  intro h
  obtain ⟨b, h⟩ := withBits_answer h nofun
  obtain ⟨v, hv⟩ := hk _
  cases hv.symm.trans h

theorem withBytes_ne_fault {s : State} {k : State → Answer State} {f : Fault} (hk : ∀ u, ∃ v, k u = .next v) :
    s.withBytes k ≠ .fault f := by
  intro h
  obtain ⟨x, h⟩ := withBytes_answer h nofun
  obtain ⟨v, hv⟩ := hk _
  cases hv.symm.trans h

theorem execReadByte_ne_fault (s : State) (f : Fault) : execReadByte s ≠ .fault f :=
  withBytes_ne_fault fun _ => by split <;> exact ⟨_, rfl⟩

theorem execReadBit_ne_fault (s : State) (f : Fault) : execReadBit s ≠ .fault f :=
  withBits_ne_fault fun _ => by split <;> exact ⟨_, rfl⟩

theorem execCount_ne_fault (s : State) (f : Fault) : execCount s ≠ .fault f := withBytes_ne_fault fun _ => ⟨_, rfl⟩

theorem execDMark_ne_fault (s : State) (f : Fault) : execDMark s ≠ .fault f := withBits_ne_fault fun _ => ⟨_, rfl⟩

theorem execHdrdes_ne_fault (s : State) (f : Fault) : execHdrdes s ≠ .fault f := withBits_ne_fault fun _ => ⟨_, rfl⟩

theorem execEncode_fault {s : State} {f : Fault} (h : execEncode s = .fault f) : f = .uncodedByte := by
  obtain ⟨x, h⟩ := withBytes_answer h nofun
  rcases andThen_eq_fault h with h | ⟨u, -, h⟩
  · rcases encodeLoop_cases _ _ with ⟨t, e⟩ | e
    · cases e.symm.trans h
    · cases e.symm.trans h
      rfl
  · cases h

theorem execGencodes_answers {s : State} {t : CodeTree} (ht : s.treeAt (Config.codeMax + 1) s.regs.root = some t)
    (hy : ∀ y ∈ t.leaves, y.toNat ≤ 256) : ∃ u, execGencodes s = .next u := by
  have hstart : s.startCodes.treeAt (Config.codeMax + 1) s.startCodes.regs.root = some t :=
    treeAt_of_same_node ht rfl
  obtain ⟨u, hu⟩ := fillCodes_answers hstart hy
  exact ⟨_, by rw [execGencodes, hu, andThen_next]⟩

theorem execHdrser_answers {s : State} {t : CodeTree} (ht : s.treeAt (Config.codeMax + 1) s.regs.root = some t) :
    ∃ u, execHdrser s = .next u := by
  have hstart : s.clearStk.treeAt (Config.codeMax + 1) s.regs.root = some t := treeAt_of_same_node ht rfl
  obtain ⟨u, hu⟩ := ser_answers (m := Config.nodeCap) hstart (by decide)
  exact ⟨_, by rw [execHdrser, hu, andThen_next]⟩

/-- With the phase's tree in place its operation has one fault left, ENCODE's at a byte with no code (R241). -/
theorem phaseOperation_fault {i : Instr} {s : State} {f : Fault} (hf : i.format = .phase) (hp : phaseFor i = s.phase)
    (hs : s.TreeInv) (h : exec i s = .fault f) : f = .uncodedByte := by
  obtain ⟨-, hbuilt, hroot, hcur⟩ := hs
  cases i with
  | gencodes =>
    obtain ⟨t, ht, -, hy, -⟩ := hbuilt (.inl hp.symm)
    obtain ⟨u, hu⟩ := execGencodes_answers ht hy
    cases hu.symm.trans h
  | hdrser =>
    obtain ⟨t, ht, -⟩ := hbuilt (.inr (.inr hp.symm))
    obtain ⟨u, hu⟩ := execHdrser_answers ht
    cases hu.symm.trans h
  | encode => exact execEncode_fault h
  | walk =>
    obtain ⟨t, ht⟩ := hroot (.inl hp.symm)
    have hcur : (s.setCur s.regs.root).treeAt Config.nodeCap s.regs.root = some t := treeAt_of_same_node ht rfl
    exact absurd h (walkStep_ne_fault (s := s.setCur s.regs.root) hcur f)
  | walkInt =>
    obtain ⟨t, ht⟩ := hcur hp.symm
    exact absurd h (walkStep_ne_fault ht f)
  | count => exact absurd h (execCount_ne_fault s f)
  | dMark => exact absurd h (execDMark_ne_fault s f)
  | hdrdes => exact absurd h (execHdrdes_ne_fault s f)
  | build | cMark | cRewind | cTerm | closePhase => cases h
  | _ => cases hf

/-- A transaction or a command never faults. -/
theorem portOperation_ne_fault {i : Instr} (hf : i.format = .inOp ∨ i.format = .outOp ∨ i.format = .cmd) (s : State)
    (f : Fault) : exec i s ≠ .fault f := by
  cases i with
  | readByte => exact execReadByte_ne_fault s f
  | readBit => exact execReadBit_ne_fault s f
  | reset | writeBits _ _ | close | compress | decompress => exact nofun
  | _ => simp [Instr.format] at hf

/-- The trees being in place, `uncodedByte` is the only fault of a step. -/
theorem step_fault {s : State} {f : Fault} (hs : s.TreeInv) (h : step s = .fault f) : f = .uncodedByte := by
  rcases step_cases s with e | e | e | ⟨i, u, hi, e⟩ <;> rw [e] at h
  · cases h
  · cases h
  · cases h
  · cases hi with
    | input _ hf => exact absurd h (portOperation_ne_fault (.inl hf) _ f)
    | output _ _ hf => exact absurd h (portOperation_ne_fault (.inr (.inl hf)) _ f)
    | command _ _ hf => exact absurd h (portOperation_ne_fault (.inr (.inr hf)) _ f)
    | phase _ hp hf => exact phaseOperation_fault hf hp hs h

/-- Settles O53: a fault of a step can only be `uncodedByte`. -/
theorem noStepMeetsAMissingNode : Obligations.NoStepMeetsAMissingNode := by
  intro s hs
  refine ⟨fun h => ?_, fun h => ?_, fun h => ?_⟩
  · cases step_fault hs h
  · cases step_fault hs h
  · cases step_fault hs h

end Sys2Proof.Machine

/-! ### The decoder and the encoder (R26, R81 to R84, R91, R92) -/

namespace Sys2Proof

/-- The bits of a field read back as its value (R87). -/
theorem ofNat_val_bits {w : Nat} (v : BitVec w) : BitVec.ofNat w (val (bits w v.toNat)) = v := by
  rw [val_bits, Nat.mod_eq_of_lt v.isLt, BitVec.ofNat_toNat, BitVec.setWidth_eq]

/-- The value of a field's bits is written back as those bits (R87). -/
theorem bits_ofNat_val {w : Nat} {p : Bits} (h : p.length = w) : bits w (BitVec.ofNat w (val p)).toNat = p := by
  subst h
  rw [BitVec.toNat_ofNat, Nat.mod_eq_of_lt (val_lt p), bits_val]

theorem decodeOutOp_write (p q rest : Bits) (hp : p.length = 9) (hq : q.length = 256) :
    decodeOutOp (false :: (p ++ q) ++ rest) =
      .ok (.writeBits (BitVec.ofNat 9 (val p)) (BitVec.ofNat 256 (val q)), rest) := by
  have hlen : ¬ (p ++ (q ++ rest)).length < 9 + 256 := by simp only [List.length_append]; omega
  have hdrop : (p ++ (q ++ rest)).drop (9 + 256) = rest := by
    rw [← List.drop_drop, List.drop_left' hp, List.drop_left' hq]
  rw [List.cons_append, List.append_assoc, decodeOutOp, if_neg hlen, hdrop, List.take_left' hp, List.drop_left' hp,
    List.take_left' hq]
  rfl

theorem decodeOutOp_close (p rest : Bits) (hp : p.length = 9 + 256) :
    decodeOutOp (true :: p ++ rest) = .ok (.close, rest) := by
  have hlen : ¬ (p ++ rest).length < 9 + 256 := by rw [List.length_append]; omega
  rw [List.cons_append, decodeOutOp, if_neg hlen, List.drop_left' hp]
  rfl

theorem decodeMarker_append (p rest : Bits) (hp : p.length = Config.markerW) :
    decodeMarker (p ++ rest) = .ok (.m (BitVec.ofNat 32 (val p)), rest) := by
  have hlen : ¬ (p ++ rest).length < Config.markerW := by rw [List.length_append]; omega
  rw [decodeMarker, if_neg hlen, List.take_left' hp, List.drop_left' hp]

theorem decodeHeader_leaf (p rest : Bits) (hp : p.length = Config.symW) :
    decodeHeader (true :: p ++ rest) = .ok (.l (BitVec.ofNat 9 (val p)), rest) := by
  have hlen : ¬ (p ++ rest).length < Config.symW := by rw [List.length_append]; omega
  rw [List.cons_append, decodeHeader, if_neg hlen, List.take_left' hp, List.drop_left' hp]

/-- A whole code of the range of R84 is accepted. -/
theorem decodeCode_of_length {p : Bits} (mk : Bits → Instr) (h : 1 ≤ p.length ∧ p.length ≤ Config.codeMax) :
    decodeCode mk p = .ok (mk p, []) := by
  rw [decodeCode, if_neg (by omega), if_neg (by omega)]

/-- The formats that delimit themselves: the encoding decodes to its instruction, whatever bits follow it. -/
theorem decode_encode_append (i : Instr) (hc : i.format ≠ .code) (ht : i.format ≠ .terminator) (rest : Bits) :
    decode i.format (encode i ++ rest) = .ok (i, rest) := by
  cases i with
  | writeBits w v =>
    have h := decodeOutOp_write (bits 9 w.toNat) (bits 256 v.toNat) rest (bits_length _ _) (bits_length _ _)
    rwa [ofNat_val_bits, ofNat_val_bits] at h
  | close => exact decodeOutOp_close _ rest List.length_replicate
  | m v =>
    have h := decodeMarker_append (bits 32 v.toNat) rest (bits_length _ _)
    rwa [ofNat_val_bits] at h
  | l y =>
    have h := decodeHeader_leaf (bits 9 y.toNat) rest (bits_length _ _)
    rwa [ofNat_val_bits] at h
  | c p => exact absurd rfl hc
  | t p => exact absurd rfl ht
  | _ => rfl

/-- Settles O9: codes come whole; the other formats delimit themselves (`decode_encode_append`). -/
theorem decodeInvertsEncode : Obligations.DecodeInvertsEncode := by
  intro i hi
  refine ⟨?_, decode_encode_append i⟩
  by_cases hc : i.format = .code ∨ i.format = .terminator
  · cases i with
    | c p => exact decodeCode_of_length .c (of_decide_eq_true hi)
    | t p => exact decodeCode_of_length .t (of_decide_eq_true hi)
    | _ => simp [Instr.format] at hc
  · have h := decode_encode_append i (fun h => hc (.inl h)) (fun h => hc (.inr h)) []
    rwa [List.append_nil] at h

/-! #### What decodes -/

/-- `i` is a reading of `bs` in the format `f`, with `rest` after it. -/
def Reads (f : Format) (bs : Bits) (i : Instr) (rest : Bits) : Prop :=
  i.WellFormed ∧ i.format = f ∧ (i ≠ .close → bs = encode i ++ rest)

theorem reads_of_decodeCmd {bs rest : Bits} {i : Instr} (h : decodeCmd bs = .ok (i, rest)) : Reads .cmd bs i rest := by
  unfold decodeCmd at h
  split at h <;> cases h <;> exact ⟨rfl, rfl, fun _ => rfl⟩

theorem reads_of_decodePhase {bs rest : Bits} {i : Instr} (h : decodePhase bs = .ok (i, rest)) :
    Reads .phase bs i rest := by
  unfold decodePhase at h
  split at h <;> cases h <;> exact ⟨rfl, rfl, fun _ => rfl⟩

theorem reads_of_decodeInOp {bs rest : Bits} {i : Instr} (h : decodeInOp bs = .ok (i, rest)) :
    Reads .inOp bs i rest := by
  unfold decodeInOp at h
  split at h <;> cases h <;> exact ⟨rfl, rfl, fun _ => rfl⟩

theorem reads_of_decodeOutOp {bs rest : Bits} {i : Instr} (h : decodeOutOp bs = .ok (i, rest)) :
    Reads .outOp bs i rest := by
  unfold decodeOutOp at h
  split at h
  · cases h
  · rename_i op u
    split at h
    · cases h
    · rename_i hlen
      cases op with
      | true =>
        cases h
        exact ⟨rfl, rfl, fun hne => absurd rfl hne⟩
      | false =>
        cases h
        refine ⟨rfl, rfl, fun _ => ?_⟩
        have hw : (u.take 9).length = 9 := by rw [List.length_take]; omega
        have hv : ((u.drop 9).take 256).length = 256 := by rw [List.length_take, List.length_drop]; omega
        rw [encode, bits_ofNat_val hw, bits_ofNat_val hv, List.cons_append, List.append_assoc, ← List.drop_drop,
          List.take_append_drop, List.take_append_drop]

theorem reads_of_decodeMarker {bs rest : Bits} {i : Instr} (h : decodeMarker bs = .ok (i, rest)) :
    Reads .marker bs i rest := by
  unfold decodeMarker at h
  split at h
  · cases h
  · rename_i hlen
    cases h
    refine ⟨rfl, rfl, fun _ => ?_⟩
    have hm : (bs.take Config.markerW).length = 32 := by rw [List.length_take, Config.markerW] at *; omega
    rw [encode, bits_ofNat_val hm, List.take_append_drop]

theorem reads_of_decodeHeader {bs rest : Bits} {i : Instr} (h : decodeHeader bs = .ok (i, rest)) :
    Reads .header bs i rest := by
  unfold decodeHeader at h
  split at h
  · cases h
  · cases h
    exact ⟨rfl, rfl, fun _ => rfl⟩
  · rename_i u
    split at h
    · cases h
    · rename_i hlen
      cases h
      refine ⟨rfl, rfl, fun _ => ?_⟩
      have hy : (u.take Config.symW).length = 9 := by rw [List.length_take, Config.symW] at *; omega
      rw [encode, bits_ofNat_val hy, List.cons_append, List.take_append_drop]

/-- What `decodeCode` accepts is the whole of its bits, of the range of R84. -/
theorem decodeCode_eq_ok {mk : Bits → Instr} {bs rest : Bits} {i : Instr} (h : decodeCode mk bs = .ok (i, rest)) :
    i = mk bs ∧ rest = [] ∧ 1 ≤ bs.length ∧ bs.length ≤ Config.codeMax := by
  unfold decodeCode at h
  split at h
  · cases h
  · split at h
    · cases h
    · cases h
      exact ⟨rfl, rfl, by omega, by omega⟩

/-- Settles O10: one inversion per format. -/
theorem decodeAcceptsOnlyEncodings : Obligations.DecodeAcceptsOnlyEncodings := by
  intro f bs i rest h
  cases f with
  | cmd => exact reads_of_decodeCmd h
  | phase => exact reads_of_decodePhase h
  | inOp => exact reads_of_decodeInOp h
  | outOp => exact reads_of_decodeOutOp h
  | marker => exact reads_of_decodeMarker h
  | header => exact reads_of_decodeHeader h
  | code =>
    obtain ⟨rfl, rfl, hlen⟩ := decodeCode_eq_ok h
    exact ⟨decide_eq_true hlen, rfl, fun _ => (List.append_nil _).symm⟩
  | terminator =>
    obtain ⟨rfl, rfl, hlen⟩ := decodeCode_eq_ok h
    exact ⟨decide_eq_true hlen, rfl, fun _ => (List.append_nil _).symm⟩

/-- Settles O11: each word of the tables, read by the decoder. -/
theorem wordsDecodeAsTheTablesSay : Obligations.WordsDecodeAsTheTablesSay := by
  refine ⟨rfl, rfl, rfl, rfl, rfl, rfl, rfl, rfl, rfl, rfl, rfl, rfl, rfl, rfl, rfl, rfl, rfl, rfl, ?_, ?_, ?_, rfl, ?_,
    ?_, rfl, rfl⟩
  · have hword : [false, false, false, false, false, false, false, false, true, false] ++ List.replicate 254 false ++
        [false, true] = encode (.writeBits 2 1) ++ [] := by decide +kernel
    rw [hword]
    exact decode_encode_append (.writeBits 2 1) nofun nofun []
  · have hword : true :: List.replicate 265 false = encode .close ++ [] := (List.append_nil _).symm
    rw [hword]
    exact decode_encode_append .close nofun nofun []
  · exact decode_encode_append (.m 0xFACE8201) nofun nofun []
  · exact decode_encode_append (.l 256) nofun nofun []
  · exact decode_encode_append (.l 66) nofun nofun []

/-- Settles O12: no row of the command, phase and IN tables has these codes. -/
theorem reservedCodesAreRefusedByName : Obligations.ReservedCodesAreRefusedByName :=
  fun _ => ⟨rfl, rfl, rfl, rfl, rfl, rfl⟩

end Sys2Proof

namespace Sys2Proof.Machine

/-! ### Reset, STATUS, the command port and the phases (R26, R30, R36, R230) -/

/-- Settles O3: at reset nothing runs, and every register and structure that `Inv` bounds is 0 or empty. -/
theorem resetMeetsTheInvariants : Obligations.ResetMeetsTheInvariants := by
  refine ⟨⟨?_, ?_, ?_, rfl, rfl, ?_, ?_, ?_, ?_⟩, ?_, ?_, ?_, ?_⟩ <;> simp [State.reset, InData.size]

/-- Settles O6: the row of each error kind, for both values of the two flags. -/
theorem statusWordHasItsFields : Obligations.StatusWordHasItsFields := by
  intro s
  rw [State.statusWord]
  obtain ⟨busy, done, err⟩ := s.flags
  cases err <;> cases busy <;> cases done <;> rfl

theorem command_of_idle {s : State} (h : s.phase = .idle) (p : Phase) : s.command p = s.accept p := if_pos h

theorem command_of_busy {s : State} (h : s.phase ≠ .idle) (p : Phase) : s.command p = s := if_neg h

/-- Settles O4: the two cases of `State.command`; a reserved command decodes to no instruction (`noInstr`). -/
theorem commandAcceptedExactlyInIdle : Obligations.CommandAcceptedExactlyInIdle := by
  intro s
  refine ⟨fun h => ⟨?_, ?_⟩, fun h => ⟨?_, ?_⟩, fun hs op hop hres => ?_⟩
  · exact congrArg Host.Outcome.next (command_of_idle h .cCount)
  · exact congrArg Host.Outcome.next (command_of_idle h .dMark)
  · exact congrArg Host.Outcome.next (command_of_busy h .cCount)
  · exact congrArg Host.Outcome.next (command_of_busy h .dMark)
  · have hd : decode .cmd (bits 2 op.toNat) = .error .reservedCommand := by rcases hres with rfl | rfl <;> rfl
    have hf := fetch_of_ready hs
    rw [hop, Option.map_some] at hf
    simp only [step, hf, hd, noInstr]

/-- With nothing outstanding a phase other than IDLE runs the operation its code selects (R26). -/
theorem step_of_phase {s : State} {p : Phase} {i : Instr} (hs : s.Quiet) (hp : s.phase = p) (hne : p ≠ .idle)
    (hd : decode .phase (bits 4 p.code.toNat) = .ok (i, [])) : step s = exec i s := by
  subst hp
  exact step_of_decode (fetch_of_busy hs hne) hd

/-- Settles O8: the code of each phase decodes to its operation (`step_of_phase`). -/
theorem phaseSelectsItsOperation : Obligations.PhaseSelectsItsOperation := by
  intro s hs
  have run {p : Phase} {i : Instr} (hd : decode .phase (bits 4 p.code.toNat) = .ok (i, [])) (hne : p ≠ .idle) :
      s.phase = p → step s = exec i s := fun hp => step_of_phase hs hp hne hd
  exact ⟨run rfl nofun, run rfl nofun, run rfl nofun, run rfl nofun, run rfl nofun, run rfl nofun, run rfl nofun,
    run rfl nofun, run rfl nofun, run rfl nofun, run rfl nofun, run rfl nofun, run rfl nofun⟩

/-! ### Reading a field (R61) -/

/-- Settles O20: the state is the one `readField_eq` gives. -/
theorem readFieldInvertsWriteBits : Obligations.ReadFieldInvertsWriteBits := by
  intro s n bs hn
  have hread := readField_eq s n bs
  refine ⟨(s.readField n bs).2, by rw [hread], fun v u hbs => ?_, fun hshort => ?_⟩
  · have hlen : n ≤ bs.length := by rw [hbs, List.length_append, bits_length]; omega
    have htake : bs.take n = bits n v := by rw [hbs, List.take_left' (bits_length n v)]
    have hpow : (2 : Nat) ^ n ≤ 2 ^ 32 := Nat.pow_le_pow_right (by decide) hn
    have hval : v % 2 ^ n < 2 ^ 32 := Nat.lt_of_lt_of_le (Nat.mod_lt _ (Nat.two_pow_pos n)) hpow
    rw [hread, if_pos hlen, if_pos hlen, htake, Nat.min_eq_left hlen, val_bits]
    exact ⟨by rw [decide_eq_true hlen], by rw [BitVec.toNat_ofNat, Nat.mod_eq_of_lt hval], BitVec.sub_self _,
      List.append_nil _⟩
  · have hlen : ¬ n ≤ bs.length := Nat.not_le.mpr hshort
    rw [hread, if_neg hlen, if_neg hlen, List.take_of_length_le hshort.le]
    exact ⟨by rw [decide_eq_false hlen], rfl⟩

end Sys2Proof.Machine

namespace Sys2Proof.Machine

/-! ### What each operation of a phase changes (R95) -/

/-- IN viewed as the bits `b` (R60). -/
def State.viewBits (s : State) (b : Bits) : State := { s with inp := { s.inp with data := .bits b } }

/-- IN viewed as the bytes `x` (R60). -/
def State.viewBytes (s : State) (x : List Byte) : State := { s with inp := { s.inp with data := .bytes x } }

/-- A next answer comes through the view of IN as bits. -/
theorem withBits_eq_next {s t : State} {k : State → Answer State} (h : s.withBits k = .next t) :
    ∃ b, s.inp.data.asBits s.inp.pos = some b ∧ k (s.viewBits b) = .next t := by
  rcases withBits_cases s k with ⟨-, e⟩ | ⟨b, hb, e⟩
  · cases h.symm.trans e
  · exact ⟨b, hb, e.symm.trans h⟩

theorem withBytes_eq_next {s t : State} {k : State → Answer State} (h : s.withBytes k = .next t) :
    ∃ x, s.inp.data.asBytes s.inp.pos = some x ∧ k (s.viewBytes x) = .next t := by
  rcases withBytes_cases s k with ⟨-, e⟩ | ⟨x, hx, e⟩
  · cases h.symm.trans e
  · exact ⟨x, hx, e.symm.trans h⟩

/-! #### COMPRESS -/

/-- The counts once the bytes `x` have been counted onto `f` (R102, R103). -/
def tally (x : List Byte) (f : Vector Count 257) : Vector Count 257 :=
  x.foldl (fun f r => f.setIfInBounds r.toNat (satInc (f[r.toNat]?.getD 0))) f

/-- The counts COUNT makes of an input: its bytes, and 1 for the end of the stream (R101 to R104). -/
def countsOf (x : List Byte) : Vector Count 257 := (tally x (Vector.replicate 257 0)).setIfInBounds 256 1

theorem execCount_eq {s : State} {x : List Byte} (hx : s.inp.data.asBytes s.inp.pos = some x) :
    execCount s = .next { s with
      phase := .cBuild
      freq := countsOf (x.drop s.inp.pos)
      regs := { s.regs with sym := s.freeValue 9 }
      inp := { s.inp with data := .bytes x, pos := s.inp.pos + (x.drop s.inp.pos).length, rsp := some .endOfData }
      trace := s.trace ++ ((x.drop s.inp.pos).map fun r => .readByte (some r)) ++ [.readByte none]
      freeCtr := s.freeCtr + 1 } := by
  rw [execCount, withBytes_eq hx, countLoop_eq]
  rfl

/-- BUILD's tree touches the node store, `root`, `nnodes` and the free values; `pq` is left empty (R115). -/
theorem takeRoot_frame (s : State) : s.takeRoot = { s with
    pq := []
    regs := { s.regs with root := s.takeRoot.regs.root }
    freeCtr := s.takeRoot.freeCtr } := by
  rw [State.takeRoot]
  split
  · rfl
  · rename_i hpq
    rw [← hpq]
    rfl

theorem buildTree_frame (s : State) : s.buildTree = { s with
    node := s.buildTree.node
    pq := []
    regs := { s.regs with root := s.buildTree.regs.root, nnodes := s.buildTree.regs.nnodes }
    freeCtr := s.buildTree.freeCtr } := by
  have hleaves := addLeaves_frame (List.range Config.nsym) s.startBuild
  rw [← State.addLeaves] at hleaves
  have hmerge := mergeLoop_frame s.startBuild.addLeaves.pq.length s.startBuild.addLeaves
  have hroot := takeRoot_frame (mergeLoop s.startBuild.addLeaves.pq.length s.startBuild.addLeaves)
  rw [← State.buildTree] at hroot
  generalize s.buildTree = t at *
  generalize mergeLoop _ _ = v at *
  generalize s.startBuild.addLeaves = u at *
  rw [hleaves] at hmerge
  rw [hmerge] at hroot
  ext1 <;> rw [hroot] <;> rfl

theorem execBuild_frame {s t : State} (h : execBuild s = .next t) : t = { s with
    phase := .cGen
    node := t.node
    pq := []
    regs := { s.regs with sym := t.regs.sym, root := t.regs.root, nnodes := t.regs.nnodes }
    freeCtr := t.freeCtr } := by
  cases h
  have e := buildTree_frame s
  generalize s.buildTree = u at *
  rw [e]
  rfl

/-- The registers and the store BUILD ends with are its tree's. -/
theorem execBuild_tree {s t : State} (h : execBuild s = .next t) :
    t.regs.nnodes = s.buildTree.regs.nnodes ∧ t.regs.root = s.buildTree.regs.root ∧ t.node = s.buildTree.node := by
  rw [execBuild] at h
  generalize s.buildTree = u at *
  cases h
  exact ⟨rfl, rfl, rfl⟩

theorem freePath_plen_le (s : State) : s.freePath.regs.plen.toNat ≤ Config.codeMax := by
  have hlt := Nat.mod_lt (Config.free 9 (s.freeCtr + 1)).toNat (Nat.succ_pos Config.codeMax)
  exact Nat.le_of_lt_succ (Nat.lt_of_le_of_lt (Nat.mod_le _ _) hlt)

theorem execGencodes_frame {s t : State} (h : execGencodes s = .next t) :
    t = { s with
      phase := .cMark
      code := t.code
      stk := []
      regs := { s.regs with path := t.regs.path, plen := t.regs.plen, sp := 0 }
      freeCtr := t.freeCtr } ∧ t.regs.plen.toNat ≤ Config.codeMax := by
  obtain ⟨u, hu, h⟩ := andThen_eq_next h
  cases h
  refine ⟨?_, freePath_plen_le u⟩
  rw [fillCodes_frame _ _ hu]
  rfl

theorem execHdrser_frame {s t : State} (h : execHdrser s = .next t) : t = { s with
    phase := .cRewind
    stk := []
    regs := { s.regs with sp := 0 }
    out := { s.out with bits := t.out.bits }
    trace := t.trace } := by
  obtain ⟨u, hu, h⟩ := andThen_eq_next h
  cases h
  rw [ser_frame _ _ _ _ hu]
  rfl

/-- What the encoding loop does with its bytes: all of them have codes, or it stops (R153, R241). -/
theorem encodeLoop_eq (rs : List Byte) (s : State) :
    encodeLoop rs s = if ∀ r ∈ rs, (s.codeOfByte r).valid = true then
      .next { s with
        regs := { s.regs with sym := rs.foldl (fun _ r => r.setWidth 9) s.regs.sym }
        inp := { s.inp with pos := s.inp.pos + rs.length, rsp := some .endOfData }
        out := { s.out with bits := s.out.bits ++ rs.flatMap fun r => (s.codeOfByte r).toBits }
        trace := s.trace ++
          (rs.flatMap fun r =>
            [.readByte (some r), .writeBits (s.codeOfByte r).len.toNat (s.codeOfByte r).bits.toNat]) ++
          [.readByte none] }
    else .fault .uncodedByte := by
  induction rs generalizing s with
  | nil => simp [encodeLoop, State.sawByteEnd]
  | cons r rs ih =>
    have hall : (∀ q ∈ r :: rs, (s.codeOfByte q).valid = true) ↔
        (s.codeOfByte r).valid = true ∧ ∀ q ∈ rs, (s.codeOfByte q).valid = true := List.forall_mem_cons
    rw [encodeLoop]
    by_cases hr : (s.codeOfByte r).valid = true
    · have hcode (q : Byte) : (((s.tookByte r).lookUp r).emitCode (s.codeOfByte r)).codeOfByte q = s.codeOfByte q := rfl
      rw [if_pos hr, ih]
      simp only [hcode]
      by_cases hrs : ∀ q ∈ rs, (s.codeOfByte q).valid = true
      · rw [if_pos hrs, if_pos (hall.mpr ⟨hr, hrs⟩), encodeByte_eq]
        simp [Nat.add_comm 1, Nat.add_assoc]
      · rw [if_neg hrs, if_neg (fun h => hrs (hall.mp h).2)]
    · rw [if_neg hr, if_neg (fun h => hr (hall.mp h).1)]

theorem execEncode_frame {s t : State} (h : execEncode s = .next t) :
    ∃ x, s.inp.data.asBytes s.inp.pos = some x ∧ t = { s with
      phase := .cTerm
      regs := { s.regs with sym := t.regs.sym }
      inp := { s.inp with data := .bytes x, pos := s.inp.pos + (x.drop s.inp.pos).length, rsp := some .endOfData }
      out := { s.out with bits := t.out.bits }
      trace := t.trace } := by
  obtain ⟨x, hx, h⟩ := withBytes_eq_next h
  obtain ⟨u, hu, h⟩ := andThen_eq_next h
  refine ⟨x, hx, ?_⟩
  rw [encodeLoop_eq] at hu
  split at hu
  · cases hu
    cases h
    rfl
  · cases hu

/-! #### DECOMPRESS -/

/-- The comparison follows a whole marker; a shorter one is FormatError (R166). -/
theorem readMarker_cases (s : State) (bs : Bits) :
    (s.readMarker bs = (s.readField Config.markerW bs).2.setPhase .dHdr ∧ Config.markerW ≤ bs.length ∧
      (s.readField Config.markerW bs).2.regs.acc = s.marker) ∨
    (s.readMarker bs = (s.readField Config.markerW bs).2.raise .format ∧
      (Config.markerW ≤ bs.length → (s.readField Config.markerW bs).2.regs.acc ≠ s.marker)) := by
  have hread := readField_eq s Config.markerW bs
  rw [State.readMarker]
  split <;> rename_i u e
  · have hmarker : u.marker = s.marker := by rw [show u = (s.readField Config.markerW bs).2 by rw [e], hread]
    rw [e, State.checkMarker, hmarker]
    by_cases h : u.regs.acc = s.marker
    · rw [hread] at e
      exact .inl ⟨if_pos h, of_decide_eq_true (congrArg Prod.fst e), h⟩
    · exact .inr ⟨if_neg h, fun _ => h⟩
  · rw [hread] at e
    have hshort := of_decide_eq_false (congrArg Prod.fst e)
    rw [hread, e]
    exact .inr ⟨rfl, fun hlen => absurd hlen hshort⟩

/-- Reading the marker touches `acc`, `bitcnt`, IN, the trace, the phase and the flags alone. -/
theorem readMarker_frame (s : State) (bs : Bits) : s.readMarker bs = { s with
    phase := (s.readMarker bs).phase
    flags := (s.readMarker bs).flags
    regs := { s.regs with acc := (s.readMarker bs).regs.acc, bitcnt := (s.readMarker bs).regs.bitcnt }
    inp := (s.readMarker bs).inp
    trace := (s.readMarker bs).trace } := by
  rcases readMarker_cases s bs with ⟨e, -⟩ | ⟨e, -⟩
  · rw [e, readField_eq]
    rfl
  · rw [e, readField_eq]
    rfl

end Sys2Proof.Machine

namespace Sys2Proof.Machine

/-! ### How phase and flags move (R26, R27, R155, R204, R205) -/

/-- The rows of the phase table for an operation that finds the flags `f`: the phase it goes to, and the flags there. -/
inductive PhaseMove (f : Flags) : Instr → Phase → Flags → Prop
  | count : PhaseMove f .count .cBuild f
  | build : PhaseMove f .build .cGen f
  | gencodes : PhaseMove f .gencodes .cMark f
  | cMark : PhaseMove f .cMark .cHdr f
  | hdrser : PhaseMove f .hdrser .cRewind f
  | cRewind : PhaseMove f .cRewind .cEnc f
  | encode : PhaseMove f .encode .cTerm f
  | cTerm : PhaseMove f .cTerm .close f
  | markerRead : PhaseMove f .dMark .dHdr f
  | formatError : PhaseMove f .dMark .close (f.raised .format)
  | headerRead : PhaseMove f .hdrdes .dRoot f
  | corruptHeader : PhaseMove f .hdrdes .close (f.raised .corruptHeader)
  | walkOn {i p} (hi : i = .walk ∨ i = .walkInt) (hp : p = .dInt ∨ p = .dRoot ∨ p = .close) : PhaseMove f i p f
  | truncated {i} (hi : i = .walk ∨ i = .walkInt) : PhaseMove f i .close (f.raised .truncatedBody)
  | closePhase : PhaseMove f .closePhase .idle f.finished

theorem phaseMove_readMarker (s : State) (bs : Bits) :
    PhaseMove s.flags .dMark (s.readMarker bs).phase (s.readMarker bs).flags := by
  rcases readMarker_cases s bs with ⟨e, -⟩ | ⟨e, -⟩ <;> rw [e, readField_eq]
  · exact .markerRead
  · exact .formatError

/-- A move of the walk: the phase of the node it lands on, the flags as they were (R174). -/
theorem landOn_phase {s t : State} {n : Idx} (h : s.landOn n = .next t) :
    (t.phase = .dInt ∨ t.phase = .dRoot ∨ t.phase = .close) ∧ t.flags = s.flags := by
  rcases landOn_cases s n with ⟨-, e⟩ | ⟨_, _, _, -, e⟩ | ⟨_, -, e⟩ | ⟨_, _, -, -, e⟩ <;> rw [e] at h <;> cases h
  · exact ⟨.inl rfl, rfl⟩
  · exact ⟨.inr (.inr rfl), rfl⟩
  · exact ⟨.inr (.inl rfl), rfl⟩

theorem moveBy_eq_next {s t : State} {b : Bool} (h : s.moveBy b = .next t) : ∃ n, s.landOn n = .next t := by
  rcases moveBy_cases s b with ⟨-, e⟩ | ⟨_, _, _, -, e⟩ | ⟨_, _, -, e⟩ <;> rw [e] at h
  · cases h
  · exact ⟨_, h⟩
  · exact ⟨_, h⟩

/-- An iteration of the walk either meets the end of IN or lands on a node (R168, R169). -/
theorem walkStep_eq_next {s t : State} (h : s.walkStep = .next t) :
    ∃ b, s.inp.data.asBits s.inp.pos = some b ∧
      ((b.drop s.inp.pos = [] ∧
        t = (s.viewBits b).sawBitEnd.raise .truncatedBody) ∨
      ∃ x rest, b.drop s.inp.pos = x :: rest ∧
        ((s.viewBits b).tookBit x).moveBy x = .next t) := by
  obtain ⟨b, hb, -⟩ := withBits_eq_next h
  refine ⟨b, hb, ?_⟩
  rcases walkStep_cases s b hb with ⟨hend, e⟩ | ⟨x, rest, hx, e⟩ <;> rw [e] at h
  · cases h
    exact .inl ⟨hend, rfl⟩
  · exact .inr ⟨x, rest, hx, h⟩

theorem phaseMove_walkStep {i : Instr} (hi : i = .walk ∨ i = .walkInt) {s t : State} (h : s.walkStep = .next t) :
    PhaseMove s.flags i t.phase t.flags := by
  obtain ⟨b, -, ⟨-, rfl⟩ | ⟨x, rest, -, h⟩⟩ := walkStep_eq_next h
  · exact .truncated hi
  · obtain ⟨n, h⟩ := moveBy_eq_next h
    obtain ⟨hp, hf⟩ := landOn_phase h
    rw [hf]
    exact .walkOn hi hp

theorem phaseMove_execHdrdes {s t : State} (h : execHdrdes s = .next t) :
    PhaseMove s.flags .hdrdes t.phase t.flags := by
  obtain ⟨b, -, h⟩ := withBits_eq_next h
  cases h
  rcases headerLoop_phase (Config.nodeCap + 1)
    (s.viewBits b).startHeader rfl with ⟨hp, hf⟩ | ⟨hp, hf⟩
  · show PhaseMove s.flags .hdrdes (headerLoop _ _).phase (headerLoop _ _).flags
    rw [hp, hf]
    exact .headerRead
  · show PhaseMove s.flags .hdrdes (headerLoop _ _).phase (headerLoop _ _).flags
    rw [hp, hf]
    exact .corruptHeader

/-- Every operation of a phase moves by a row of the phase table. -/
theorem phaseMove_of_exec {i : Instr} {s t : State} (hf : i.format = .phase) (h : exec i s = .next t) :
    PhaseMove s.flags i t.phase t.flags := by
  cases i with
  | count =>
    obtain ⟨x, hx, -⟩ := withBytes_eq_next (show execCount s = .next t from h)
    cases (execCount_eq hx).symm.trans h
    exact .count
  | build =>
    rw [execBuild_frame h]
    exact .build
  | gencodes =>
    rw [(execGencodes_frame h).1]
    exact .gencodes
  | cMark =>
    cases h
    exact .cMark
  | hdrser =>
    rw [execHdrser_frame h]
    exact .hdrser
  | cRewind =>
    cases h
    exact .cRewind
  | encode =>
    obtain ⟨x, -, e⟩ := execEncode_frame h
    rw [e]
    exact .encode
  | cTerm =>
    cases h
    exact .cTerm
  | dMark =>
    obtain ⟨b, -, h⟩ := withBits_eq_next (show execDMark s = .next t from h)
    cases h
    exact phaseMove_readMarker (s.viewBits b) _
  | hdrdes => exact phaseMove_execHdrdes h
  | walk => exact phaseMove_walkStep (s := s.setCur s.regs.root) (.inl rfl) h
  | walkInt => exact phaseMove_walkStep (.inr rfl) h
  | closePhase =>
    cases h
    exact .closePhase
  | _ => cases hf

/-- A transaction leaves everything but its stream and the trace alone (R51 to R55). -/
theorem portOperation_frame {i : Instr} {s t : State} (hf : i.format = .inOp ∨ i.format = .outOp)
    (h : exec i s = .next t) : t = { s with inp := t.inp, out := t.out, trace := t.trace } := by
  cases i with
  | readByte =>
    obtain ⟨x, -, h⟩ := withBytes_eq_next (show execReadByte s = .next t from h)
    split at h <;> cases h <;> rfl
  | readBit =>
    obtain ⟨b, -, h⟩ := withBits_eq_next (show execReadBit s = .next t from h)
    split at h <;> cases h <;> rfl
  | reset | writeBits _ _ | close =>
    cases h
    rfl
  | _ => simp [Instr.format] at hf

/-- A command that the port offers in IDLE is accepted (R36). -/
theorem commandOperation_of_idle {i : Instr} {s t : State} (hp : s.phase = .idle) (hf : i.format = .cmd)
    (h : exec i s = .next t) : ∃ p, (p = .cCount ∨ p = .dMark) ∧ t = s.accept p := by
  cases i with
  | compress =>
    cases h
    exact ⟨.cCount, .inl rfl, command_of_idle hp _⟩
  | decompress =>
    cases h
    exact ⟨.dMark, .inr rfl, command_of_idle hp _⟩
  | _ => cases hf

/-- What a step does to phase and flags: nothing; or a command is accepted in IDLE; or a phase's operation moves. -/
theorem step_moves {s t : State} (h : step s = .next t) :
    (t.phase = s.phase ∧ t.flags = s.flags) ∨
    (s.phase = .idle ∧ (t.phase = .cCount ∨ t.phase = .dMark) ∧ t.flags = flagsAccepted) ∨
    ∃ i, phaseFor i = s.phase ∧ i.format = .phase ∧ PhaseMove s.flags i t.phase t.flags := by
  rcases step_cases s with e | e | e | ⟨i, u, hi, e⟩ <;> rw [e] at h
  · cases h
  · cases h
    exact .inl ⟨rfl, rfl⟩
  · cases h
    exact .inl ⟨rfl, rfl⟩
  · cases hi with
    | input _ hf =>
      rw [portOperation_frame (.inl hf) h]
      exact .inl ⟨rfl, rfl⟩
    | output _ _ hf =>
      rw [portOperation_frame (.inr hf) h]
      exact .inl ⟨rfl, rfl⟩
    | command hs _ hf =>
      obtain ⟨p, hp, rfl⟩ := commandOperation_of_idle (s := { s with cmd := none }) hs.1 hf h
      exact .inr (.inl ⟨hs.1, hp, rfl⟩)
    | phase _ hp hf => exact .inr (.inr ⟨i, hp, hf, phaseMove_of_exec hf h⟩)

/-- No phase operation belongs to IDLE. -/
theorem phaseFor_ne_idle {i : Instr} (hf : i.format = .phase) : phaseFor i ≠ .idle := by
  cases i with
  | compress | decompress | readByte | readBit | reset | writeBits | close | m | n | l | c | t => cases hf
  | _ => decide

/-- A busy block with nothing outstanding runs its phase's operation. -/
theorem step_of_busy {s : State} (hs : s.Quiet) (hp : s.phase ≠ .idle) :
    ∃ i, phaseFor i = s.phase ∧ i.format = .phase ∧ step s = exec i s := by
  obtain ⟨i, hd, hi, hf⟩ := decode_phase_operation s.phase hp
  exact ⟨i, hi, hf, step_of_phase hs rfl hp hd⟩

/-- Settles O49: in IDLE a command is accepted or nothing moves; in any other phase the operation moves by its row. -/
theorem phaseMovesOnlyAsTheTableAllows : Obligations.PhaseMovesOnlyAsTheTableAllows := by
  intro s t hs h
  by_cases hidle : s.phase = .idle
  · rw [hidle]
    rcases step_moves h with ⟨hp, -⟩ | ⟨-, hp, -⟩ | ⟨i, hi, hf, -⟩
    · exact .inl (hp.trans hidle)
    · exact .inr hp
    · exact absurd (hi.trans hidle) (phaseFor_ne_idle hf)
  · obtain ⟨i, hi, hf, e⟩ := step_of_busy hs hidle
    have hmove := phaseMove_of_exec hf (e.symm.trans h)
    rw [← hi]
    generalize t.phase = p, t.flags = f at *
    cases hmove with
    | markerRead | headerRead => exact .inl rfl
    | formatError | corruptHeader => exact .inr ⟨rfl, rfl⟩
    | walkOn hw hp =>
      have hmoves : p = .dInt ∨ p = .dRoot ∨
          (p = .close ∧ (s.flags = s.flags ∨ s.flags = { s.flags with err := .truncatedBody })) :=
        hp.imp id (Or.imp id fun hc => ⟨hc, .inl rfl⟩)
      rcases hw with rfl | rfl <;> exact hmoves
    | truncated hw => rcases hw with rfl | rfl <;> exact .inr (.inr ⟨rfl, .inr rfl⟩)
    | _ => rfl

/-- Settles O50: `err` differs only after the rows of the phase table that raise it. -/
theorem eachErrorIsRaisedOnlyInItsPhase : Obligations.EachErrorIsRaisedOnlyInItsPhase := by
  intro s t h
  rcases step_moves h with ⟨-, hf⟩ | ⟨hp, -, hf⟩ | ⟨i, hi, -, hmove⟩
  · rw [hf]
    exact ⟨fun _ => rfl, fun hne => absurd rfl hne⟩
  · rw [hp, hf]
    exact ⟨nofun, fun _ => .inl ⟨rfl, rfl⟩⟩
  · rw [← hi]
    generalize t.phase = p, t.flags = f at *
    cases hmove with
    | formatError => exact ⟨nofun, fun _ => .inr (.inl ⟨rfl, rfl⟩)⟩
    | corruptHeader => exact ⟨nofun, fun _ => .inr (.inr (.inl ⟨rfl, rfl⟩))⟩
    | truncated hw =>
      rcases hw with rfl | rfl
      · exact ⟨nofun, fun _ => .inr (.inr (.inr ⟨.inl rfl, rfl⟩))⟩
      · exact ⟨nofun, fun _ => .inr (.inr (.inr ⟨.inr rfl, rfl⟩))⟩
    | _ => exact ⟨fun _ => rfl, fun hne => absurd rfl hne⟩

end Sys2Proof.Machine

namespace Sys2Proof.Machine

/-! ### Trees in the node store (R22, R32) -/

@[simp] theorem nodeAt_setNode_same {s : State} {i : Idx} (v : Node) (h : i.toNat < 513) :
    (s.setNode i v).nodeAt i = some v := by
  simp [State.nodeAt, State.setNode, h]

theorem nodeAt_setNode_ne {s : State} {i j : Idx} (v : Node) (h : j ≠ i) : (s.setNode i v).nodeAt j = s.nodeAt j := by
  have hne : i.toNat ≠ j.toNat := fun e => h (BitVec.eq_of_toNat_eq e.symm)
  simp [State.nodeAt, State.setNode, Vector.getElem?_setIfInBounds_ne hne]

theorem toNat_succ_of_lt {i : Idx} (h : i.toNat < 513) : (i + 1).toNat = i.toNat + 1 := by
  rw [BitVec.toNat_add]
  exact Nat.mod_eq_of_lt (Nat.lt_of_lt_of_le (Nat.succ_lt_succ h) (by decide))

/-- The tree `t` stands at node `i`, all its nodes having indices from `a` up to but not including `b`. -/
inductive TreeIn (s : State) (a b : Nat) : Idx → CodeTree → Prop
  | leaf {i y w} (ha : a ≤ i.toNat) (hb : i.toNat < b) (hn : s.nodeAt i = some (.leaf y w)) : TreeIn s a b i (.leaf y)
  | node {i w l r tl tr} (ha : a ≤ i.toNat) (hb : i.toNat < b) (hn : s.nodeAt i = some (.inner w l r))
    (hl : TreeIn s a b l tl) (hr : TreeIn s a b r tr) : TreeIn s a b i (.node tl tr)

/-- The tree stays where the entries of its range stay. -/
theorem TreeIn.congr {s s' : State} {a b a' b' : Nat} {i : Idx} {t : CodeTree} (h : TreeIn s a b i t) (ha' : a' ≤ a)
    (hb' : b ≤ b') (hsame : ∀ k : Idx, a ≤ k.toNat → k.toNat < b → s'.nodeAt k = s.nodeAt k) : TreeIn s' a' b' i t := by
  induction h with
  | leaf ha hb hn => exact .leaf (ha'.trans ha) (hb.trans_le hb') ((hsame _ ha hb).trans hn)
  | node ha hb hn _ _ ihl ihr => exact .node (ha'.trans ha) (hb.trans_le hb') ((hsame _ ha hb).trans hn) ihl ihr

theorem TreeIn.treeAt {s : State} {a b k : Nat} {i : Idx} {t : CodeTree} (h : TreeIn s a b i t) (hk : t.depth < k) :
    s.treeAt k i = some t := by
  induction h generalizing k with
  | leaf _ _ hn =>
    obtain ⟨k, rfl⟩ := Nat.exists_eq_succ_of_ne_zero (Nat.ne_zero_of_lt hk)
    simp [State.treeAt, hn]
  | node _ _ hn _ _ ihl ihr =>
    obtain ⟨k, rfl⟩ := Nat.exists_eq_succ_of_ne_zero (Nat.ne_zero_of_lt hk)
    have hd := Nat.lt_of_succ_lt_succ hk
    simp [State.treeAt, hn, ihl (lt_of_le_of_lt (le_max_left _ _) hd), ihr (lt_of_le_of_lt (le_max_right _ _) hd)]

/-- A tree found within `k` levels has fewer edges on any path. -/
theorem depth_lt_of_treeAt {s : State} {k : Nat} {i : Idx} {t : CodeTree} (h : s.treeAt k i = some t) : t.depth < k := by
  induction k generalizing i t with
  | zero => cases h
  | succ k ih =>
    rcases treeAt_succ_cases h with ⟨y, w, -, rfl⟩ | ⟨w, l, r, tl, tr, -, hl, hr, rfl⟩
    · exact Nat.succ_pos k
    · exact Nat.succ_lt_succ (max_lt (ih hl) (ih hr))

theorem treeAt_mono {s : State} {k m : Nat} {i : Idx} {t : CodeTree} (h : s.treeAt k i = some t) (hkm : k ≤ m) :
    s.treeAt m i = some t := by
  induction k generalizing i t m with
  | zero => cases h
  | succ k ih =>
    obtain ⟨m, rfl⟩ := Nat.exists_eq_succ_of_ne_zero (Nat.ne_zero_of_lt hkm)
    have hkm := Nat.le_of_succ_le_succ hkm
    rcases treeAt_succ_cases h with ⟨y, w, hn, rfl⟩ | ⟨w, l, r, tl, tr, hn, hl, hr, rfl⟩
    · simp [State.treeAt, hn]
    · simp [State.treeAt, hn, ih hl hkm, ih hr hkm]

/-- A tree has more leaves than edges on any path. -/
theorem depth_lt_leaves (t : CodeTree) : t.depth < t.leaves.length := by
  induction t with
  | leaf _ => exact Nat.zero_lt_one
  | node l r ihl ihr =>
    rw [CodeTree.depth, CodeTree.leaves, List.length_append]
    omega

/-! ### BUILD as a function of the counts (R110 to R116) -/

/-- A member of `pq` with what BUILD reads of it, its weight, and the tree it stands for. -/
structure Root where
  idx : Idx
  weight : Count
  tree : CodeTree

/-- The nodes made so far, and the members of `pq` in the order of removal. -/
structure Forest where
  size : Nat
  roots : List Root

/-- Insertion in the order of removal (R113). -/
def insertRoot (r : Root) : List Root → List Root
  | [] => [r]
  | q :: qs => if tieBefore r.weight q.weight r.idx q.idx then r :: q :: qs else q :: insertRoot r qs

/-- A new node, the root of `t`. -/
def Forest.add (f : Forest) (w : Count) (t : CodeTree) : Forest :=
  ⟨f.size + 1, insertRoot ⟨BitVec.ofNat 10 f.size, w, t⟩ f.roots⟩

/-- A symbol's count in a table of counts (R31). -/
def countAt (freq : Vector Count 257) (y : Nat) : Count := (freq[y]?).getD 0

/-- The leaf of a symbol with a count (R111). -/
def Forest.addLeaf (c : Vector Count 257) (f : Forest) (y : Nat) : Forest :=
  if 0 < (countAt c y).toNat then f.add (countAt c y) (.leaf (BitVec.ofNat 9 y)) else f

/-- The two first roots joined (R112, R114, R116). -/
def Forest.merge (f : Forest) (a b : Root) (rest : List Root) : Forest :=
  Forest.add ⟨f.size, rest⟩ (satAdd a.weight b.weight) (.node a.tree b.tree)

/-- At most that many merges (R112). -/
def Forest.mergeAll : Nat → Forest → Forest
  | 0, f => f
  | k + 1, f =>
    match f.roots with
    | a :: b :: rest => mergeAll k (f.merge a b rest)
    | _ => f

/-- The leaves of the counted symbols (R111). -/
def leafForest (c : Vector Count 257) : Forest := (List.range Config.nsym).foldl (Forest.addLeaf c) ⟨0, []⟩

/-- The forest BUILD ends with. -/
def builtForest (c : Vector Count 257) : Forest := (leafForest c).mergeAll (leafForest c).roots.length

/-- The tree of a table of counts. -/
def huffmanTree (c : Vector Count 257) : CodeTree :=
  match (builtForest c).roots with
  | r :: _ => r.tree
  | [] => .leaf 256

/-- The counted symbols, ascending (R111). -/
def counted (c : Vector Count 257) (ys : List Nat) : List Nat := ys.filter fun y => decide (0 < (countAt c y).toNat)

/-- The leaves' symbols of a forest. -/
def Forest.leaves (f : Forest) : List Sym := f.roots.flatMap fun r => r.tree.leaves

theorem insertRoot_perm (r : Root) (qs : List Root) : (insertRoot r qs).Perm (r :: qs) := by
  induction qs with
  | nil => exact .refl _
  | cons q qs ih =>
    rw [insertRoot]
    split
    · exact .refl _
    · exact (ih.cons q).trans (.swap r q qs)

theorem Forest.add_roots_length (f : Forest) (w : Count) (t : CodeTree) :
    (f.add w t).roots.length = f.roots.length + 1 := (insertRoot_perm _ _).length_eq

theorem Forest.add_leaves (f : Forest) (w : Count) (t : CodeTree) : (f.add w t).leaves.Perm (t.leaves ++ f.leaves) :=
  (insertRoot_perm _ _).flatMap_right _

/-- One leaf is added per counted symbol. -/
theorem foldl_addLeaf (c : Vector Count 257) (ys : List Nat) (f : Forest) :
    (ys.foldl (Forest.addLeaf c) f).size = f.size + (counted c ys).length ∧
    (ys.foldl (Forest.addLeaf c) f).roots.length = f.roots.length + (counted c ys).length ∧
    (ys.foldl (Forest.addLeaf c) f).leaves.Perm ((counted c ys).map (BitVec.ofNat 9) ++ f.leaves) := by
  induction ys generalizing f with
  | nil => exact ⟨rfl, rfl, .refl _⟩
  | cons y ys ih =>
    obtain ⟨hsize, hlen, hleaves⟩ := ih (f.addLeaf c y)
    rw [List.foldl_cons, hsize, hlen]
    by_cases hy : 0 < (countAt c y).toNat
    · have hadd : f.addLeaf c y = f.add (countAt c y) (.leaf (BitVec.ofNat 9 y)) := if_pos hy
      have hcounted : counted c (y :: ys) = y :: counted c ys := List.filter_cons_of_pos (decide_eq_true hy)
      rw [hadd] at hleaves ⊢
      rw [hcounted, Forest.add_roots_length, List.length_cons, List.map_cons]
      refine ⟨Nat.succ_add_eq_add_succ _ _, Nat.succ_add_eq_add_succ _ _, ?_⟩
      exact hleaves.trans (((Forest.add_leaves f _ _).append_left _).trans List.perm_middle)
    · have hadd : f.addLeaf c y = f := if_neg hy
      have hcounted : counted c (y :: ys) = counted c ys := List.filter_cons_of_neg (by simpa using hy)
      rw [hadd] at hleaves ⊢
      rw [hcounted]
      exact ⟨rfl, rfl, hleaves⟩

/-- A merge makes one node and one root fewer, and keeps the leaves. -/
theorem Forest.merge_spec {f : Forest} {a b : Root} {rest : List Root} (h : f.roots = a :: b :: rest) :
    (f.merge a b rest).size = f.size + 1 ∧ (f.merge a b rest).roots.length + 1 = f.roots.length ∧
    (f.merge a b rest).leaves.Perm f.leaves := by
  refine ⟨rfl, ?_, (Forest.add_leaves _ _ _).trans ?_⟩
  · rw [Forest.merge, Forest.add_roots_length, h]
    rfl
  · simp [Forest.leaves, h, CodeTree.leaves]

/-- The merges leave one root, unless there was none, and keep the leaves. -/
theorem Forest.mergeAll_spec (k : Nat) (f : Forest) (hk : f.roots.length ≤ k) :
    (f.mergeAll k).roots.length = min 1 f.roots.length ∧
    (f.mergeAll k).size + (f.mergeAll k).roots.length = f.size + f.roots.length ∧
    (f.mergeAll k).leaves.Perm f.leaves := by
  induction k generalizing f with
  | zero => exact ⟨by rw [mergeAll]; omega, rfl, .refl _⟩
  | succ k ih =>
    rw [mergeAll]
    split
    · rename_i a b rest hr
      obtain ⟨hsize, hlen, hleaves⟩ := merge_spec hr
      obtain ⟨hlen', hsum, hleaves'⟩ := ih (f.merge a b rest) (by omega)
      have htwo : 2 ≤ f.roots.length := by rw [hr]; exact Nat.le_add_left 2 _
      exact ⟨by omega, by omega, hleaves'.trans hleaves⟩
    · rename_i hr
      refine ⟨?_, rfl, .refl _⟩
      match hq : f.roots with
      | [] => rfl
      | [_] => rfl
      | a :: b :: rest => exact absurd hq (hr a b rest)

theorem counted_length_le (c : Vector Count 257) (ys : List Nat) : (counted c ys).length ≤ ys.length :=
  List.length_filter_le _ _

/-- What the counts determine of BUILD's end: `2 L - 1` nodes and one root for `L` counted symbols. -/
theorem builtForest_spec (c : Vector Count 257) :
    (builtForest c).roots.length = min 1 (counted c (List.range 257)).length ∧
    (builtForest c).size + (builtForest c).roots.length = 2 * (counted c (List.range 257)).length ∧
    (builtForest c).leaves.Perm ((counted c (List.range 257)).map (BitVec.ofNat 9)) := by
  obtain ⟨hsize, hlen, hleaves⟩ := foldl_addLeaf c (List.range Config.nsym) ⟨0, []⟩
  obtain ⟨hlen', hsum, hleaves'⟩ := Forest.mergeAll_spec _ (leafForest c) le_rfl
  rw [← leafForest] at hsize hlen hleaves
  simp only [Nat.zero_add, List.length_nil, Config.nsym] at hsize hlen
  refine ⟨?_, ?_, hleaves'.trans (hleaves.trans (List.append_nil _ ▸ .refl _))⟩
  · rw [builtForest, hlen', hlen]
  · rw [builtForest, hsum, hsize, hlen, Nat.two_mul]

theorem builtForest_size_le (c : Vector Count 257) : (builtForest c).size ≤ Config.nodeCap := by
  obtain ⟨hlen, hsum, -⟩ := builtForest_spec c
  have hle := counted_length_le c (List.range 257)
  rw [List.length_range] at hle
  simp only [Config.nodeCap]
  omega

/-- With a counted symbol there is one root. -/
theorem exists_builtForest_roots {c : Vector Count 257} {y : Nat} (hy : y < 257) (hc : 0 < (countAt c y).toNat) :
    ∃ r, (builtForest c).roots = [r] ∧ huffmanTree c = r.tree := by
  have hmem : y ∈ counted c (List.range 257) := List.mem_filter.mpr ⟨List.mem_range.mpr hy, decide_eq_true hc⟩
  have hlen := (builtForest_spec c).1
  rw [Nat.min_eq_left (List.length_pos_of_mem hmem), List.length_eq_one_iff] at hlen
  obtain ⟨r, hr⟩ := hlen
  exact ⟨r, hr, by rw [huffmanTree, hr]⟩

/-- The tree's leaves are the counted symbols (R111). -/
theorem huffmanTree_leaves {c : Vector Count 257} {y : Nat} (hy : y < 257) (hc : 0 < (countAt c y).toNat) :
    (huffmanTree c).leaves.Perm ((counted c (List.range 257)).map (BitVec.ofNat 9)) := by
  obtain ⟨r, hr, ht⟩ := exists_builtForest_roots hy hc
  have hleaves := (builtForest_spec c).2.2
  rwa [Forest.leaves, hr, List.flatMap_singleton, ← ht] at hleaves

theorem mem_huffmanTree_leaves {c : Vector Count 257} {y : Nat} (hy : y < 257) (hc : 0 < (countAt c y).toNat) :
    BitVec.ofNat 9 y ∈ (huffmanTree c).leaves := by
  rw [(huffmanTree_leaves hy hc).mem_iff]
  exact List.mem_map_of_mem (List.mem_filter.mpr ⟨List.mem_range.mpr hy, decide_eq_true hc⟩)

/-- With the end of the stream counted the tree is proper (R23, R104). -/
theorem huffmanTree_proper {c : Vector Count 257} (hc : 0 < (countAt c 256).toNat) : (huffmanTree c).Proper := by
  have hperm := huffmanTree_leaves (y := 256) (by decide) hc
  have hsym {y : Nat} (hy : y ∈ counted c (List.range 257)) : (BitVec.ofNat 9 y).toNat = y ∧ y ≤ 256 := by
    have := List.mem_range.mp (List.mem_of_mem_filter hy)
    exact ⟨by rw [BitVec.toNat_ofNat, Nat.mod_eq_of_lt (by omega)], by omega⟩
  refine ⟨hperm.nodup_iff.mpr ?_, fun y hy => ?_, mem_huffmanTree_leaves (by decide) hc⟩
  · refine List.Nodup.map_on (fun y hy z hz e => ?_) (List.nodup_range.filter _)
    rw [← (hsym hy).1, e, (hsym hz).1]
  · obtain ⟨z, hz, rfl⟩ := List.mem_map.mp (hperm.mem_iff.mp hy)
    rw [(hsym hz).1]
    exact (hsym hz).2

theorem huffmanTree_depth_le {c : Vector Count 257} {y : Nat} (hy : y < 257) (hc : 0 < (countAt c y).toNat) :
    (huffmanTree c).depth ≤ Config.codeMax := by
  have hlt := depth_lt_leaves (huffmanTree c)
  have hle := counted_length_le c (List.range 257)
  rw [(huffmanTree_leaves hy hc).length_eq, List.length_map] at hlt
  rw [List.length_range] at hle
  simp only [Config.codeMax]
  omega

/-! #### The machine's forest -/

/-- The state's node store, `nnodes` and `pq` are those of the forest. -/
structure HoldsForest (s : State) (f : Forest) : Prop where
  nnodes : s.regs.nnodes.toNat = f.size
  pq : s.pq = f.roots.map Root.idx
  roots : ∀ r ∈ f.roots, s.weightOf r.idx = r.weight ∧ TreeIn s 0 f.size r.idx r.tree

/-- Insertion by the weights the roots have is insertion among the roots. -/
theorem insertPq_map_idx {w : Idx → Count} {r : Root} {qs : List Root} (hr : w r.idx = r.weight)
    (hqs : ∀ q ∈ qs, w q.idx = q.weight) : insertPq w r.idx (qs.map Root.idx) = (insertRoot r qs).map Root.idx := by
  induction qs with
  | nil => rfl
  | cons q qs ih =>
    obtain ⟨hq, hqs⟩ := List.forall_mem_cons.mp hqs
    rw [List.map_cons, insertPq, insertRoot, hr, hq, ih hqs]
    split <;> rfl

theorem TreeIn.idx_lt {s : State} {a b : Nat} {i : Idx} {t : CodeTree} (h : TreeIn s a b i t) : i.toNat < b := by
  cases h <;> assumption

/-- A new node whose tree stands in the store is a new root of the forest. -/
theorem holdsForest_addNode {s : State} {f : Forest} {v : Node} {t : CodeTree} (h : HoldsForest s f)
    (hroom : f.size < 513) (ht : TreeIn (s.addNode v) 0 (f.size + 1) s.regs.nnodes t) :
    HoldsForest (s.addNode v) (f.add v.weight t) := by
  have hidx : BitVec.ofNat 10 f.size = s.regs.nnodes := by rw [← h.nnodes, BitVec.ofNat_toNat, BitVec.setWidth_eq]
  have hnew : (s.addNode v).nodeAt s.regs.nnodes = some v := nodeAt_setNode_same v (by rw [h.nnodes]; exact hroom)
  have hold {k : Idx} (hk : k.toNat < f.size) : (s.addNode v).nodeAt k = s.nodeAt k :=
    nodeAt_setNode_ne v fun e => by rw [e, h.nnodes] at hk; exact Nat.lt_irrefl _ hk
  have hweight {r : Root} (hr : r ∈ f.roots) : (s.addNode v).weightOf r.idx = r.weight := by
    rw [State.weightOf, hold (h.roots r hr).2.idx_lt]
    exact (h.roots r hr).1
  have hself : (s.addNode v).weightOf s.regs.nnodes = v.weight := by rw [State.weightOf, hnew]; rfl
  refine ⟨?_, ?_, fun r hr => ?_⟩
  · rw [State.addNode_regs, toNat_succ_of_lt (h.nnodes ▸ hroom), h.nnodes]
    rfl
  · rw [State.addNode_pq, h.pq, Forest.add, hidx]
    exact insertPq_map_idx (r := ⟨s.regs.nnodes, v.weight, t⟩) hself fun q hq => hweight hq
  · rw [Forest.add, hidx] at hr
    rcases List.mem_cons.mp ((insertRoot_perm _ _).mem_iff.mp hr) with rfl | hr
    · exact ⟨hself, ht⟩
    · exact ⟨hweight hr, (h.roots r hr).2.congr le_rfl (Nat.le_succ _) fun k _ hk => hold hk⟩

theorem holdsForest_addLeaf {s : State} {f : Forest} (h : HoldsForest s f) (hroom : f.size < 513) (y : Nat) :
    HoldsForest (s.addLeaf y) (f.addLeaf s.freq y) := by
  rw [State.addLeaf, Forest.addLeaf]
  change HoldsForest (if 0 < (s.freqOf y).toNat then _ else _) (if 0 < (s.freqOf y).toNat then _ else _)
  split
  · refine holdsForest_addNode h hroom (.leaf (Nat.zero_le _) ?_ (nodeAt_setNode_same _ ?_))
    · rw [h.nnodes]; exact Nat.lt_succ_self _
    · rw [h.nnodes]; exact hroom
  · exact h

theorem addLeaf_freq (s : State) (y : Nat) : (s.addLeaf y).freq = s.freq := by rw [addLeaf_frame]

theorem Forest.addLeaf_size_le (c : Vector Count 257) (f : Forest) (y : Nat) : (f.addLeaf c y).size ≤ f.size + 1 := by
  rw [Forest.addLeaf]
  split
  · exact le_rfl
  · exact Nat.le_succ _

theorem holdsForest_addLeaves {s : State} {f : Forest} {ys : List Nat} (h : HoldsForest s f)
    (hroom : f.size + ys.length ≤ 513) : HoldsForest (ys.foldl State.addLeaf s) (ys.foldl (Forest.addLeaf s.freq) f) := by
  induction ys generalizing s f with
  | nil => exact h
  | cons y ys ih =>
    rw [List.length_cons] at hroom
    have hsize := f.addLeaf_size_le s.freq y
    have hnext := holdsForest_addLeaf h (by omega) y
    rw [List.foldl_cons, List.foldl_cons, ← addLeaf_freq s y]
    rw [← addLeaf_freq s y] at hnext hsize
    exact ih hnext (by omega)

theorem holdsForest_merge {s : State} {f : Forest} {a b : Root} {rest : List Root} (h : HoldsForest s f)
    (hr : f.roots = a :: b :: rest) (hroom : f.size < 513) :
    HoldsForest (s.merge a.idx b.idx (rest.map Root.idx)) (f.merge a b rest) := by
  obtain ⟨ha, hta⟩ := h.roots a (by simp [hr])
  obtain ⟨hb, htb⟩ := h.roots b (by simp [hr])
  have hrest : HoldsForest { s with pq := rest.map Root.idx } ⟨f.size, rest⟩ :=
    ⟨h.nnodes, rfl, fun r hm => ⟨(h.roots r (by simp [hr, hm])).1,
      (h.roots r (by simp [hr, hm])).2.congr le_rfl le_rfl fun _ _ _ => rfl⟩⟩
  rw [State.merge, Forest.merge, ha, hb]
  refine holdsForest_addNode hrest hroom ?_
  have hold {t : CodeTree} {i : Idx} (ht : TreeIn s 0 f.size i t) (v : Node) :
      TreeIn (({ s with pq := rest.map Root.idx } : State).addNode v) 0 (f.size + 1) i t :=
    ht.congr le_rfl (Nat.le_succ _) fun k _ hk =>
      nodeAt_setNode_ne v fun e => by rw [e, h.nnodes] at hk; exact Nat.lt_irrefl _ hk
  refine .node (Nat.zero_le _) ?_ (nodeAt_setNode_same _ ?_) (hold hta _) (hold htb _)
  · show s.regs.nnodes.toNat < _
    rw [h.nnodes]; exact Nat.lt_succ_self _
  · show s.regs.nnodes.toNat < _
    rw [h.nnodes]; exact hroom

theorem holdsForest_mergeLoop {k : Nat} {s : State} {f : Forest} (h : HoldsForest s f)
    (hroom : f.size + f.roots.length ≤ 514) : HoldsForest (mergeLoop k s) (f.mergeAll k) := by
  induction k generalizing s f with
  | zero => exact h
  | succ k ih =>
    match hr : f.roots with
    | a :: b :: rest =>
      obtain ⟨hsize, hlen, -⟩ := Forest.merge_spec hr
      rw [hr, List.length_cons, List.length_cons] at hroom hlen
      have hnext := ih (holdsForest_merge h hr (by omega)) (by omega)
      simpa only [mergeLoop, h.pq, Forest.mergeAll, hr, List.map_cons] using hnext
    | [r] => simpa only [mergeLoop, h.pq, Forest.mergeAll, hr, List.map_cons, List.map_nil] using h
    | [] => simpa only [mergeLoop, h.pq, Forest.mergeAll, hr, List.map_nil] using h

/-- BUILD's merges end with the forest of the counts. -/
theorem holdsForest_built (s : State) :
    HoldsForest (mergeLoop s.startBuild.addLeaves.pq.length s.startBuild.addLeaves) (builtForest s.freq) := by
  have hstart : HoldsForest s.startBuild ⟨0, []⟩ := ⟨rfl, rfl, fun _ hr => by cases hr⟩
  have hleaves : HoldsForest s.startBuild.addLeaves (leafForest s.freq) :=
    holdsForest_addLeaves hstart (ys := List.range Config.nsym) (by simp [Config.nsym])
  obtain ⟨hsize, hlen, -⟩ := foldl_addLeaf s.freq (List.range Config.nsym) ⟨0, []⟩
  have hle := counted_length_le s.freq (List.range Config.nsym)
  rw [← leafForest] at hsize hlen
  rw [List.length_range, Config.nsym] at hle
  have hmerged := holdsForest_mergeLoop (k := (leafForest s.freq).roots.length) hleaves
    (by rw [hsize, hlen]; simp only [List.length_nil, Config.nsym]; omega)
  rwa [hleaves.pq, List.length_map]

theorem takeRoot_node (s : State) : s.takeRoot.node = s.node := by rw [takeRoot_frame]

theorem buildTree_nnodes (s : State) : s.buildTree.regs.nnodes.toNat = (builtForest s.freq).size := by
  rw [← (holdsForest_built s).nnodes, State.buildTree, takeRoot_frame]

/-- BUILD leaves the tree of the counts at `root` (R115). -/
theorem buildTree_treeAt (s : State) {y : Nat} (hy : y < 257) (hc : 0 < (countAt s.freq y).toNat) :
    s.buildTree.treeAt (Config.codeMax + 1) s.buildTree.regs.root = some (huffmanTree s.freq) := by
  have hforest := holdsForest_built s
  obtain ⟨r, hr, ht⟩ := exists_builtForest_roots hy hc
  have hpq : (mergeLoop s.startBuild.addLeaves.pq.length s.startBuild.addLeaves).pq = [r.idx] := by
    rw [hforest.pq, hr]; rfl
  have hroot : s.buildTree.regs.root = r.idx := by rw [State.buildTree, State.takeRoot, hpq]; rfl
  have htree := (hforest.roots r (by simp [hr])).2
  rw [hroot, ht]
  refine treeAt_of_same_node (htree.treeAt ?_) (takeRoot_node _)
  rw [← ht]
  exact Nat.lt_succ_of_le (huffmanTree_depth_le hy hc)

end Sys2Proof.Machine

namespace Sys2Proof.Machine

/-! ### GENCODES and HDRSER (R125 to R129, R135, R136) -/

/-! #### Paths and codes -/

theorem paths_map_fst (t : CodeTree) : t.paths.map Prod.fst = t.leaves := by
  induction t with
  | leaf _ => rfl
  | node l r ihl ihr => simp [CodeTree.paths, CodeTree.leaves, ← ihl, ← ihr, Function.comp_def]

theorem codes_map_fst (t : CodeTree) : t.codes.map Prod.fst = t.leaves := by
  cases t with
  | leaf _ => rfl
  | node l r => exact paths_map_fst _

theorem path_length_le_depth {t : CodeTree} {y : Sym} {p : Bits} (h : (y, p) ∈ t.paths) : p.length ≤ t.depth := by
  induction t generalizing p with
  | leaf _ =>
    cases List.mem_singleton.mp h
    exact le_rfl
  | node l r ihl ihr =>
    rw [CodeTree.paths, List.mem_append, List.mem_map, List.mem_map] at h
    rcases h with ⟨⟨_, q⟩, hq, e⟩ | ⟨⟨_, q⟩, hq, e⟩ <;> cases e
    · exact Nat.succ_le_succ ((ihl hq).trans (le_max_left _ _))
    · exact Nat.succ_le_succ ((ihr hq).trans (le_max_right _ _))

theorem path_ne_nil {l r : CodeTree} {y : Sym} {p : Bits} (h : (y, p) ∈ (CodeTree.node l r).paths) : p ≠ [] := by
  rw [CodeTree.paths, List.mem_append, List.mem_map, List.mem_map] at h
  rcases h with ⟨⟨_, q⟩, -, e⟩ | ⟨⟨_, q⟩, -, e⟩ <;> cases e <;> exact List.cons_ne_nil _ _

/-- A tree of at most 256 levels of edges has codes of 1 to 256 bits (R84, R127). -/
theorem code_length {t : CodeTree} {y : Sym} {p : Bits} (hd : t.depth ≤ Config.codeMax) (h : (y, p) ∈ t.codes) :
    1 ≤ p.length ∧ p.length ≤ Config.codeMax := by
  cases t with
  | leaf _ =>
    cases List.mem_singleton.mp h
    exact ⟨le_rfl, by decide⟩
  | node l r => exact ⟨List.length_pos_of_ne_nil (path_ne_nil h), (path_length_le_depth h).trans hd⟩

/-- Every leaf has its code. -/
theorem codeOf_mem_codes {t : CodeTree} {y : Sym} (h : y ∈ t.leaves) : (y, t.codeOf y) ∈ t.codes := by
  rw [← codes_map_fst, List.mem_map] at h
  obtain ⟨x, hx, hxy⟩ := h
  rw [CodeTree.codeOf]
  cases hfind : t.codes.find? (fun x : Sym × Bits => x.1 == y) with
  | none => exact absurd (beq_iff_eq.mpr hxy) (List.find?_eq_none.mp hfind x hx)
  | some z =>
    have hz : z.1 = y := beq_iff_eq.mp (List.find?_some (p := fun x : Sym × Bits => x.1 == y) hfind)
    rw [← hz]
    exact List.mem_of_find?_eq_some hfind

/-! #### Entries of the code table -/

theorem ofBits_len {p : Bits} (h : p.length ≤ Config.codeMax) : (CodeEntry.ofBits p).len.toNat = p.length := by
  rw [CodeEntry.ofBits, BitVec.toNat_ofNat]
  exact Nat.mod_eq_of_lt (Nat.lt_of_le_of_lt h (by decide))

theorem ofBits_bits {p : Bits} (h : p.length ≤ Config.codeMax) : (CodeEntry.ofBits p).bits.toNat = val p := by
  rw [CodeEntry.ofBits, BitVec.toNat_ofNat]
  exact Nat.mod_eq_of_lt (Nat.lt_of_lt_of_le (val_lt p) (Nat.pow_le_pow_right (by decide) h))

/-- An entry gives back the code it was made of (R34). -/
theorem ofBits_toBits {p : Bits} (h : p.length ≤ Config.codeMax) : (CodeEntry.ofBits p).toBits = p := by
  rw [CodeEntry.toBits, ofBits_len h, ofBits_bits h, bits_val]

/-- The code table with these codes written to it, in order. -/
def fillTable (table : Vector CodeEntry 257) (l : List (Sym × Bits)) : Vector CodeEntry 257 :=
  l.foldl (fun tbl x => tbl.setIfInBounds x.1.toNat (CodeEntry.ofBits x.2)) table

theorem fillTable_append (table : Vector CodeEntry 257) (l m : List (Sym × Bits)) :
    fillTable table (l ++ m) = fillTable (fillTable table l) m := List.foldl_append

theorem fillTable_of_notMem {table : Vector CodeEntry 257} {l : List (Sym × Bits)} {y : Sym} (h : y ∉ l.map Prod.fst) :
    (fillTable table l)[y.toNat]? = table[y.toNat]? := by
  induction l generalizing table with
  | nil => rfl
  | cons x l ih =>
    rw [List.map_cons, List.mem_cons, not_or] at h
    have hne : x.1.toNat ≠ y.toNat := fun e => h.1 (BitVec.eq_of_toNat_eq e.symm)
    exact (ih h.2).trans (Vector.getElem?_setIfInBounds_ne hne)

theorem fillTable_of_mem {table : Vector CodeEntry 257} {l : List (Sym × Bits)} {y : Sym} {p : Bits}
    (hnodup : (l.map Prod.fst).Nodup) (hy : y.toNat ≤ 256) (h : (y, p) ∈ l) :
    (fillTable table l)[y.toNat]? = some (CodeEntry.ofBits p) := by
  induction l generalizing table with
  | nil => cases h
  | cons x l ih =>
    obtain ⟨hx, hl⟩ := List.nodup_cons.mp hnodup
    rcases List.mem_cons.mp h with rfl | h
    · refine (fillTable_of_notMem hx).trans ?_
      simp [Nat.lt_succ_of_le hy]
    · exact ih hl h

/-! #### GENCODES -/

theorem setCode_eq {s : State} {y : Sym} (p : Bits) (h : y.toNat ≤ 256) :
    s.setCode y p = .next { s with code := fillTable s.code [(y, p)] } := if_pos (Nat.lt_succ_of_le h)

/-- `gen` writes the paths of the tree below `i`, each after `p` (R125). -/
theorem gen_eq {k : Nat} {i : Idx} {t : CodeTree} {s : State} (p : Bits) (ht : s.treeAt k i = some t)
    (hy : ∀ y ∈ t.leaves, y.toNat ≤ 256) :
    gen k i p s = .next { s with code := fillTable s.code (t.paths.map fun x => (x.1, p ++ x.2)) } := by
  induction k generalizing i t s p with
  | zero => cases ht
  | succ k ih =>
    rcases treeAt_succ_cases ht with ⟨y, w, hn, rfl⟩ | ⟨w, l, r, tl, tr, hn, hl, hr, rfl⟩
    · simp only [gen, hn, setCode_eq p (hy y (List.mem_singleton.mpr rfl)), CodeTree.paths, List.map_cons,
        List.map_nil, List.append_nil]
    · have hleft := ih (p ++ [false]) hl fun y h => hy y (List.mem_append_left _ h)
      have hright := ih (s := { s with code := fillTable s.code (tl.paths.map fun x => (x.1, p ++ [false] ++ x.2)) })
        (p ++ [true]) (treeAt_of_same_node hr rfl) fun y h => hy y (List.mem_append_right _ h)
      simp only [gen, hn, hleft, andThen_next]
      rw [hright]
      simp only [← fillTable_append, CodeTree.paths, List.map_append, List.map_map, Function.comp_def,
        List.append_assoc, List.singleton_append]

/-- The whole table: every leaf's code (R125, R127). -/
theorem fillCodes_eq {s : State} {t : CodeTree} (ht : s.treeAt (Config.codeMax + 1) s.regs.root = some t)
    (hy : ∀ y ∈ t.leaves, y.toNat ≤ 256) : s.fillCodes = .next { s with code := fillTable s.code t.codes } := by
  rw [State.fillCodes]
  rcases treeAt_succ_cases ht with ⟨y, w, hn, rfl⟩ | ⟨w, l, r, tl, tr, hn, -, -, rfl⟩ <;> rw [hn]
  · exact setCode_eq [false] (hy y (List.mem_singleton.mpr rfl))
  · have h := gen_eq [] ht hy
    simpa only [List.nil_append, Prod.mk.eta, List.map_id', CodeTree.codes] using h

/-- GENCODES on a tree of symbols (R125). -/
theorem execGencodes_eq {s : State} {t : CodeTree} (ht : s.treeAt (Config.codeMax + 1) s.regs.root = some t)
    (hy : ∀ y ∈ t.leaves, y.toNat ≤ 256) :
    execGencodes s =
      .next (({ s.startCodes with code := fillTable s.startCodes.code t.codes } : State).freePath.setPhase .cMark) := by
  rw [execGencodes, fillCodes_eq (s := s.startCodes) (treeAt_of_same_node ht rfl) hy]
  rfl

theorem startCodes_codeAt {s : State} {y : Sym} {e : CodeEntry} (h : s.codeAt y = some e) :
    s.startCodes.code[y.toNat]? = some { e with valid := false } := by
  obtain ⟨hlt, rfl⟩ := Vector.getElem?_eq_some_iff.mp h
  simp [State.startCodes, hlt]

/-- The entry of a leaf's symbol once the codes are in the table. -/
theorem execGencodes_codeAt {s t : State} {tree : CodeTree}
    (ht : s.treeAt (Config.codeMax + 1) s.regs.root = some tree) (hnodup : tree.leaves.Nodup)
    (hy : ∀ y ∈ tree.leaves, y.toNat ≤ 256) (h : execGencodes s = .next t) {y : Sym} {p : Bits}
    (hp : (y, p) ∈ tree.codes) : t.codeAt y = some (CodeEntry.ofBits p) := by
  cases (execGencodes_eq ht hy).symm.trans h
  have hmem : y ∈ tree.leaves := by rw [← codes_map_fst]; exact List.mem_map_of_mem hp
  exact fillTable_of_mem (by rwa [codes_map_fst]) (hy y hmem) hp

/-- Settles O28: the table is `startCodes`' with the codes of the tree written to it (`execGencodes_eq`). -/
theorem gencodesStoresEveryPathAsItsCode : Obligations.GencodesStoresEveryPathAsItsCode := by
  intro s tree ht hnodup hy
  have hdepth := Nat.le_of_lt_succ (depth_lt_of_treeAt ht)
  have h := execGencodes_eq ht hy
  refine ⟨_, h, (execGencodes_frame h).1, fun y p hp => ?_, fun y e hleaf he => ?_⟩
  · obtain ⟨hpos, hle⟩ := code_length hdepth hp
    exact ⟨hpos, hle, _, execGencodes_codeAt ht hnodup hy h hp, rfl, ofBits_len hle, ofBits_bits hle, ofBits_toBits hle⟩
  · exact (fillTable_of_notMem (by rwa [codes_map_fst])).trans (startCodes_codeAt he)

/-! #### HDRSER -/

/-- `ser` issues the writes of the tree below `i`, which append its serialization (R135, R136). -/
theorem ser_eq {k : Nat} {i : Idx} {t : CodeTree} {s : State} (ht : s.treeAt k i = some t) :
    ser k i s = .next { s with out := { s.out with bits := s.out.bits ++ t.ser }, trace := s.trace ++ t.writes } := by
  induction k generalizing i t s with
  | zero => cases ht
  | succ k ih =>
    rcases treeAt_succ_cases ht with ⟨y, w, hn, rfl⟩ | ⟨w, l, r, tl, tr, hn, hl, hr, rfl⟩
    · simp [ser, hn, State.emitL, State.writeBits, CodeTree.ser, CodeTree.writes, bits, Config.symW]
    · have hleft := ih (s := s.emitN) (treeAt_of_same_node hl rfl)
      have hright := ih (s := { s.emitN with
        out := { s.emitN.out with bits := s.emitN.out.bits ++ tl.ser }
        trace := s.emitN.trace ++ tl.writes }) (treeAt_of_same_node hr rfl)
      simp only [ser, hn, hleft, andThen_next, hright]
      simp [State.emitN, State.writeBits, CodeTree.ser, CodeTree.writes, bits]

/-- Settles O31: HDRSER clears the stack, then `ser_eq`. -/
theorem hdrserAppendsTheSerializedTree : Obligations.HdrserAppendsTheSerializedTree := by
  intro s tree ht
  have h : ser Config.nodeCap s.regs.root s.clearStk = _ := ser_eq (treeAt_of_same_node ht rfl)
  show execHdrser s = _
  rw [execHdrser, h]
  rfl

end Sys2Proof.Machine

namespace Sys2Proof.Machine

/-! ### The header (R82, R83, R136, R140 to R145) -/

/-! #### Serialized trees -/

theorem depth_lt_ser_length (t : CodeTree) : t.depth < t.ser.length := by
  induction t with
  | leaf _ => exact Nat.succ_pos _
  | node l r ihl ihr =>
    rw [CodeTree.depth, CodeTree.ser, List.length_cons, List.length_append]
    omega

/-- Deserializing a serialized tree gives it back, with the bits after it (R145). -/
theorem des_ser {t : CodeTree} {k : Nat} (u : Bits) (hk : t.depth < k) : des k (t.ser ++ u) = some (t, u) := by
  induction t generalizing k u with
  | leaf y =>
    obtain ⟨k, rfl⟩ := Nat.exists_eq_succ_of_ne_zero (Nat.ne_zero_of_lt hk)
    have hlen : (bits Config.symW y.toNat).length = Config.symW := bits_length _ _
    have hle : Config.symW ≤ (bits Config.symW y.toNat ++ u).length := by rw [List.length_append]; omega
    rw [CodeTree.ser, List.cons_append, des, if_pos hle, List.take_left' hlen, List.drop_left' hlen]
    simp only [Config.symW, ofNat_val_bits]
  | node l r ihl ihr =>
    obtain ⟨k, rfl⟩ := Nat.exists_eq_succ_of_ne_zero (Nat.ne_zero_of_lt hk)
    have hd := Nat.lt_of_succ_lt_succ hk
    rw [CodeTree.ser, List.cons_append, List.append_assoc, des, ihl _ (lt_of_le_of_lt (le_max_left _ _) hd)]
    simp only [ihr _ (lt_of_le_of_lt (le_max_right _ _) hd)]

/-- What is deserialized is the serialized tree and the bits after it. -/
theorem eq_ser_of_des {k : Nat} {u rest : Bits} {t : CodeTree} (h : des k u = some (t, rest)) : u = t.ser ++ rest := by
  induction k generalizing u t rest with
  | zero => cases h
  | succ k ih =>
    match u with
    | [] => cases h
    | true :: u =>
      rw [des] at h
      split at h
      · rename_i hlen
        cases h
        have htake : (u.take 9).length = 9 := by rw [List.length_take, Config.symW] at *; omega
        rw [CodeTree.ser, Config.symW, bits_ofNat_val htake, List.cons_append]
        exact congrArg (true :: ·) (List.take_append_drop Config.symW u).symm
      · cases h
    | false :: u =>
      rw [des] at h
      split at h
      · cases h
      · rename_i l v hl
        split at h
        · cases h
        · rename_i r w hr
          cases h
          rw [ih hl, ih hr, CodeTree.ser, List.cons_append, List.append_assoc]

/-- `Des` with its capacity check accepts exactly the serialized trees of at most NODE_CAP nodes (R142, R143). -/
theorem desCapped_eq_some_iff {u rest : Bits} {t : CodeTree} :
    desCapped u = some (t, rest) ↔ u = t.ser ++ rest ∧ t.size ≤ Config.nodeCap := by
  constructor
  · intro h
    rw [desCapped] at h
    split at h
    · rename_i t' rest' hd
      split at h
      · cases h
        exact ⟨eq_ser_of_des hd, ‹_›⟩
      · cases h
    · cases h
  · rintro ⟨rfl, hsize⟩
    have hdepth := depth_lt_ser_length t
    have hd : des ((t.ser ++ rest).length + 1) (t.ser ++ rest) = some (t, rest) :=
      des_ser rest (by rw [List.length_append]; omega)
    rw [desCapped, hd]
    exact if_pos hsize

/-! #### Completing subtrees -/

/-- The open nodes `es`, innermost first, completed one by one: `i` is the right child of the first, each the right child
of the next (R140, R143). -/
def completeNodes : List (Idx × BitVec 2) → Idx → State → State
  | [], _, s => s
  | e :: es, i, s => completeNodes es e.1 (s.putInner e.1 (e.1 + 1) i)

/-- A subtree's end completes the open nodes that wait for their right subtree. -/
theorem closeSubtree_append {es : List (Idx × BitVec 2)} (hes : ∀ e ∈ es, e.2 ≠ 0) (st : List (Idx × BitVec 2)) (i : Idx)
    (s : State) : closeSubtree (es ++ st) i s =
      closeSubtree st ((es.map Prod.fst).getLastD i) (completeNodes es i s) := by
  induction es generalizing i s with
  | nil => rfl
  | cons e es ih =>
    obtain ⟨he, hes⟩ := List.forall_mem_cons.mp hes
    rw [List.cons_append, closeSubtree, if_neg he, ih hes, List.map_cons, List.getLastD_cons]
    rfl

theorem completeNodes_frame (es : List (Idx × BitVec 2)) (i : Idx) (s : State) : completeNodes es i s = { s with
    node := (completeNodes es i s).node
    freeCtr := (completeNodes es i s).freeCtr } := by
  induction es generalizing i s with
  | nil => rfl
  | cons e es ih => exact ih e.1 (s.putInner e.1 (e.1 + 1) i)

theorem putInner_nodeAt_ne {s : State} {i k : Idx} (l r : Idx) (h : k ≠ i) : (s.putInner i l r).nodeAt k = s.nodeAt k :=
  nodeAt_setNode_ne _ h

theorem completeNodes_nodeAt_of_notMem {es : List (Idx × BitVec 2)} {k : Idx} (h : k ∉ es.map Prod.fst) (i : Idx)
    (s : State) : (completeNodes es i s).nodeAt k = s.nodeAt k := by
  induction es generalizing i s with
  | nil => rfl
  | cons e es ih =>
    rw [List.map_cons, List.mem_cons, not_or] at h
    exact (ih h.2 e.1 _).trans (putInner_nodeAt_ne _ _ h.1)

/-- A completed node has the node after it as its left child, and the one completed before it as its right one. -/
theorem completeNodes_nodeAt {es : List (Idx × BitVec 2)} (hnodup : (es.map Prod.fst).Nodup) {n : Nat} {i j c : Idx}
    (hj : j.toNat < 513) (hn : (es.map Prod.fst)[n]? = some j) (hc : (i :: es.map Prod.fst)[n]? = some c) (s : State) :
    ∃ w, (completeNodes es i s).nodeAt j = some (.inner w (j + 1) c) := by
  induction es generalizing i s n with
  | nil => cases hn
  | cons e es ih =>
    obtain ⟨he, hnodup⟩ := List.nodup_cons.mp hnodup
    cases n with
    | zero =>
      cases hn
      cases hc
      exact ⟨_, (completeNodes_nodeAt_of_notMem he _ _).trans (nodeAt_setNode_same _ hj)⟩
    | succ n => exact ih hnodup hn hc _

theorem closeSubtree_nodeAt_of_notMem {st : List (Idx × BitVec 2)} {k : Idx} (h : k ∉ st.map Prod.fst) (i : Idx)
    (s : State) : (closeSubtree st i s).nodeAt k = s.nodeAt k := by
  induction st generalizing i s with
  | nil => rfl
  | cons e st ih =>
    rw [List.map_cons, List.mem_cons, not_or] at h
    rw [closeSubtree]
    split
    · rfl
    · exact (ih h.2 e.1 _).trans (putInner_nodeAt_ne _ _ h.1)

theorem closeSubtree_sp (st : List (Idx × BitVec 2)) (i : Idx) (s : State) :
    (closeSubtree st i s).regs.sp = BitVec.ofNat 10 (closeSubtree st i s).stk.length := by
  induction st generalizing i s with
  | nil => rfl
  | cons e st ih =>
    rw [closeSubtree]
    split
    · rfl
    · exact ih e.1 _

/-- What is left open was open before. -/
theorem closeSubtree_stk_mem {st : List (Idx × BitVec 2)} {i : Idx} {s : State} {e : Idx × BitVec 2}
    (h : e ∈ (closeSubtree st i s).stk) : e.1 ∈ st.map Prod.fst := by
  induction st generalizing i s with
  | nil => cases h
  | cons d st ih =>
    rw [closeSubtree] at h
    rw [List.map_cons, List.mem_cons]
    split at h
    · rcases List.mem_cons.mp h with rfl | h
      · exact .inl rfl
      · exact .inr (List.mem_map_of_mem h)
    · exact .inr (ih h)

/-! #### One token -/

/-- The state once a leaf's flag and its field `p` have been taken and its entry written (R83, R140, R144). -/
def State.withLeaf (s : State) (p : Bits) : State :=
  { s with
    regs := { s.regs with acc := BitVec.ofNat 32 (val p), bitcnt := 0, nnodes := s.regs.nnodes + 1 }
    node := s.node.setIfInBounds s.regs.nnodes.toNat (.leaf (BitVec.ofNat 9 (val p)) (s.freeValue 32))
    inp := { s.inp with pos := s.inp.pos + 10, rsp := lastBit p (some (.bit true)) }
    trace := s.trace ++ readsOf (true :: p)
    freeCtr := s.freeCtr + 1 }

/-- The state once IN has ended among the nine bits of a leaf's field, `p` being the ones there were (R141). -/
def State.cutLeaf (s : State) (p : Bits) : State :=
  { s with
    phase := .close
    flags := s.flags.raised .corruptHeader
    regs := { s.regs with
      acc := BitVec.ofNat 32 (val p)
      bitcnt := BitVec.ofNat 6 9 - BitVec.ofNat 6 p.length
      nnodes := s.regs.nnodes + 1 }
    inp := { s.inp with pos := s.inp.pos + (true :: p).length, rsp := some .endOfData }
    trace := s.trace ++ readsOf (true :: p) ++ [.readBit none] }

theorem storeFull_iff {s : State} : s.storeFull = true ↔ 513 ≤ s.regs.nnodes.toNat := decide_eq_true_iff

theorem tokenL_of_full {s : State} (h : 513 ≤ s.regs.nnodes.toNat) (bs : Bits) :
    s.tokenL bs = s.raise .corruptHeader := if_pos (storeFull_iff.mpr h)

theorem not_storeFull {s : State} (h : s.regs.nnodes.toNat < 513) : ¬ s.storeFull = true :=
  fun hfull => Nat.not_le.mpr h (storeFull_iff.mp hfull)

/-- The token L with its nine bits there (R83, R140). -/
theorem tokenL_eq {s : State} {p : Bits} (hroom : s.regs.nnodes.toNat < 513) (hp : p.length = 9) (bs : Bits) :
    s.tokenL (p ++ bs) = closeSubtree s.stk s.regs.nnodes (s.withLeaf p) := by
  have hlen : Config.symW ≤ (p ++ bs).length := by rw [List.length_append, hp]; exact Nat.le_add_right 9 _
  have htake : (p ++ bs).take Config.symW = p := List.take_left' hp
  have hval : (BitVec.ofNat 32 (val p)).setWidth 9 = BitVec.ofNat 9 (val p) := by
    apply BitVec.eq_of_toNat_eq
    simp only [BitVec.toNat_setWidth, BitVec.toNat_ofNat]
    exact Nat.mod_mod_of_dvd _ (by decide)
  rw [State.tokenL, if_neg (not_storeFull hroom)]
  rcases leafField_cases (s.reserve.tookBit true) s.regs.nnodes (p ++ bs) with ⟨-, e⟩ | ⟨hshort, -⟩
  · rw [e, readField_eq, if_pos hlen, if_pos hlen, htake, Nat.min_eq_left hlen]
    simp only [hval, BitVec.sub_self, List.append_nil]
    simp [State.withLeaf, State.putLeaf, State.setNode, State.reserve, State.setRegs, State.tookBit, State.tookFree,
      State.freeValue, readsOf, Config.symW]
  · omega

/-- The token L with fewer than nine bits there (R141). -/
theorem tokenL_of_short {s : State} {bs : Bits} (hroom : s.regs.nnodes.toNat < 513) (hshort : bs.length < 9) :
    s.tokenL bs = s.cutLeaf bs := by
  have hlen : ¬ Config.symW ≤ bs.length := Nat.not_le.mpr hshort
  rw [State.tokenL, if_neg (not_storeFull hroom)]
  rcases leafField_cases (s.reserve.tookBit true) s.regs.nnodes bs with ⟨h, -⟩ | ⟨-, e⟩
  · exact absurd h hlen
  · rw [e, readField_eq, if_neg hlen, if_neg hlen, List.take_of_length_le (Nat.le_of_not_le hlen),
      Nat.min_eq_right (Nat.le_of_not_le hlen)]
    simp [State.cutLeaf, State.raise, State.reserve, State.setRegs, State.tookBit, readsOf, Config.symW, Nat.add_assoc,
      Nat.add_comm 1]

/-- The state once an N token has opened a node (R82, R140). -/
def State.openNode (s : State) : State := (s.reserve.tookBit false).setStk ((s.regs.nnodes, 0) :: s.stk)

/-- What one token of the header can do (R140 to R142). -/
inductive HeaderStep (s : State) : State → Prop
  | full (h : 513 ≤ s.regs.nnodes.toNat) : HeaderStep s (s.raise .corruptHeader)
  | ended (hroom : s.regs.nnodes.toNat < 513) (hb : s.bitsLeft = []) :
    HeaderStep s (s.reserve.sawBitEnd.raise .corruptHeader)
  | cut {p} (hroom : s.regs.nnodes.toNat < 513) (hp : p.length < 9) (hb : s.bitsLeft = true :: p) :
    HeaderStep s (s.cutLeaf p)
  | inner {bs} (hroom : s.regs.nnodes.toNat < 513) (hb : s.bitsLeft = false :: bs) : HeaderStep s s.openNode
  | leaf {p bs} (hroom : s.regs.nnodes.toNat < 513) (hp : p.length = 9) (hb : s.bitsLeft = true :: (p ++ bs)) :
    HeaderStep s (closeSubtree s.stk s.regs.nnodes (s.withLeaf p))

theorem headerToken_inner {s : State} {bs : Bits} (hroom : s.regs.nnodes.toNat < 513) (hb : s.bitsLeft = false :: bs) :
    s.headerToken = s.openNode := by
  rw [State.headerToken, if_neg (not_storeFull hroom), hb]
  exact if_neg (not_storeFull hroom)

theorem headerToken_true {s : State} {bs : Bits} (hroom : s.regs.nnodes.toNat < 513) (hb : s.bitsLeft = true :: bs) :
    s.headerToken = s.tokenL bs := by
  rw [State.headerToken, if_neg (not_storeFull hroom), hb]

theorem headerStep (s : State) : HeaderStep s s.headerToken := by
  by_cases hroom : s.regs.nnodes.toNat < 513
  · match hb : s.bitsLeft with
    | [] =>
      rw [State.headerToken, if_neg (not_storeFull hroom), hb]
      exact .ended hroom hb
    | false :: bs =>
      rw [headerToken_inner hroom hb]
      exact .inner hroom hb
    | true :: bs =>
      rw [headerToken_true hroom hb]
      by_cases hlen : bs.length < 9
      · rw [tokenL_of_short hroom hlen]
        exact .cut hroom hlen hb
      · have htake : (bs.take 9).length = 9 := by rw [List.length_take]; omega
        rw [← List.take_append_drop 9 bs] at hb ⊢
        rw [tokenL_eq hroom htake]
        exact .leaf hroom htake hb
  · rw [State.headerToken, if_pos (storeFull_iff.mpr (Nat.le_of_not_lt hroom))]
    exact .full (Nat.le_of_not_lt hroom)

/-! #### The token L -/

theorem execL_eq {s : State} {b : Bits} (hc : s.phase.compressing = false) (hb : s.inp.data.asBits s.inp.pos = some b)
    (y : Sym) : execL y s = .next ((s.viewBits b).tokenL (bits 9 y.toNat)) := by
  rw [execL, hc, if_neg Bool.false_ne_true, withBits_eq hb]
  rfl

theorem ofNat_val_bits_setWidth (y : Sym) : BitVec.ofNat 32 (val (bits 9 y.toNat)) = y.setWidth 32 := by
  rw [val_bits, Nat.mod_eq_of_lt y.isLt, BitVec.ofNat_toNat]

/-- The entry of the leaf is as the token says. -/
theorem withLeaf_nodeAt {s : State} (hroom : s.regs.nnodes.toNat < 513) (y : Sym) :
    (s.withLeaf (bits 9 y.toNat)).nodeAt s.regs.nnodes = some (.leaf y (s.freeValue 32)) := by
  have h : (s.withLeaf (bits 9 y.toNat)).nodeAt s.regs.nnodes = _ := nodeAt_setNode_same _ hroom
  rw [h, ofNat_val_bits]

theorem withLeaf_nodeAt_ne {s : State} (p : Bits) {k : Idx} (hk : k ≠ s.regs.nnodes) :
    (s.withLeaf p).nodeAt k = s.nodeAt k := nodeAt_setNode_ne _ hk

/-- What the token L does to the fields other than the node store and the stack. -/
theorem closeSubtree_withLeaf_frame {s t : State} {b : Bits} {y : Sym}
    (h : t = closeSubtree s.stk s.regs.nnodes ((s.viewBits b).withLeaf (bits 9 y.toNat))) :
    t = { s with
      phase := t.phase
      regs := { s.regs with
        acc := y.setWidth 32, bitcnt := 0, nnodes := s.regs.nnodes + 1
        root := t.regs.root, cur := t.regs.cur, sp := BitVec.ofNat 10 t.stk.length }
      node := t.node
      stk := t.stk
      inp := { s.inp with data := .bits b, pos := s.inp.pos + 10, rsp := t.inp.rsp }
      trace := s.trace ++ readsOf (true :: bits 9 y.toNat)
      freeCtr := t.freeCtr } := by
  have hsp := closeSubtree_sp s.stk s.regs.nnodes ((s.viewBits b).withLeaf (bits 9 y.toNat))
  have hframe := (closeSubtree_frame s.stk s.regs.nnodes ((s.viewBits b).withLeaf (bits 9 y.toNat))).1
  rw [← h] at hsp hframe
  have hrsp : t.inp.rsp = lastBit (bits 9 y.toNat) (some (.bit true)) := by rw [hframe]; rfl
  rw [hrsp, ← hsp, ← ofNat_val_bits_setWidth]
  exact hframe

/-- A subtree's end in full: the open nodes `es` are completed, then the next one, which waited for its left subtree, waits
for its right one; with none left the header is complete (R140). -/
theorem closeSubtree_spec {es st : List (Idx × BitVec 2)} (hes : ∀ e ∈ es, e.2 ≠ 0) (hst : ∀ e ∈ st.head?, e.2 = 0)
    (i : Idx) (s : State) :
    (∀ k, (closeSubtree (es ++ st) i s).nodeAt k = (completeNodes es i s).nodeAt k) ∧
    (∀ j st', st = (j, 0) :: st' →
      (closeSubtree (es ++ st) i s).stk = (j, 1) :: st' ∧ (closeSubtree (es ++ st) i s).phase = s.phase ∧
      (closeSubtree (es ++ st) i s).regs.root = s.regs.root ∧ (closeSubtree (es ++ st) i s).regs.cur = s.regs.cur) ∧
    (st = [] →
      (closeSubtree (es ++ st) i s).stk = [] ∧ (closeSubtree (es ++ st) i s).phase = .dRoot ∧
      (closeSubtree (es ++ st) i s).regs.root = (es.map Prod.fst).getLastD i ∧
      (closeSubtree (es ++ st) i s).regs.cur = (closeSubtree (es ++ st) i s).regs.root) := by
  rw [closeSubtree_append hes]
  match st, hst with
  | [], _ => exact ⟨fun _ => rfl, nofun, fun _ => ⟨rfl, rfl, rfl, rfl⟩⟩
  | (j, v) :: st', hst =>
    obtain rfl : v = 0 := hst (j, v) rfl
    refine ⟨fun _ => rfl, fun j' st'' e => ?_, nofun⟩
    cases e
    rw [completeNodes_frame]
    exact ⟨rfl, rfl, rfl, rfl⟩

/-- Settles O45: the leaf is written (`tokenL_eq`), then the open nodes are completed (`closeSubtree_spec`). -/
theorem leafTokenMakesALeaf : Obligations.LeafTokenMakesALeaf := by
  intro s y b hc hb
  refine ⟨fun hroom hstk => ?_, fun hfull => ?_⟩
  · have hleaf : execL y s =
        .next (closeSubtree s.stk s.regs.nnodes ((s.viewBits b).withLeaf (bits 9 y.toNat))) := by
      have h := tokenL_eq (s := s.viewBits b) hroom (bits_length 9 y.toNat) []
      rw [List.append_nil] at h
      rw [execL_eq hc hb, h]
      rfl
    have hfresh : s.regs.nnodes ∉ s.stk.map Prod.fst := fun hm => by
      obtain ⟨e, he, hidx⟩ := List.mem_map.mp hm
      exact hstk e he hidx
    refine ⟨_, hleaf, closeSubtree_withLeaf_frame rfl, ⟨s.freeValue 32, ?_⟩, fun es st hst hes hhead => ?_⟩
    · rw [closeSubtree_nodeAt_of_notMem hfresh]
      exact withLeaf_nodeAt (s := s.viewBits b) hroom y
    · rw [hst]
      obtain ⟨hnode, hopen, hdone⟩ :=
        closeSubtree_spec hes hhead s.regs.nnodes ((s.viewBits b).withLeaf (bits 9 y.toNat))
      refine ⟨fun k hk hes' => ?_, fun hnodup n j i hj hn hi => ?_, hopen, hdone⟩
      · have hk' : k ∉ es.map Prod.fst := fun hm => by
          obtain ⟨e, he, hidx⟩ := List.mem_map.mp hm
          exact hes' e he hidx
        rw [hnode, completeNodes_nodeAt_of_notMem hk']
        exact withLeaf_nodeAt_ne _ hk
      · rw [hnode]
        exact completeNodes_nodeAt hnodup hj hn hi _
  · show execL y s = _
    rw [execL_eq hc hb, tokenL_of_full (s := s.viewBits b) hfull]
    rfl

end Sys2Proof.Machine

namespace Sys2Proof.Machine

/-! #### HDRDES on a header that is a tree -/

/-- The bits left once `p` has been taken. -/
theorem bitsLeft_of_taken {s u : State} {p rest : Bits} (hdata : u.inp.data = s.inp.data)
    (hpos : u.inp.pos = s.inp.pos + p.length) (hb : s.bitsLeft = p ++ rest) : u.bitsLeft = rest := by
  rw [State.bitsLeft] at hb ⊢
  rw [hdata, hpos]
  cases hd : s.inp.data with
  | bits b =>
    simp only [hd] at hb ⊢
    rw [← List.drop_drop, hb, List.drop_left]
  | bytes x =>
    simp only [hd] at hb
    exact (List.append_eq_nil_iff.mp hb.symm).2.symm

/-- The loop after a token: on to the next one while the phase is D_HDR. -/
def continueHeader (k : Nat) (s : State) : State := if s.phase = .dHdr then headerLoop k s else s

theorem headerLoop_succ (k : Nat) (s : State) : headerLoop (k + 1) s = continueHeader k s.headerToken := rfl

/-- From `s` to `u` the serialized tree `t` has been read and put into the store, from the next free node on; its last
subtree's end has not been noted on the stack yet. -/
structure Parsed (t : CodeTree) (s u : State) : Prop where
  frame : HeaderFrame s u
  phase : u.phase = s.phase
  flags : u.flags = s.flags
  nnodes : u.regs.nnodes.toNat = s.regs.nnodes.toNat + t.size
  pos : u.inp.pos = s.inp.pos + t.ser.length
  trace : u.trace = s.trace ++ readsOf t.ser
  tree : TreeIn u s.regs.nnodes.toNat u.regs.nnodes.toNat s.regs.nnodes t
  below : ∀ k : Idx, k.toNat < s.regs.nnodes.toNat → u.nodeAt k = s.nodeAt k

theorem parsed_leaf {s : State} (hroom : s.regs.nnodes.toNat < 513) (y : Sym) :
    Parsed (.leaf y) s (s.withLeaf (bits 9 y.toNat)) where
  frame := ⟨rfl, rfl, rfl, rfl, rfl, rfl, rfl, rfl, rfl, rfl, rfl, rfl, rfl⟩
  phase := rfl
  flags := rfl
  nnodes := toNat_succ_of_lt hroom
  pos := by rw [CodeTree.ser, List.length_cons, bits_length]; rfl
  trace := rfl
  tree := by
    refine .leaf le_rfl ?_ (withLeaf_nodeAt hroom y)
    exact (toNat_succ_of_lt hroom).symm ▸ Nat.lt_succ_self _
  below := fun k hk => withLeaf_nodeAt_ne _ fun e => Nat.lt_irrefl _ (e ▸ hk)

/-- The two subtrees of an open node make it a tree once its entry is written (R143). -/
theorem parsed_node {s v w : State} {l r : CodeTree} {st : List (Idx × BitVec 2)} (hroom : s.regs.nnodes.toNat < 513)
    (hl : Parsed l s.openNode v) (hr : Parsed r (v.setStk st) w) :
    Parsed (.node l r) s (w.putInner s.regs.nnodes (s.regs.nnodes + 1) v.regs.nnodes) := by
  have hopen : s.openNode.regs.nnodes.toNat = s.regs.nnodes.toNat + 1 := toNat_succ_of_lt hroom
  have hv := hl.nnodes
  have hw : w.regs.nnodes.toNat = v.regs.nnodes.toNat + r.size := hr.nnodes
  rw [hopen] at hv
  have hne {k : Idx} (hk : k ≠ s.regs.nnodes) :
      (w.putInner s.regs.nnodes (s.regs.nnodes + 1) v.regs.nnodes).nodeAt k = w.nodeAt k := putInner_nodeAt_ne _ _ hk
  have hne_of_lt {k : Idx} (hk : s.regs.nnodes.toNat < k.toNat) : k ≠ s.regs.nnodes :=
    fun e => Nat.lt_irrefl _ (e ▸ hk)
  refine
    { frame := ?_, phase := hr.phase.trans hl.phase, flags := hr.flags.trans hl.flags, nnodes := ?_, pos := ?_
      trace := ?_, tree := ?_, below := fun k hk => ?_ }
  · have hstart : HeaderFrame s s.openNode := ⟨rfl, rfl, rfl, rfl, rfl, rfl, rfl, rfl, rfl, rfl, rfl, rfl, rfl⟩
    have hmid : HeaderFrame v (v.setStk st) := ⟨rfl, rfl, rfl, rfl, rfl, rfl, rfl, rfl, rfl, rfl, rfl, rfl, rfl⟩
    exact ((hstart.then hl.frame).then (hmid.then hr.frame)).then
      ⟨rfl, rfl, rfl, rfl, rfl, rfl, rfl, rfl, rfl, rfl, rfl, rfl, rfl⟩
  · show w.regs.nnodes.toNat = _
    rw [CodeTree.size]
    omega
  · have hpos : w.inp.pos = v.inp.pos + r.ser.length := hr.pos
    have hpos' : v.inp.pos = s.inp.pos + 1 + l.ser.length := hl.pos
    show w.inp.pos = _
    rw [CodeTree.ser, List.length_cons, List.length_append]
    omega
  · have htrace : w.trace = v.trace ++ readsOf r.ser := hr.trace
    have htrace' : v.trace = s.trace ++ [.readBit (some false)] ++ readsOf l.ser := hl.trace
    show w.trace = _
    rw [htrace, htrace', CodeTree.ser, readsOf_cons, readsOf_append]
    simp only [List.append_assoc, List.cons_append, List.nil_append]
  · have hlt : s.regs.nnodes.toNat < w.regs.nnodes.toNat := by omega
    have hchild : s.openNode.regs.nnodes = s.regs.nnodes + 1 := rfl
    refine .node le_rfl hlt (nodeAt_setNode_same _ hroom) (hchild ▸ hl.tree.congr ?_ ?_ fun k hk hk' => ?_)
      (hr.tree.congr ?_ le_rfl fun k hk _ => ?_)
    · omega
    · show _ ≤ w.regs.nnodes.toNat
      omega
    · exact (hne (hne_of_lt (by omega))).trans (hr.below k hk')
    · show _ ≤ v.regs.nnodes.toNat
      omega
    · have hk : v.regs.nnodes.toNat ≤ k.toNat := hk
      exact hne (hne_of_lt (by omega))
  · have hkopen : k.toNat < s.openNode.regs.nnodes.toNat := by omega
    have hkv : k.toNat < (v.setStk st).regs.nnodes.toNat := by show _ < v.regs.nnodes.toNat; omega
    rw [hne fun e => Nat.lt_irrefl _ (e ▸ hk), hr.below k hkv]
    exact hl.below k hkopen

/-- The deserializer reads a serialized tree that fits the store, and goes on with its subtree's end (R140, R143). -/
theorem headerLoop_ser (t : CodeTree) {s : State} {rest : Bits} (m : Nat) (hp : s.phase = .dHdr)
    (hb : s.bitsLeft = t.ser ++ rest) (hroom : s.regs.nnodes.toNat + t.size ≤ 513) :
    ∃ u, Parsed t s u ∧
      headerLoop (t.size + m) s = continueHeader m (closeSubtree s.stk s.regs.nnodes u) := by
  induction t generalizing s rest m with
  | leaf y =>
    have hlt : s.regs.nnodes.toNat < 513 := hroom
    have hb : s.bitsLeft = true :: (bits 9 y.toNat ++ rest) := hb
    refine ⟨_, parsed_leaf hlt y, ?_⟩
    rw [CodeTree.size, Nat.add_comm, headerLoop_succ, headerToken_true hlt hb, tokenL_eq hlt (bits_length _ _)]
  | node l r ihl ihr =>
    rw [CodeTree.size] at hroom
    have hlt : s.regs.nnodes.toNat < 513 := by omega
    have hopen : s.openNode.regs.nnodes.toNat = s.regs.nnodes.toNat + 1 := toNat_succ_of_lt hlt
    rw [CodeTree.ser, List.cons_append, List.append_assoc] at hb
    have hbl : s.openNode.bitsLeft = l.ser ++ (r.ser ++ rest) :=
      bitsLeft_of_taken (s := s) (p := [false]) rfl rfl hb
    obtain ⟨v, hv, hloopl⟩ := ihl (r.size + m) (s := s.openNode) hp hbl (by omega)
    have hnv := hv.nnodes
    have hbr : (v.setStk ((s.regs.nnodes, 1) :: s.stk)).bitsLeft = r.ser ++ rest :=
      bitsLeft_of_taken (s := s.openNode) (p := l.ser) hv.frame.data hv.pos hbl
    have hnodes : (v.setStk ((s.regs.nnodes, 1) :: s.stk)).regs.nnodes.toNat = v.regs.nnodes.toNat := rfl
    have hpv : (v.setStk ((s.regs.nnodes, 1) :: s.stk)).phase = .dHdr := hv.phase.trans hp
    obtain ⟨w, hw, hloopr⟩ := ihr m hpv hbr (by omega)
    refine ⟨_, parsed_node hlt hv hw, ?_⟩
    have hsize : l.size + r.size + 1 + m = l.size + (r.size + m) + 1 := by omega
    have hphase : s.openNode.phase = .dHdr := hp
    rw [CodeTree.size, hsize, headerLoop_succ, headerToken_inner hlt hb, continueHeader, if_pos hphase, hloopl]
    show continueHeader _ (v.setStk ((s.regs.nnodes, 1) :: s.stk)) = _
    rw [continueHeader, if_pos hpv, hloopr]
    rfl

end Sys2Proof.Machine

namespace Sys2Proof.Machine

/-! #### HDRDES on any header -/

theorem closeSubtree_nnodes (st : List (Idx × BitVec 2)) (i : Idx) (s : State) :
    (closeSubtree st i s).regs.nnodes = s.regs.nnodes := by rw [(closeSubtree_frame st i s).1]

theorem closeSubtree_inp (st : List (Idx × BitVec 2)) (i : Idx) (s : State) : (closeSubtree st i s).inp = s.inp := by
  rw [(closeSubtree_frame st i s).1]

theorem closeSubtree_trace (st : List (Idx × BitVec 2)) (i : Idx) (s : State) :
    (closeSubtree st i s).trace = s.trace := by rw [(closeSubtree_frame st i s).1]

/-- How many subtrees a header still has to give, with these open nodes: one now, and one for each node that waits for
its left subtree. -/
def openSlots (st : List (Idx × BitVec 2)) : Nat := (st.filter fun e => decide (e.2 = 0)).length + 1

theorem openSlots_zero (j : Idx) (st : List (Idx × BitVec 2)) : openSlots ((j, 0) :: st) = openSlots st + 1 := rfl

theorem openSlots_of_ne_zero {e : Idx × BitVec 2} (h : e.2 ≠ 0) (st : List (Idx × BitVec 2)) :
    openSlots (e :: st) = openSlots st := by
  rw [openSlots, List.filter_cons_of_neg (by simpa using h)]
  rfl

/-- A subtree's end leaves one subtree fewer to give, or completes the header. -/
theorem closeSubtree_openSlots (st : List (Idx × BitVec 2)) (i : Idx) {s : State} (hp : s.phase = .dHdr) :
    ((closeSubtree st i s).phase = .dHdr ∧ openSlots (closeSubtree st i s).stk + 1 = openSlots st) ∨
    ((closeSubtree st i s).phase = .dRoot ∧ openSlots st = 1) := by
  induction st generalizing i s with
  | nil => exact .inr ⟨rfl, rfl⟩
  | cons e st ih =>
    obtain ⟨j, v⟩ := e
    rw [closeSubtree]
    split
    · rename_i hv
      subst hv
      refine .inl ⟨hp, ?_⟩
      rw [openSlots_zero]
      exact congrArg (· + 1) (openSlots_of_ne_zero (e := (j, 1)) (by simp) st)
    · rename_i hv
      rw [openSlots_of_ne_zero hv]
      exact ih j hp

/-- From `s` to `u` the one whole token `q` has been taken. -/
structure Taken (q : Bits) (s u : State) : Prop where
  token : ∀ n v, headerTokens (n + 1) (q ++ v) = (headerTokens n v).map (q ++ ·)
  nnodes : u.regs.nnodes.toNat = s.regs.nnodes.toNat + 1
  pos : u.inp.pos = s.inp.pos + q.length
  trace : u.trace = s.trace ++ readsOf q
  bitsLeft : s.bitsLeft = q ++ u.bitsLeft

theorem taken_inner {s : State} {bs : Bits} (hroom : s.regs.nnodes.toNat < 513) (hb : s.bitsLeft = false :: bs) :
    Taken [false] s s.openNode where
  token := headerTokens_false
  nnodes := toNat_succ_of_lt hroom
  pos := rfl
  trace := rfl
  bitsLeft := by rw [bitsLeft_of_taken (s := s) (u := s.openNode) (p := [false]) rfl rfl hb, hb]; rfl

theorem taken_leaf {s : State} {p bs : Bits} (hroom : s.regs.nnodes.toNat < 513) (hp : p.length = 9)
    (hb : s.bitsLeft = true :: (p ++ bs)) :
    Taken (true :: p) s (closeSubtree s.stk s.regs.nnodes (s.withLeaf p)) where
  token := fun n v => headerTokens_true n p v hp
  nnodes := by rw [closeSubtree_nnodes]; exact toNat_succ_of_lt hroom
  pos := by rw [closeSubtree_inp, List.length_cons, hp]; rfl
  trace := by rw [closeSubtree_trace]; rfl
  bitsLeft := by
    have hpos : (closeSubtree s.stk s.regs.nnodes (s.withLeaf p)).inp.pos = s.inp.pos + (true :: p).length := by
      rw [closeSubtree_inp, List.length_cons, hp]; rfl
    rw [bitsLeft_of_taken (p := true :: p) (by rw [closeSubtree_inp]; rfl) hpos hb, hb]
    rfl

/-- `t` is where a header without a tree that fits leaves `s`: whole tokens up to NODE_CAP have been read, or all the bits
and the `END` (R141, R142). -/
structure HeaderStops (s t : State) : Prop where
  full : ∀ p, headerTokens (513 - s.regs.nnodes.toNat) s.bitsLeft = some p →
    t.regs.nnodes.toNat = 513 ∧ t.inp.pos = s.inp.pos + p.length ∧ t.trace = s.trace ++ readsOf p
  ended : headerTokens (513 - s.regs.nnodes.toNat) s.bitsLeft = none →
    t.inp.pos = s.inp.pos + s.bitsLeft.length ∧ t.inp.rsp = some .endOfData ∧
      t.trace = s.trace ++ readsOf s.bitsLeft ++ [.readBit none]

theorem HeaderStops.of_taken {q : Bits} {s u t : State} (hroom : s.regs.nnodes.toNat < 513) (hq : Taken q s u)
    (h : HeaderStops u t) : HeaderStops s t := by
  have hn : 513 - s.regs.nnodes.toNat = 513 - u.regs.nnodes.toNat + 1 := by rw [hq.nnodes]; omega
  refine ⟨fun p hp => ?_, fun hp => ?_⟩ <;> rw [hn, hq.bitsLeft, hq.token] at hp
  · obtain ⟨p', hp', rfl⟩ := Option.map_eq_some_iff.mp hp
    obtain ⟨hfull, hpos, htrace⟩ := h.full p' hp'
    refine ⟨hfull, ?_, ?_⟩
    · rw [hpos, hq.pos, List.length_append, Nat.add_assoc]
    · rw [htrace, hq.trace, readsOf_append, List.append_assoc]
  · obtain ⟨hpos, hrsp, htrace⟩ := h.ended (Option.map_eq_none_iff.mp hp)
    refine ⟨?_, hrsp, ?_⟩
    · rw [hpos, hq.pos, hq.bitsLeft, List.length_append, Nat.add_assoc]
    · rw [htrace, hq.trace, hq.bitsLeft, readsOf_append, List.append_assoc s.trace]

theorem headerStops_of_full {s : State} (h : 513 ≤ s.regs.nnodes.toNat) (hle : s.regs.nnodes.toNat ≤ 513) :
    HeaderStops s (s.raise .corruptHeader) := by
  have hn : 513 - s.regs.nnodes.toNat = 0 := by omega
  refine ⟨fun p hp => ?_, fun hp => ?_⟩ <;> rw [hn, headerTokens_zero] at hp <;> cases hp
  exact ⟨Nat.le_antisymm hle h, rfl, (List.append_nil _).symm⟩

/-- IN ends before a token or among its bits: there is no whole token (R141). -/
theorem headerStops_of_ended {s t : State} (hnone : ∀ n, headerTokens (n + 1) s.bitsLeft = none)
    (hroom : s.regs.nnodes.toNat < 513) (hpos : t.inp.pos = s.inp.pos + s.bitsLeft.length)
    (hrsp : t.inp.rsp = some .endOfData) (htrace : t.trace = s.trace ++ readsOf s.bitsLeft ++ [.readBit none]) :
    HeaderStops s t := by
  have hn : 513 - s.regs.nnodes.toNat = 512 - s.regs.nnodes.toNat + 1 := by omega
  refine ⟨fun p hp => ?_, fun _ => ⟨hpos, hrsp, htrace⟩⟩
  rw [hn, hnone] at hp
  cases hp

theorem headerTokens_cut {p : Bits} (hp : p.length < 9) (n : Nat) : headerTokens (n + 1) (true :: p) = none := by
  rw [headerTokens]
  exact if_neg (Nat.not_le.mpr hp)

/-- The bits start with the trees that fill the open slots, and the store has room for these. -/
def FillsSlots (s : State) : Prop :=
  ∃ (ts : List CodeTree) (rest : Bits), ts.length = openSlots s.stk ∧ s.bitsLeft = ts.flatMap CodeTree.ser ++ rest ∧
    s.regs.nnodes.toNat + (ts.map CodeTree.size).sum ≤ 513

theorem fillsSlots_of_inner {s : State} (hq : Taken [false] s s.openNode) (h : FillsSlots s.openNode) :
    FillsSlots s := by
  obtain ⟨ts, rest, hlen, hb, hsize⟩ := h
  rw [hq.nnodes] at hsize
  have hslots : openSlots s.openNode.stk = openSlots s.stk + 1 := rfl
  match ts, hlen with
  | [_], hlen => cases hlen.trans hslots
  | l :: r :: ts, hlen =>
    refine ⟨.node l r :: ts, rest, Nat.succ.inj (hlen.trans hslots), ?_, ?_⟩
    · rw [hq.bitsLeft, hb]
      simp only [List.flatMap_cons, CodeTree.ser, List.append_assoc, List.cons_append, List.nil_append]
    · simp only [List.map_cons, List.sum_cons, CodeTree.size] at hsize ⊢
      omega

/-- The leaf of nine bits and what follows it. -/
theorem fillsSlots_of_leaf {s u : State} {p rest : Bits} {ts : List CodeTree} (hp : p.length = 9)
    (hq : Taken (true :: p) s u) (hlen : ts.length + 1 = openSlots s.stk)
    (hb : u.bitsLeft = ts.flatMap CodeTree.ser ++ rest)
    (hsize : u.regs.nnodes.toNat + (ts.map CodeTree.size).sum ≤ 513) : FillsSlots s := by
  refine ⟨.leaf (BitVec.ofNat 9 (val p)) :: ts, rest, hlen, ?_, ?_⟩
  · rw [hq.bitsLeft, hb, List.flatMap_cons, CodeTree.ser, Config.symW, bits_ofNat_val hp, List.append_assoc]
  · rw [hq.nnodes] at hsize
    simp only [List.map_cons, List.sum_cons, CodeTree.size]
    omega

theorem continueHeader_of_close {k : Nat} {s : State} (h : s.phase = .close) : continueHeader k s = s :=
  if_neg (by rw [h]; exact nofun)

/-- A header that fills its slots within the store, or one that stops the deserializer. -/
theorem headerLoop_outcome (k : Nat) {s : State} (hp : s.phase = .dHdr) (hle : s.regs.nnodes.toNat ≤ 513)
    (hk : 513 < k + s.regs.nnodes.toNat) :
    FillsSlots s ∨ ((headerLoop k s).phase = .close ∧ HeaderStops s (headerLoop k s)) := by
  induction k generalizing s with
  | zero => omega
  | succ k ih =>
    have hstep := headerStep s
    rw [headerLoop_succ]
    generalize s.headerToken = u at hstep
    cases hstep with
    | full h =>
      rw [continueHeader_of_close rfl]
      exact .inr ⟨rfl, headerStops_of_full h hle⟩
    | ended hroom hb =>
      rw [continueHeader_of_close rfl]
      refine .inr ⟨rfl, headerStops_of_ended (fun n => ?_) hroom ?_ rfl ?_⟩
      · rw [hb]; rfl
      · rw [hb]; rfl
      · rw [hb, readsOf_nil, List.append_nil]; rfl
    | cut hroom hlen hb =>
      rw [continueHeader_of_close rfl]
      refine .inr ⟨rfl, headerStops_of_ended (fun n => ?_) hroom ?_ rfl ?_⟩
      · rw [hb]; exact headerTokens_cut hlen n
      · rw [hb]; rfl
      · rw [hb]; rfl
    | inner hroom hb =>
      have hq := taken_inner hroom hb
      have hn := hq.nnodes
      have hphase : s.openNode.phase = .dHdr := hp
      rw [continueHeader, if_pos hphase]
      rcases ih hphase (by omega) (by omega) with h | ⟨hclose, h⟩
      · exact .inl (fillsSlots_of_inner hq h)
      · exact .inr ⟨hclose, h.of_taken hroom hq⟩
    | @leaf p bs hroom hlen hb =>
      have hq := taken_leaf hroom hlen hb
      have hn := hq.nnodes
      rcases closeSubtree_openSlots s.stk s.regs.nnodes (s := s.withLeaf p) hp with ⟨hphase, hslots⟩ | ⟨-, hslots⟩
      · rw [continueHeader, if_pos hphase]
        rcases ih hphase (by omega) (by omega) with ⟨ts, rest, hlen', hb', hsize⟩ | ⟨hclose, h⟩
        · exact .inl (fillsSlots_of_leaf hlen hq (hlen' ▸ hslots) hb' hsize)
        · exact .inr ⟨hclose, h.of_taken hroom hq⟩
      · exact .inl (fillsSlots_of_leaf (ts := []) hlen hq hslots.symm rfl (by simp only [List.map_nil, List.sum_nil]; omega))

/-! #### The nodes beyond the header's -/

/-- The open nodes have been reserved. -/
def OpenBelow (s : State) : Prop := ∀ e ∈ s.stk, e.1.toNat < s.regs.nnodes.toNat

/-- No node at or beyond `nnodes` has been written. -/
structure KeepsAbove (s t : State) : Prop where
  nnodes : s.regs.nnodes.toNat ≤ t.regs.nnodes.toNat
  above : ∀ i : Idx, t.regs.nnodes.toNat ≤ i.toNat → t.nodeAt i = s.nodeAt i

theorem KeepsAbove.trans {s t u : State} (h : KeepsAbove s t) (k : KeepsAbove t u) : KeepsAbove s u :=
  ⟨h.nnodes.trans k.nnodes, fun i hi => (k.above i hi).trans (h.above i (k.nnodes.trans hi))⟩

theorem keepsAbove_headerToken {s : State} (ho : OpenBelow s) : KeepsAbove s s.headerToken ∧ OpenBelow s.headerToken := by
  have hstep := headerStep s
  generalize s.headerToken = u at hstep
  cases hstep with
  | full _ => exact ⟨⟨le_rfl, fun _ _ => rfl⟩, ho⟩
  | ended hroom _ | cut hroom _ _ =>
    have hle : s.regs.nnodes.toNat ≤ (s.regs.nnodes + 1).toNat := by rw [toNat_succ_of_lt hroom]; exact Nat.le_succ _
    exact ⟨⟨hle, fun _ _ => rfl⟩, fun e he => (ho e he).trans_le hle⟩
  | inner hroom _ =>
    have hn : (s.regs.nnodes + 1).toNat = s.regs.nnodes.toNat + 1 := toNat_succ_of_lt hroom
    refine ⟨⟨hn ▸ Nat.le_succ _, fun _ _ => rfl⟩, fun e he => ?_⟩
    show _ < (s.regs.nnodes + 1).toNat
    rcases List.mem_cons.mp he with rfl | he
    · exact hn ▸ Nat.lt_succ_self _
    · exact hn ▸ Nat.lt_succ_of_lt (ho e he)
  | @leaf p bs hroom _ _ =>
    have hn : (closeSubtree s.stk s.regs.nnodes (s.withLeaf p)).regs.nnodes.toNat = s.regs.nnodes.toNat + 1 := by
      rw [closeSubtree_nnodes]; exact toNat_succ_of_lt hroom
    have hlt {e : Idx × BitVec 2} {j : Idx} (he : e ∈ s.stk) (hj : e.1 = j) : j.toNat < s.regs.nnodes.toNat := hj ▸ ho e he
    refine ⟨⟨hn ▸ Nat.le_succ _, fun i hi => ?_⟩, fun e he => ?_⟩
    · rw [hn] at hi
      rw [closeSubtree_nodeAt_of_notMem fun hm => ?_]
      · exact withLeaf_nodeAt_ne p fun e => Nat.lt_irrefl _ (e ▸ hi)
      · obtain ⟨e, he, hidx⟩ := List.mem_map.mp hm
        have := hlt he hidx
        omega
    · obtain ⟨d, hd, hidx⟩ := List.mem_map.mp (closeSubtree_stk_mem he)
      rw [hn]
      exact Nat.lt_succ_of_lt (hlt hd hidx)

theorem keepsAbove_headerLoop (k : Nat) {s : State} (ho : OpenBelow s) : KeepsAbove s (headerLoop k s) := by
  induction k generalizing s with
  | zero => exact ⟨le_rfl, fun _ _ => rfl⟩
  | succ k ih =>
    obtain ⟨htoken, ho'⟩ := keepsAbove_headerToken ho
    rw [headerLoop]
    split
    · exact htoken.trans (ih ho')
    · exact htoken

/-! #### HDRDES -/

/-- The fields `HeaderFrame` names are the ones that stay. -/
theorem HeaderFrame.eq {s t : State} (h : HeaderFrame s t) : t = { s with
    phase := t.phase
    flags := t.flags
    regs := { s.regs with
      acc := t.regs.acc, bitcnt := t.regs.bitcnt, root := t.regs.root, cur := t.regs.cur
      nnodes := t.regs.nnodes, sp := t.regs.sp }
    node := t.node
    stk := t.stk
    inp := { s.inp with pos := t.inp.pos, rsp := t.inp.rsp }
    trace := t.trace
    freeCtr := t.freeCtr } :=
  State.ext rfl rfl (Regs.ext rfl rfl h.sym rfl rfl rfl h.path h.plen rfl) h.freq rfl h.pq h.code rfl h.marker
    (InPort.ext h.data rfl h.req rfl) h.out h.cmd rfl rfl

/-- Where a tree that fits is serialized, HDRDES reads it and puts it into the store (R140, R143). -/
theorem headerLoop_of_tree {s : State} {t : CodeTree} {rest : Bits} (hb : s.bitsLeft = t.ser ++ rest)
    (hsize : t.size ≤ 513) :
    ∃ u, Parsed t s.startHeader u ∧ headerLoop (Config.nodeCap + 1) s.startHeader = u.headerDone 0 := by
  obtain ⟨u, hu, hloop⟩ := headerLoop_ser t (s := s.startHeader) (514 - t.size) rfl hb
    (by show 0 + t.size ≤ 513; omega)
  refine ⟨u, hu, ?_⟩
  rw [show Config.nodeCap + 1 = t.size + (514 - t.size) by rw [Config.nodeCap]; omega, hloop]
  rfl

theorem depth_lt_size (t : CodeTree) : t.depth < t.size := by
  induction t with
  | leaf _ => exact Nat.zero_lt_one
  | node l r ihl ihr =>
    rw [CodeTree.depth, CodeTree.size]
    omega

/-- Where no tree that fits is serialized, HDRDES ends in CorruptHeaderError (R141, R142). -/
theorem headerLoop_of_none {s : State} (h : desCapped s.bitsLeft = none) :
    (headerLoop (Config.nodeCap + 1) s.startHeader).phase = .close ∧
      HeaderStops s.startHeader (headerLoop (Config.nodeCap + 1) s.startHeader) := by
  rcases headerLoop_outcome (Config.nodeCap + 1) (s := s.startHeader) rfl (Nat.zero_le _) (Nat.lt_succ_self 513) with
    ⟨ts, rest, hlen, hb, hsize⟩ | hstop
  · exfalso
    obtain ⟨t, rfl⟩ := List.length_eq_one_iff.mp hlen
    rw [List.flatMap_singleton] at hb
    have hsize : 0 + (t.size + 0) ≤ 513 := hsize
    have hsome := desCapped_eq_some_iff.mpr ⟨hb, show t.size ≤ Config.nodeCap by rw [Config.nodeCap]; omega⟩
    cases h.symm.trans hsome
  · exact hstop

/-- Settles O35: a tree that fits is read (`headerLoop_of_tree`); any other header stops the deserializer
(`headerLoop_of_none`). -/
theorem hdrdesComputesDes : Obligations.HdrdesComputesDes := by
  intro s b hb
  have hexec : execHdrdes s =
      .next { headerLoop (Config.nodeCap + 1) (s.viewBits b).startHeader with stk := [] } := by
    rw [execHdrdes, withBits_eq hb]
    rfl
  have hleft : (s.viewBits b).bitsLeft = b.drop s.inp.pos := rfl
  have hframe := headerLoop_frame (Config.nodeCap + 1) (s.viewBits b).startHeader
  have habove := keepsAbove_headerLoop (Config.nodeCap + 1) (s := (s.viewBits b).startHeader) nofun
  have hphase := headerLoop_phase (Config.nodeCap + 1) (s.viewBits b).startHeader rfl
  refine ⟨_, hexec, ?_, habove.above, fun tree rest hdes => ?_, fun hdes => ?_⟩
  · rw [hframe.eq]
    rfl
  · obtain ⟨hser, hsize⟩ := desCapped_eq_some_iff.mp hdes
    obtain ⟨u, hu, hloop⟩ := headerLoop_of_tree (s := s.viewBits b) (hleft.trans hser) hsize
    rw [hloop]
    have hpos : u.inp.pos = s.inp.pos + tree.ser.length := hu.pos
    have htree := hu.tree.treeAt (k := Config.nodeCap) (Nat.lt_of_lt_of_le (depth_lt_size tree) hsize)
    refine ⟨rfl, hu.flags, treeAt_of_same_node htree rfl, rfl, rfl, ?_, rfl, ?_, hu.trace⟩
    · exact hu.nnodes.trans (Nat.zero_add _)
    · exact bitsLeft_of_taken (s := s.viewBits b) hu.frame.data hpos (hleft.trans hser)
  · obtain ⟨hclose, hstop⟩ := headerLoop_of_none (s := s.viewBits b) hdes
    have hflags := (hphase.resolve_left fun h => by cases hclose.symm.trans h.1).2
    refine ⟨hclose, hflags, fun p hp => ?_, fun hp => ?_⟩
    · obtain ⟨hn, hpos, htrace⟩ := hstop.full p hp
      exact ⟨BitVec.eq_of_toNat_eq hn, hpos, htrace⟩
    · exact hstop.ended hp

end Sys2Proof.Machine

namespace Sys2Proof.Machine

/-! ### The invariant of every step (R28, R29, R33, R35) -/

/-! #### The flags -/

/-- What `State.Inv` says of the flags. -/
def FlagsAgree (p : Phase) (f : Flags) : Prop :=
  (f.busy = true ↔ p ≠ .idle) ∧ (f.busy = true → f.done = false) ∧ (f.err ≠ .none → p = .close ∨ p = .idle)

/-- A move keeps them: an error leads to CLOSE, and CLOSE ends the command (R204, R205). -/
theorem flagsAgree_of_move {i : Instr} {p : Phase} {f f' : Flags} (hf : i.format = .phase)
    (h : FlagsAgree (phaseFor i) f) (hmove : PhaseMove f i p f') : FlagsAgree p f' := by
  obtain ⟨hbusy, hdone, herr⟩ := h
  have hb : f.busy = true := hbusy.mpr (phaseFor_ne_idle hf)
  have running {p : Phase} (hp : p ≠ .idle) (hrow : phaseFor i ≠ .close) : FlagsAgree p f := by
    refine ⟨iff_of_true hb hp, hdone, fun he => ?_⟩
    exact absurd (herr he) (not_or.mpr ⟨hrow, phaseFor_ne_idle hf⟩)
  have raised (e : ErrKind) : FlagsAgree .close (f.raised e) := ⟨iff_of_true hb nofun, hdone, fun _ => .inl rfl⟩
  cases hmove with
  | formatError | corruptHeader | truncated => exact raised _
  | closePhase => exact ⟨iff_of_false nofun (not_not.mpr rfl), nofun, fun _ => .inr rfl⟩
  | walkOn hi hp =>
    have hne : p ≠ .idle := by rcases hp with rfl | rfl | rfl <;> decide
    exact running hne (by rcases hi with rfl | rfl <;> decide)
  | _ => exact running (by decide) (by decide)

theorem flagsAgree_step {s t : State} (h : FlagsAgree s.phase s.flags) (hstep : step s = .next t) :
    FlagsAgree t.phase t.flags := by
  rcases step_moves hstep with ⟨hp, hf⟩ | ⟨-, hp, hf⟩ | ⟨i, hi, hf, hmove⟩
  · rwa [hp, hf]
  · rw [hf]
    refine ⟨iff_of_true rfl ?_, fun _ => rfl, fun he => absurd rfl he⟩
    rcases hp with hp | hp <;> rw [hp] <;> exact nofun
  · exact flagsAgree_of_move hf (hi ▸ h) hmove

/-! #### Ranges, empty structures, the read position -/

/-- The ranges of the registers, and the read position in IN (R28, R32, R51, R52). -/
structure InRange (s : State) : Prop where
  nnodes : s.regs.nnodes.toNat ≤ Config.nodeCap
  bitcnt : s.regs.bitcnt.toNat ≤ 32
  plen : s.regs.plen.toNat ≤ Config.codeMax
  pos : s.inp.pos ≤ s.inp.data.size

/-- What `State.Inv` says of everything but the flags. -/
structure Tidy (s : State) : Prop where
  pq : s.pq = []
  stk : s.stk = []
  range : InRange s

theorem asBits_pos_le {d : InData} {n : Nat} {b : Bits} (h : d.asBits n = some b) (hn : n ≤ d.size) : n ≤ b.length := by
  cases d with
  | bits b' =>
    rw [asBits_bits] at h
    exact Option.some.inj h ▸ hn
  | bytes x =>
    cases n with
    | zero => exact Nat.zero_le _
    | succ n => cases h

theorem asBytes_pos_le {d : InData} {n : Nat} {x : List Byte} (h : d.asBytes n = some x) (hn : n ≤ d.size) :
    n ≤ x.length := by
  cases d with
  | bytes x' =>
    rw [asBytes_bytes] at h
    exact Option.some.inj h ▸ hn
  | bits b =>
    cases n with
    | zero => exact Nat.zero_le _
    | succ n => cases h

theorem InRange.viewBits {s : State} {b : Bits} (h : InRange s) (hb : s.inp.data.asBits s.inp.pos = some b) :
    InRange (s.viewBits b) := ⟨h.nnodes, h.bitcnt, h.plen, asBits_pos_le hb h.pos⟩

theorem InRange.viewBytes {s : State} {x : List Byte} (h : InRange s) (hx : s.inp.data.asBytes s.inp.pos = some x) :
    InRange (s.viewBytes x) := ⟨h.nnodes, h.bitcnt, h.plen, asBytes_pos_le hx h.pos⟩

theorem pos_add_bitsLeft_le {s : State} (h : s.inp.pos ≤ s.inp.data.size) :
    s.inp.pos + s.bitsLeft.length ≤ s.inp.data.size := by
  rw [State.bitsLeft]
  cases hd : s.inp.data with
  | bits b =>
    rw [hd, InData.size] at h
    simp only [List.length_drop, InData.size]
    omega
  | bytes x => rwa [hd] at h

theorem pos_add_bytesLeft_le {s : State} (h : s.inp.pos ≤ s.inp.data.size) :
    s.inp.pos + s.bytesLeft.length ≤ s.inp.data.size := by
  rw [State.bytesLeft]
  cases hd : s.inp.data with
  | bytes x =>
    rw [hd, InData.size] at h
    simp only [List.length_drop, InData.size]
    omega
  | bits b => rwa [hd] at h

theorem pos_succ_le_of_bitsLeft {s : State} {x : Bool} {rest : Bits} (h : s.inp.pos ≤ s.inp.data.size)
    (hx : s.bitsLeft = x :: rest) : s.inp.pos + 1 ≤ s.inp.data.size := by
  have hle := pos_add_bitsLeft_le h
  rw [hx, List.length_cons] at hle
  omega

theorem pos_succ_le_of_bytesLeft {s : State} {x : Byte} {rest : List Byte} (h : s.inp.pos ≤ s.inp.data.size)
    (hx : s.bytesLeft = x :: rest) : s.inp.pos + 1 ≤ s.inp.data.size := by
  have hle := pos_add_bytesLeft_le h
  rw [hx, List.length_cons] at hle
  omega

/-- `bitcnt` counts a field's bits down. -/
theorem bitcnt_le {n m : Nat} (hn : n ≤ 32) (hm : m ≤ n) : (BitVec.ofNat 6 n - BitVec.ofNat 6 m).toNat ≤ 32 := by
  simp only [BitVec.toNat_sub, BitVec.toNat_ofNat]
  omega

theorem inRange_readMarker {s : State} (h : InRange s) : InRange (s.readMarker s.bitsLeft) := by
  have hread : InRange (s.readField Config.markerW s.bitsLeft).2 := by
    rw [readField_eq]
    refine ⟨h.nnodes, bitcnt_le le_rfl (min_le_left _ _), h.plen, ?_⟩
    exact (Nat.add_le_add_left (min_le_right _ _) _).trans (pos_add_bitsLeft_le h.pos)
  rcases readMarker_cases s s.bitsLeft with ⟨e, -⟩ | ⟨e, -⟩ <;> rw [e] <;>
    exact ⟨hread.nnodes, hread.bitcnt, hread.plen, hread.pos⟩

/-- A token of the header keeps the ranges: the capacity is checked first (R142). -/
theorem inRange_headerToken {s : State} (h : InRange s) : InRange s.headerToken := by
  have hstep := headerStep s
  have hpos := pos_add_bitsLeft_le h.pos
  have hreserve (hroom : s.regs.nnodes.toNat < 513) : (s.regs.nnodes + 1).toNat ≤ Config.nodeCap :=
    toNat_succ_of_lt hroom ▸ hroom
  generalize s.headerToken = u at hstep
  cases hstep with
  | full _ => exact ⟨h.nnodes, h.bitcnt, h.plen, h.pos⟩
  | ended hroom _ => exact ⟨hreserve hroom, h.bitcnt, h.plen, h.pos⟩
  | cut hroom hp hb =>
    rw [hb] at hpos
    exact ⟨hreserve hroom, bitcnt_le (by decide) hp.le, h.plen, hpos⟩
  | inner hroom hb => exact ⟨hreserve hroom, h.bitcnt, h.plen, pos_succ_le_of_bitsLeft h.pos hb⟩
  | leaf hroom hp hb =>
    rw [hb, List.length_cons, List.length_append, hp] at hpos
    rw [(closeSubtree_frame _ _ _).1]
    exact ⟨hreserve hroom, Nat.zero_le 32, h.plen, Nat.le_trans (by omega : s.inp.pos + 10 ≤ _) hpos⟩

theorem inRange_headerLoop (k : Nat) {s : State} (h : InRange s) : InRange (headerLoop k s) := by
  induction k generalizing s with
  | zero => exact ⟨h.nnodes, h.bitcnt, h.plen, h.pos⟩
  | succ k ih =>
    rw [headerLoop]
    split
    · exact ih (inRange_headerToken h)
    · exact inRange_headerToken h

/-- The walk's move touches `cur`, OUT's bits, the trace and the phase alone (R174). -/
theorem landOn_frame {s t : State} {n : Idx} (h : s.landOn n = .next t) : t = { s with
    phase := t.phase
    regs := { s.regs with cur := t.regs.cur }
    out := { s.out with bits := t.out.bits }
    trace := t.trace } := by
  rcases landOn_cases s n with ⟨-, e⟩ | ⟨_, _, _, -, e⟩ | ⟨_, -, e⟩ | ⟨_, _, -, -, e⟩ <;> rw [e] at h <;> cases h <;> rfl

theorem tidy_walkStep {s t : State} (hs : Tidy s) (h : s.walkStep = .next t) : Tidy t := by
  obtain ⟨b, hb, ⟨-, rfl⟩ | ⟨x, rest, hx, h⟩⟩ := walkStep_eq_next h
  · have hv := hs.range.viewBits hb
    exact ⟨hs.pq, hs.stk, hv.nnodes, hv.bitcnt, hv.plen, hv.pos⟩
  · obtain ⟨n, h⟩ := moveBy_eq_next h
    have hv := hs.range.viewBits hb
    have hpos := pos_succ_le_of_bitsLeft hv.pos (show (s.viewBits b).bitsLeft = x :: rest from hx)
    rw [landOn_frame h]
    exact ⟨hs.pq, hs.stk, hv.nnodes, hv.bitcnt, hv.plen, hpos⟩

theorem tidy_execBuild {s t : State} (hs : Tidy s) (h : execBuild s = .next t) : Tidy t := by
  have hn : t.regs.nnodes.toNat ≤ Config.nodeCap := by
    rw [(execBuild_tree h).1, buildTree_nnodes]
    exact builtForest_size_le s.freq
  rw [execBuild_frame h]
  exact ⟨rfl, hs.stk, hn, hs.range.bitcnt, hs.range.plen, hs.range.pos⟩

theorem tidy_execHdrdes {s t : State} (hs : Tidy s) (h : execHdrdes s = .next t) : Tidy t := by
  obtain ⟨b, hb, h⟩ := withBits_eq_next h
  cases h
  have hv := hs.range.viewBits hb
  have hloop := inRange_headerLoop (Config.nodeCap + 1) (s := (s.viewBits b).startHeader)
    ⟨Nat.zero_le _, hv.bitcnt, hv.plen, hv.pos⟩
  have hpq := (headerLoop_frame (Config.nodeCap + 1) (s.viewBits b).startHeader).pq
  exact ⟨hpq.trans hs.pq, rfl, hloop.nnodes, hloop.bitcnt, hloop.plen, hloop.pos⟩

/-- Every operation of a phase keeps the ranges and the empty structures. -/
theorem tidy_phaseOperation {i : Instr} {s t : State} (hf : i.format = .phase) (hs : Tidy s) (h : exec i s = .next t) :
    Tidy t := by
  have ⟨hpq, hstk, hrange⟩ := hs
  have ⟨hn, hbit, hplen, hpos⟩ := hrange
  cases i with
  | count =>
    obtain ⟨x, hx, -⟩ := withBytes_eq_next (show execCount s = .next t from h)
    cases (execCount_eq hx).symm.trans h
    exact ⟨hpq, hstk, hn, hbit, hplen, pos_add_bytesLeft_le (hrange.viewBytes hx).pos⟩
  | build => exact tidy_execBuild hs h
  | gencodes =>
    obtain ⟨e, hle⟩ := execGencodes_frame h
    rw [e]
    exact ⟨hpq, rfl, hn, hbit, hle, hpos⟩
  | hdrser =>
    rw [execHdrser_frame h]
    exact ⟨hpq, rfl, hn, hbit, hplen, hpos⟩
  | encode =>
    obtain ⟨x, hx, e⟩ := execEncode_frame h
    rw [e]
    exact ⟨hpq, hstk, hn, hbit, hplen, pos_add_bytesLeft_le (hrange.viewBytes hx).pos⟩
  | dMark =>
    obtain ⟨b, hb, h⟩ := withBits_eq_next (show execDMark s = .next t from h)
    cases h
    refine ⟨?_, ?_, inRange_readMarker (hrange.viewBits hb)⟩ <;> rw [readMarker_frame]
    · exact hpq
    · exact hstk
  | hdrdes => exact tidy_execHdrdes hs h
  | walk => exact tidy_walkStep (s := s.setCur s.regs.root) ⟨hpq, hstk, hn, hbit, hplen, hpos⟩ h
  | walkInt => exact tidy_walkStep hs h
  | cRewind =>
    cases h
    exact ⟨hpq, hstk, hn, hbit, hplen, Nat.zero_le _⟩
  | cMark | cTerm | closePhase =>
    cases h
    exact ⟨hpq, hstk, hn, hbit, hplen, hpos⟩
  | _ => cases hf

/-- A transaction keeps the ranges and the empty structures. -/
theorem tidy_portOperation {i : Instr} {s t : State} (hf : i.format = .inOp ∨ i.format = .outOp) (hs : Tidy s)
    (h : exec i s = .next t) : Tidy t := by
  have ⟨hpq, hstk, hrange⟩ := hs
  have ⟨hn, hbit, hplen, hpos⟩ := hrange
  cases i with
  | readByte =>
    obtain ⟨x, hx, h⟩ := withBytes_eq_next (show execReadByte s = .next t from h)
    have hv := (hrange.viewBytes hx).pos
    split at h <;> rename_i hb <;> cases h
    · exact ⟨hpq, hstk, hn, hbit, hplen, hv⟩
    · exact ⟨hpq, hstk, hn, hbit, hplen, pos_succ_le_of_bytesLeft hv hb⟩
  | readBit =>
    obtain ⟨b, hb, h⟩ := withBits_eq_next (show execReadBit s = .next t from h)
    have hv := (hrange.viewBits hb).pos
    split at h <;> rename_i hb <;> cases h
    · exact ⟨hpq, hstk, hn, hbit, hplen, hv⟩
    · exact ⟨hpq, hstk, hn, hbit, hplen, pos_succ_le_of_bitsLeft hv hb⟩
  | reset =>
    cases h
    exact ⟨hpq, hstk, hn, hbit, hplen, Nat.zero_le _⟩
  | writeBits _ _ | close =>
    cases h
    exact ⟨hpq, hstk, hn, hbit, hplen, hpos⟩
  | _ => simp [Instr.format] at hf

theorem tidy_step {s t : State} (hs : Tidy s) (h : step s = .next t) : Tidy t := by
  have ⟨hpq, hstk, hn, hbit, hplen, hpos⟩ := hs
  rcases step_cases s with e | e | e | ⟨i, u, hi, e⟩ <;> rw [e] at h
  · cases h
  · cases h
    exact ⟨hpq, hstk, hn, hbit, hplen, hpos⟩
  · cases h
    exact hs
  · cases hi with
    | input _ hf => exact tidy_portOperation (s := { s with inp := { s.inp with req := none } }) (.inl hf) ⟨hpq, hstk, hn, hbit, hplen, hpos⟩ h
    | output _ _ hf => exact tidy_portOperation (s := { s with out := { s.out with req := none } }) (.inr hf) ⟨hpq, hstk, hn, hbit, hplen, hpos⟩ h
    | command hready _ hf =>
      obtain ⟨p, -, rfl⟩ := commandOperation_of_idle (s := { s with cmd := none }) hready.1 hf h
      exact ⟨hpq, hstk, Nat.zero_le _, hbit, hplen, hpos⟩
    | phase _ _ hf => exact tidy_phaseOperation hf hs h

/-- `State.Inv` is the flags' part and the rest. -/
theorem inv_iff {s : State} : s.Inv ↔ FlagsAgree s.phase s.flags ∧ Tidy s := by
  constructor
  · rintro ⟨hbusy, hdone, herr, hpq, hstk, hn, hbit, hplen, hpos⟩
    exact ⟨⟨hbusy, hdone, herr⟩, hpq, hstk, hn, hbit, hplen, hpos⟩
  · rintro ⟨⟨hbusy, hdone, herr⟩, hpq, hstk, hn, hbit, hplen, hpos⟩
    exact ⟨hbusy, hdone, herr, hpq, hstk, hn, hbit, hplen, hpos⟩

/-- Settles O51: the two parts of the invariant, each kept by every step. -/
theorem everyStepKeepsTheInvariant : Obligations.EveryStepKeepsTheInvariant := by
  intro s t hs h
  obtain ⟨hflags, htidy⟩ := inv_iff.mp hs
  exact inv_iff.mpr ⟨flagsAgree_step hflags h, tidy_step htidy h⟩

/-! ### The trees the phases rely on (R23, R104, R115, R167, R174) -/

/-- The invariant speaks of the phase, the counts, the node store, `root` and `cur` alone. -/
theorem treeInv_of_same {s t : State} (hs : s.TreeInv) (hp : t.phase = s.phase) (hfreq : t.freq = s.freq)
    (hnode : t.node = s.node) (hregs : t.regs = s.regs) : t.TreeInv := by
  obtain ⟨hcount, hbuilt, hroot, hcur⟩ := hs
  rw [State.TreeInv, hp, hregs, State.freqOf, hfreq]
  simp only [treeAt_congr hnode]
  exact ⟨hcount, hbuilt, hroot, hcur⟩

/-- In the other phases no tree is relied on. -/
theorem treeInv_of_free {t : State} (p : Phase) (hp : t.phase = p)
    (h : p ∉ [.cBuild, .cGen, .cMark, .cHdr, .dRoot, .dInt]) : t.TreeInv := by
  rw [← hp] at h
  refine ⟨fun hp => ?_, fun hp => ?_, fun hp => ?_, fun hp => ?_⟩
  · simp [hp] at h
  · rcases hp with hp | hp | hp <;> simp [hp] at h
  · rcases hp with hp | hp <;> simp [hp] at h
  · simp [hp] at h

theorem treeInv_of_counted {t : State} (hp : t.phase = .cBuild) (hc : 0 < (t.freqOf 256).toNat) : t.TreeInv := by
  rw [State.TreeInv, hp]
  exact ⟨fun _ => hc, nofun, nofun, nofun⟩

theorem treeInv_of_built {t : State} {tree : CodeTree} (p : Phase) (hphase : t.phase = p) (hp : p ∈ [.cGen, .cMark, .cHdr])
    (ht : t.treeAt (Config.codeMax + 1) t.regs.root = some tree) (hproper : tree.Proper) : t.TreeInv := by
  rw [← hphase] at hp
  refine ⟨fun h => ?_, fun _ => ⟨tree, ht, hproper⟩, fun h => ?_, fun h => ?_⟩
  · simp [h] at hp
  · rcases h with h | h <;> simp [h] at hp
  · simp [h] at hp

theorem treeInv_of_walk {t : State} {tree : CodeTree} (hp : t.phase ∈ [.dRoot, .dInt, .close])
    (hroot : t.treeAt Config.nodeCap t.regs.root = some tree)
    (hcur : t.phase = .dInt → ∃ cur, t.treeAt Config.nodeCap t.regs.cur = some cur) : t.TreeInv := by
  refine ⟨fun h => ?_, fun h => ?_, fun _ => ⟨tree, hroot⟩, hcur⟩
  · simp [h] at hp
  · rcases h with h | h | h <;> simp [h] at hp

/-- COUNT gives the end of the stream the count 1 (R104). -/
theorem countsOf_end (x : List Byte) : (countsOf x)[256]? = some 1 := by simp [countsOf]

/-- BUILD from a table that counts the end of the stream makes a proper tree (R23, R115). -/
theorem treeInv_execBuild {s t : State} (hc : 0 < (s.freqOf 256).toNat) (h : execBuild s = .next t) : t.TreeInv := by
  obtain ⟨-, hroot, hnode⟩ := execBuild_tree h
  have htree := treeAt_of_same_node (buildTree_treeAt s (y := 256) (by decide) hc) hnode
  exact treeInv_of_built .cGen (by rw [execBuild_frame h]) (by decide) (by rw [hroot, htree]) (huffmanTree_proper hc)

theorem treeInv_execHdrdes {s t : State} (h : execHdrdes s = .next t) : t.TreeInv := by
  obtain ⟨b, hb, -⟩ := withBits_eq_next h
  obtain ⟨u, hu, -, -, hsome, hnone⟩ := hdrdesComputesDes s b hb
  cases hu.symm.trans h
  cases hdes : desCapped (b.drop s.inp.pos) with
  | none =>
    obtain ⟨hp, -⟩ := hnone hdes
    exact treeInv_of_free .close hp (by decide)
  | some x =>
    obtain ⟨hp, -, htree, -⟩ := hsome x.1 x.2 hdes
    exact treeInv_of_walk (by rw [hp]; decide) htree (by rw [hp]; exact nofun)

/-- The walk moves from a node of a tree to one (R174). -/
theorem moveBy_lands {s t : State} {cur : CodeTree} {x : Bool} (hcur : s.treeAt Config.nodeCap s.regs.cur = some cur)
    (h : s.moveBy x = .next t) : ∃ n, s.landOn n = .next t ∧ ∃ tree, s.treeAt Config.nodeCap n = some tree := by
  rcases moveBy_cases s x with ⟨-, e⟩ | ⟨w, l, r, hn, e⟩ | ⟨y, w, hn, e⟩ <;> rw [e] at h
  · cases h
  · rcases treeAt_succ_cases hcur with ⟨y, w', hn', -⟩ | ⟨w', l', r', tl, tr, hn', hl, hr, -⟩ <;> cases hn.symm.trans hn'
    cases x with
    | false => exact ⟨l, h, tl, treeAt_mono hl (by decide)⟩
    | true => exact ⟨r, h, tr, treeAt_mono hr (by decide)⟩
  · exact ⟨_, h, cur, hcur⟩

theorem treeInv_walkStep {s t : State} {tree cur : CodeTree} (hroot : s.treeAt Config.nodeCap s.regs.root = some tree)
    (hcur : s.treeAt Config.nodeCap s.regs.cur = some cur) (h : s.walkStep = .next t) : t.TreeInv := by
  obtain ⟨b, -, ⟨-, rfl⟩ | ⟨x, rest, -, h⟩⟩ := walkStep_eq_next h
  · exact treeInv_of_free .close rfl (by decide)
  · have hcur : ((s.viewBits b).tookBit x).treeAt Config.nodeCap s.regs.cur = some cur := treeAt_of_same_node hcur rfl
    obtain ⟨n, h, tree', hn⟩ := moveBy_lands hcur h
    have hphase := (landOn_phase h).1
    have hnode : t.node = s.node := by rw [landOn_frame h]; rfl
    have hroot' : t.regs.root = s.regs.root := by rw [landOn_frame h]; rfl
    refine treeInv_of_walk ?_ (hroot' ▸ treeAt_of_same_node hroot hnode) fun hp => ⟨tree', ?_⟩
    · rcases hphase with hp | hp | hp <;> rw [hp] <;> decide
    · rcases landOn_cases ((s.viewBits b).tookBit x) n with ⟨-, e⟩ | ⟨_, _, _, -, e⟩ | ⟨_, -, e⟩ | ⟨_, _, -, -, e⟩ <;>
        cases e.symm.trans h
      · exact treeAt_of_same_node hn rfl
      · cases hp
      · cases hp

/-- Every operation, run in its phase, keeps the trees. -/
theorem treeInv_phaseOperation {i : Instr} {s t : State} (hf : i.format = .phase) (hp : phaseFor i = s.phase)
    (hs : s.TreeInv) (h : exec i s = .next t) : t.TreeInv := by
  obtain ⟨hcount, hbuilt, hroot, hcur⟩ := hs
  cases i with
  | count =>
    obtain ⟨x, hx, -⟩ := withBytes_eq_next (show execCount s = .next t from h)
    cases (execCount_eq hx).symm.trans h
    refine treeInv_of_counted rfl ?_
    rw [State.freqOf, countsOf_end]
    decide
  | build => exact treeInv_execBuild (hcount hp.symm) h
  | gencodes =>
    obtain ⟨tree, ht, hproper⟩ := hbuilt (.inl hp.symm)
    rw [(execGencodes_frame h).1]
    exact treeInv_of_built .cMark rfl (by decide) (treeAt_of_same_node ht rfl) hproper
  | cMark =>
    obtain ⟨tree, ht, hproper⟩ := hbuilt (.inr (.inl hp.symm))
    cases h
    exact treeInv_of_built .cHdr rfl (by decide) (treeAt_of_same_node ht rfl) hproper
  | hdrdes => exact treeInv_execHdrdes h
  | walk =>
    obtain ⟨tree, ht⟩ := hroot (.inl hp.symm)
    exact treeInv_walkStep (s := s.setCur s.regs.root) (treeAt_of_same_node ht rfl) (treeAt_of_same_node ht rfl) h
  | walkInt =>
    obtain ⟨tree, ht⟩ := hroot (.inr hp.symm)
    obtain ⟨cur, hcur⟩ := hcur hp.symm
    exact treeInv_walkStep ht hcur h
  | hdrser =>
    rw [execHdrser_frame h]
    exact treeInv_of_free .cRewind rfl (by decide)
  | encode =>
    obtain ⟨x, -, e⟩ := execEncode_frame h
    rw [e]
    exact treeInv_of_free .cTerm rfl (by decide)
  | dMark =>
    obtain ⟨b, -, h⟩ := withBits_eq_next (show execDMark s = .next t from h)
    cases h
    rcases readMarker_cases (s.viewBits b) (s.viewBits b).bitsLeft with ⟨e, -⟩ | ⟨e, -⟩ <;> rw [e]
    · exact treeInv_of_free .dHdr rfl (by decide)
    · exact treeInv_of_free .close rfl (by decide)
  | cRewind =>
    cases h
    exact treeInv_of_free .cEnc rfl (by decide)
  | cTerm =>
    cases h
    exact treeInv_of_free .close rfl (by decide)
  | closePhase =>
    cases h
    exact treeInv_of_free .idle rfl (by decide)
  | _ => cases hf

/-- Settles O52: only the operation of a phase touches what the invariant speaks of (`treeInv_phaseOperation`). -/
theorem everyStepKeepsTheTrees : Obligations.EveryStepKeepsTheTrees := by
  intro s t hs h
  rcases step_cases s with e | e | e | ⟨i, u, hi, e⟩ <;> rw [e] at h
  · cases h
  · cases h
    exact treeInv_of_same hs rfl rfl rfl rfl
  · cases h
    exact hs
  · cases hi with
    | input _ hf =>
      rw [portOperation_frame (.inl hf) h]
      exact treeInv_of_same hs rfl rfl rfl rfl
    | output _ _ hf =>
      rw [portOperation_frame (.inr hf) h]
      exact treeInv_of_same hs rfl rfl rfl rfl
    | command hready _ hf =>
      obtain ⟨p, hp, rfl⟩ := commandOperation_of_idle (s := { s with cmd := none }) hready.1 hf h
      rcases hp with rfl | rfl
      · exact treeInv_of_free .cCount rfl (by decide)
      · exact treeInv_of_free .dMark rfl (by decide)
    | phase _ hp hf => exact treeInv_phaseOperation hf hp hs h

end Sys2Proof.Machine

namespace Sys2Proof.Machine

/-! ### COMPRESS as a function of its input (R150 to R159, R195, R232) -/

/-! #### The tree and the codes of an input -/

theorem satInc_pos (v : Count) : 0 < (satInc v).toNat := by
  rw [satInc, BitVec.toNat_ofNat]
  have hv := v.isLt
  omega

theorem countAt_setIfInBounds_self (f : Vector Count 257) {y : Nat} (hy : y < 257) (v : Count) :
    countAt (f.setIfInBounds y v) y = v := by simp [countAt, hy]

theorem countAt_setIfInBounds_ne (f : Vector Count 257) {y z : Nat} (h : y ≠ z) (v : Count) :
    countAt (f.setIfInBounds y v) z = countAt f z := by rw [countAt, Vector.getElem?_setIfInBounds_ne h, countAt]

/-- A byte that occurs, or that had a count, has one. -/
theorem tally_pos {b : Byte} {x : List Byte} {f : Vector Count 257}
    (h : b ∈ x ∨ 0 < (countAt f b.toNat).toNat) : 0 < (countAt (tally x f) b.toNat).toNat := by
  induction x generalizing f with
  | nil => exact h.resolve_left nofun
  | cons r x ih =>
    refine ih (f := f.setIfInBounds r.toNat (satInc (countAt f r.toNat))) ?_
    have hr : r.toNat < 257 := Nat.lt_of_lt_of_le r.isLt (by decide)
    by_cases hb : b = r
    · subst hb
      rw [countAt_setIfInBounds_self f hr]
      exact .inr (satInc_pos _)
    · have hne : r.toNat ≠ b.toNat := fun e => hb (BitVec.eq_of_toNat_eq e.symm)
      rw [countAt_setIfInBounds_ne f hne]
      exact h.imp_left fun hm => (List.mem_cons.mp hm).resolve_left hb

theorem countsOf_pos {b : Byte} {x : List Byte} (h : b ∈ x) : 0 < (countAt (countsOf x) b.toNat).toNat := by
  have hne : 256 ≠ b.toNat := (Nat.ne_of_lt b.isLt).symm
  rw [countsOf, countAt_setIfInBounds_ne _ hne]
  exact tally_pos (.inl h)

theorem countsOf_end_pos (x : List Byte) : 0 < (countAt (countsOf x) 256).toNat := by
  rw [countAt, countsOf_end]
  decide

/-- The tree of an input (R150). -/
def treeOf (x : List Byte) : CodeTree := huffmanTree (countsOf x)

theorem treeOf_proper (x : List Byte) : (treeOf x).Proper := huffmanTree_proper (countsOf_end_pos x)

theorem byte_mem_treeOf {x : List Byte} {b : Byte} (h : b ∈ x) : b.setWidth 9 ∈ (treeOf x).leaves := by
  have hm := mem_huffmanTree_leaves (Nat.lt_of_lt_of_le b.isLt (by decide : 2 ^ 8 ≤ 257)) (countsOf_pos h)
  rwa [BitVec.ofNat_toNat] at hm

theorem codeOf_length_le {x : List Byte} {y : Sym} (h : y ∈ (treeOf x).leaves) :
    ((treeOf x).codeOf y).length ≤ Config.codeMax :=
  (code_length (huffmanTree_depth_le (y := 256) (by decide) (countsOf_end_pos x)) (codeOf_mem_codes h)).2

/-- What COMPRESS writes (R159). -/
def compressBits (m : BitVec 32) (x : List Byte) : Bits :=
  bits 32 m.toNat ++ (treeOf x).ser ++ (x.flatMap fun b => (treeOf x).codeOf (b.setWidth 9)) ++ (treeOf x).codeOf 256

/-- The write of a code (R84, R153, R154). -/
def codeWrite (p : Bits) : Txn := .writeBits p.length (val p)

/-- The first pass and the header (R156). -/
def headerTrace (m : BitVec 32) (x : List Byte) : List Txn :=
  (x.map fun b => .readByte (some b)) ++ [.readByte none] ++ [.writeBits 32 m.toNat] ++ (treeOf x).writes ++ [.reset]

/-- The transactions of COMPRESS (R156). -/
def compressTrace (m : BitVec 32) (x : List Byte) : List Txn :=
  headerTrace m x ++
    (x.flatMap fun b => [.readByte (some b), codeWrite ((treeOf x).codeOf (b.setWidth 9))]) ++ [.readByte none] ++
    [codeWrite ((treeOf x).codeOf 256)] ++ [.close]

/-! #### The ten steps -/

/-- COMPRESS of `x` with the marker `m` runs, in phase `p`: the bytes before `pos` of IN have been read in this pass, OUT
holds `o`, and the transactions so far are `tr`. -/
structure Running (m : BitVec 32) (x : List Byte) (p : Phase) (pos : Nat) (o : Bits) (tr : List Txn) (s : State) :
    Prop where
  phase : s.phase = p
  quiet : s.Quiet
  flags : s.flags = flagsAccepted
  marker : s.marker = m
  data : s.inp.data = .bytes x
  pos : s.inp.pos = pos
  out : s.out.bits = o
  trace : s.trace = tr

/-- The counts of `x` are there, and from BUILD on its tree. -/
structure HasTree (x : List Byte) (s : State) : Prop where
  freq : s.freq = countsOf x
  tree : s.treeAt (Config.codeMax + 1) s.regs.root = some (treeOf x)

/-- From GENCODES on the code table holds the codes of `x`'s tree. -/
structure HasCodes (x : List Byte) (s : State) : Prop where
  freq : s.freq = countsOf x
  code : ∀ y ∈ (treeOf x).leaves, s.codeAt y = some (CodeEntry.ofBits ((treeOf x).codeOf y))

section

variable {m : BitVec 32} {x : List Byte} {pos : Nat} {o : Bits} {tr : List Txn} {s : State}

theorem Running.step_eq {p : Phase} {i : Instr} (h : Running m x p pos o tr s) (hne : p ≠ .idle)
    (hd : decode .phase (bits 4 p.code.toNat) = .ok (i, [])) : step s = exec i s :=
  step_of_phase h.quiet h.phase hne hd

theorem Running.asBytes {p : Phase} (h : Running m x p pos o tr s) : s.inp.data.asBytes s.inp.pos = some x := by
  rw [h.data, asBytes_bytes]

theorem running_compress (x : List Byte) (hs : s.Ready) : ∃ t, step ((s.provide (.bytes x)).offer opCompress) = .next t ∧
    Running s.marker x .cCount 0 [] s.trace t := by
  have hready : ((s.provide (.bytes x)).offer opCompress).Ready := hs
  have hfetch := fetch_of_ready hready
  refine ⟨_, step_of_decode hfetch (i := .compress) (rest := []) rfl, ?_⟩
  rw [command_of_idle (s := { (s.provide (.bytes x)).offer opCompress with cmd := none }) hs.1]
  exact ⟨rfl, hs.2, rfl, rfl, rfl, rfl, rfl, rfl⟩

theorem running_count (h : Running m x .cCount 0 o tr s) : ∃ t, step s = .next t ∧
    Running m x .cBuild x.length o (tr ++ (x.map fun b => .readByte (some b)) ++ [.readByte none]) t ∧
    t.freq = countsOf x := by
  refine ⟨_, (h.step_eq nofun rfl).trans (execCount_eq h.asBytes), ⟨rfl, h.quiet, h.flags, h.marker, rfl, ?_, h.out, ?_⟩, ?_⟩
  · simp [h.pos]
  · simp [h.pos, h.trace]
  · simp [h.pos]

theorem running_build (h : Running m x .cBuild pos o tr s) (hfreq : s.freq = countsOf x) : ∃ t, step s = .next t ∧
    Running m x .cGen pos o tr t ∧ HasTree x t := by
  obtain ⟨t, ht⟩ : ∃ t, execBuild s = .next t := ⟨_, rfl⟩
  obtain ⟨-, hroot, hnode⟩ := execBuild_tree ht
  have hc : 0 < (countAt s.freq 256).toNat := hfreq ▸ countsOf_end_pos x
  have htree := treeAt_of_same_node (buildTree_treeAt s (y := 256) (by decide) hc) hnode
  rw [← hroot, hfreq] at htree
  have hframe := execBuild_frame ht
  refine ⟨t, (h.step_eq nofun rfl).trans ht, ?_, ?_, htree⟩
  · rw [hframe]
    exact ⟨rfl, h.quiet, h.flags, h.marker, h.data, h.pos, h.out, h.trace⟩
  · rw [hframe]
    exact hfreq

theorem running_gencodes (h : Running m x .cGen pos o tr s) (ht : HasTree x s) : ∃ t, step s = .next t ∧
    Running m x .cMark pos o tr t ∧ HasTree x t ∧ HasCodes x t := by
  obtain ⟨hnodup, hsym, -⟩ := treeOf_proper x
  obtain ⟨t, hexec⟩ := execGencodes_answers ht.tree hsym
  have hframe := (execGencodes_frame hexec).1
  refine ⟨t, (h.step_eq nofun rfl).trans hexec, ?_, ⟨?_, ?_⟩, ?_, fun y hy => ?_⟩
  · rw [hframe]
    exact ⟨rfl, h.quiet, h.flags, h.marker, h.data, h.pos, h.out, h.trace⟩
  · rw [hframe]
    exact ht.freq
  · rw [hframe]
    exact treeAt_of_same_node ht.tree rfl
  · rw [hframe]
    exact ht.freq
  · exact execGencodes_codeAt ht.tree hnodup hsym hexec (codeOf_mem_codes hy)

theorem running_cMark (h : Running m x .cMark pos o tr s) (ht : HasTree x s) (hcode : HasCodes x s) :
    ∃ t, step s = .next t ∧
      Running m x .cHdr pos (o ++ bits 32 m.toNat) (tr ++ [.writeBits 32 m.toNat]) t ∧ HasTree x t ∧ HasCodes x t := by
  refine ⟨_, h.step_eq nofun rfl, ⟨rfl, h.quiet, h.flags, h.marker, h.data, h.pos, ?_, ?_⟩,
    ⟨ht.freq, treeAt_of_same_node ht.tree rfl⟩, hcode.freq, hcode.code⟩
  · rw [← h.out, ← h.marker]
    rfl
  · rw [← h.trace, ← h.marker]
    rfl

theorem running_hdrser (h : Running m x .cHdr pos o tr s) (ht : HasTree x s) (hcode : HasCodes x s) :
    ∃ t, step s = .next t ∧
      Running m x .cRewind pos (o ++ (treeOf x).ser) (tr ++ (treeOf x).writes) t ∧ HasCodes x t := by
  have hexec := hdrserAppendsTheSerializedTree s (treeOf x) (treeAt_mono ht.tree (by decide))
  refine ⟨_, (h.step_eq nofun rfl).trans hexec, ⟨rfl, h.quiet, h.flags, h.marker, h.data, h.pos, ?_, ?_⟩,
    hcode.freq, hcode.code⟩
  · rw [← h.out]
  · rw [← h.trace]

theorem running_cRewind (h : Running m x .cRewind pos o tr s) (hcode : HasCodes x s) :
    ∃ t, step s = .next t ∧ Running m x .cEnc 0 o (tr ++ [.reset]) t ∧ HasCodes x t := by
  refine ⟨_, h.step_eq nofun rfl, ⟨rfl, h.quiet, h.flags, h.marker, h.data, rfl, h.out, ?_⟩, hcode.freq, hcode.code⟩
  rw [← h.trace]
  rfl

/-- The entry of a byte that occurs is its code's. -/
theorem HasCodes.codeOfByte (hcode : HasCodes x s) {b : Byte} (hb : b ∈ x) :
    s.codeOfByte b = CodeEntry.ofBits ((treeOf x).codeOf (b.setWidth 9)) := by
  have h := hcode.code _ (byte_mem_treeOf hb)
  have hidx : (b.setWidth 9).toNat = b.toNat := by
    rw [BitVec.toNat_setWidth, Nat.mod_eq_of_lt (Nat.lt_of_lt_of_le b.isLt (by decide))]
  rw [State.codeAt, hidx] at h
  exact (Vector.getElem?_eq_some_iff.mp h).2

theorem running_encode (h : Running m x .cEnc 0 o tr s) (hcode : HasCodes x s) :
    ∃ t, step s = .next t ∧
      Running m x .cTerm x.length (o ++ x.flatMap fun b => (treeOf x).codeOf (b.setWidth 9))
        (tr ++ (x.flatMap fun b => [.readByte (some b), codeWrite ((treeOf x).codeOf (b.setWidth 9))]) ++
          [.readByte none]) t ∧ HasCodes x t := by
  have hleft : (s.viewBytes x).bytesLeft = x := by
    show x.drop s.inp.pos = x
    rw [h.pos, List.drop_zero]
  have hvalid : ∀ b ∈ x, ((s.viewBytes x).codeOfByte b).valid = true := fun b hb => by
    show (s.codeOfByte b).valid = true
    rw [hcode.codeOfByte hb]
    rfl
  have hbits : (x.flatMap fun b => (s.codeOfByte b).toBits) = x.flatMap fun b => (treeOf x).codeOf (b.setWidth 9) :=
    List.flatMap_congr fun b hb => by
      rw [hcode.codeOfByte hb, ofBits_toBits (codeOf_length_le (byte_mem_treeOf hb))]
  have htxns : (x.flatMap fun b =>
      [Txn.readByte (some b), .writeBits (s.codeOfByte b).len.toNat (s.codeOfByte b).bits.toNat]) =
      x.flatMap fun b => [.readByte (some b), codeWrite ((treeOf x).codeOf (b.setWidth 9))] :=
    List.flatMap_congr fun b hb => by
      have hle := codeOf_length_le (byte_mem_treeOf hb)
      rw [hcode.codeOfByte hb, ofBits_len hle, ofBits_bits hle]
      rfl
  have hexec : execEncode s = _ := withBytes_eq h.asBytes _
  have hloop := encodeLoop_eq x (s.viewBytes x)
  rw [if_pos hvalid] at hloop
  change execEncode s = andThen (encodeLoop (s.viewBytes x).bytesLeft (s.viewBytes x)) _ at hexec
  rw [hleft, hloop, andThen_next] at hexec
  refine ⟨_, (h.step_eq nofun rfl).trans hexec, ⟨rfl, h.quiet, h.flags, h.marker, rfl, ?_, ?_, ?_⟩, hcode.freq, hcode.code⟩
  · show s.inp.pos + x.length = x.length
    rw [h.pos, Nat.zero_add]
  · rw [← h.out, ← hbits]
    rfl
  · rw [← h.trace, ← htxns]
    rfl

theorem running_cTerm (h : Running m x .cTerm pos o tr s) (hcode : HasCodes x s) :
    ∃ t, step s = .next t ∧
      Running m x .close pos (o ++ (treeOf x).codeOf 256) (tr ++ [codeWrite ((treeOf x).codeOf 256)]) t ∧
      t.freq = countsOf x := by
  have hleaf : (256 : Sym) ∈ (treeOf x).leaves := (treeOf_proper x).2.2
  have hle := codeOf_length_le hleaf
  have hentry : s.code[256] = CodeEntry.ofBits ((treeOf x).codeOf 256) :=
    (Vector.getElem?_eq_some_iff.mp (hcode.code _ hleaf)).2
  refine ⟨_, h.step_eq nofun rfl, ⟨rfl, h.quiet, h.flags, h.marker, h.data, h.pos, ?_, ?_⟩, hcode.freq⟩
  · rw [← h.out, ← ofBits_toBits hle, ← hentry]
    rfl
  · rw [← h.trace, codeWrite, ← ofBits_len hle, ← ofBits_bits hle, ← hentry]
    rfl

theorem running_closePhase (h : Running m x .close pos o tr s) (hfreq : s.freq = countsOf x) :
    ∃ t, step s = .next t ∧ t.trace = tr ++ [.close] ∧ t.out.bits = o ∧
      t.flags = { busy := false, done := true, err := .none } ∧ t.freq = countsOf x := by
  refine ⟨_, h.step_eq nofun rfl, ?_, h.out, ?_, hfreq⟩
  · rw [← h.trace]
    rfl
  · show s.flags.finished = _
    rw [h.flags]
    rfl

end

theorem coreRun_succ (M : Host.Core) {s t : M.State} (k : Nat) (h : M.step s = .next t) :
    M.run (k + 1) s = M.run k t := by rw [Host.Core.run, h]

theorem run_succ {s t : State} (k : Nat) (h : step s = .next t) : core.run (k + 1) s = core.run k t :=
  coreRun_succ core k h

/-- COMPRESS from any state that can start a command: everything the host sees is a function of MARKER and the input. -/
theorem run_compress {s : State} (x : List Byte) (hs : s.Ready) : ∃ t : State,
    core.run 10 ((s.provide (.bytes x)).offer opCompress) = .next t ∧
    t.trace = s.trace ++ compressTrace s.marker x ∧ t.out.bits = compressBits s.marker x ∧
    t.flags = { busy := false, done := true, err := .none } ∧ t.freq = countsOf x := by
  obtain ⟨s1, e1, h1⟩ := running_compress x hs
  obtain ⟨s2, e2, h2, hfreq⟩ := running_count h1
  obtain ⟨s3, e3, h3, htree⟩ := running_build h2 hfreq
  obtain ⟨s4, e4, h4, htree, hcode⟩ := running_gencodes h3 htree
  obtain ⟨s5, e5, h5, htree, hcode⟩ := running_cMark h4 htree hcode
  obtain ⟨s6, e6, h6, hcode⟩ := running_hdrser h5 htree hcode
  obtain ⟨s7, e7, h7, hcode⟩ := running_cRewind h6 hcode
  obtain ⟨s8, e8, h8, hcode⟩ := running_encode h7 hcode
  obtain ⟨s9, e9, h9, hfreq⟩ := running_cTerm h8 hcode
  obtain ⟨t, e10, htrace, hout, hflags, hfreq⟩ := running_closePhase h9 hfreq
  refine ⟨t, ?_, ?_, ?_, hflags, hfreq⟩
  · rw [run_succ 9 e1, run_succ 8 e2, run_succ 7 e3, run_succ 6 e4, run_succ 5 e5, run_succ 4 e6, run_succ 3 e7,
      run_succ 2 e8, run_succ 1 e9, run_succ 0 e10]
    rfl
  · rw [htrace]
    simp only [compressTrace, headerTrace, List.append_assoc]
  · rw [hout]
    rfl

/-- Settles O60: both runs are the run of `run_compress`. -/
theorem nothingIsCarriedIntoTheNextCompress : Obligations.NothingIsCarriedIntoTheNextCompress := by
  intro s1 s2 x hs1 hs2 hm
  obtain ⟨t1, e1, htrace1, hout1, hflags1, hfreq1⟩ := run_compress x hs1
  obtain ⟨t2, e2, htrace2, hout2, hflags2, hfreq2⟩ := run_compress x hs2
  rw [← hm] at htrace2 hout2
  exact ⟨t1, t2, compressTrace s1.marker x, e1, e2, htrace1, htrace2, hout1.trans hout2.symm,
    hflags1.trans hflags2.symm, hfreq1.trans hfreq2.symm⟩

end Sys2Proof.Machine

/-! ### Bytes as bits (R53, R60) -/

namespace Sys2Proof

theorem bits_add (a b v : Nat) : bits (a + b) v = bits a (v / 2 ^ b) ++ bits b v := by
  induction a with
  | zero => rw [Nat.zero_add, bits_zero, List.nil_append]
  | succ a ih => rw [Nat.succ_add, bits_succ, bits_succ, Nat.testBit_div_two_pow, ih, List.cons_append]

/-- Bits at or above position `w` are ignored (R53). -/
theorem bits_mod (w v : Nat) : bits w (v % 2 ^ w) = bits w v :=
  bits_congr _ _ _ fun k hk => by rw [Nat.testBit_mod_two_pow, decide_eq_true hk, Bool.true_and]

end Sys2Proof

namespace Sys2Proof.Machine

@[simp] theorem unpackBytes_nil : unpackBytes [] = [] := rfl

theorem unpackBytes_cons (b : Byte) (x : List Byte) : unpackBytes (b :: x) = bits 8 b.toNat ++ unpackBytes x := rfl

theorem unpackBytes_append (x y : List Byte) : unpackBytes (x ++ y) = unpackBytes x ++ unpackBytes y :=
  List.flatMap_append

theorem unpackBytes_getElem? (x : List Byte) (k : Nat) :
    (unpackBytes x)[k]? = x[k / 8]?.map fun b => b.getLsbD (7 - k % 8) := by
  induction x generalizing k with
  | nil => rfl
  | cons b x ih =>
    rw [unpackBytes_cons]
    by_cases hk : k < 8
    · rw [List.getElem?_append_left (by rwa [bits_length]), bits_getElem? _ _ _ hk, Nat.div_eq_of_lt hk,
        Nat.mod_eq_of_lt hk]
      rfl
    · obtain ⟨j, rfl⟩ := Nat.exists_eq_add_of_le' (Nat.not_lt.mp hk)
      rw [List.getElem?_append_right (by rw [bits_length]; omega), bits_length, Nat.add_sub_cancel, ih,
        Nat.add_div_right j (by decide), Nat.add_mod_right, List.getElem?_cons_succ]

/-- Eight bits are a byte. -/
theorem packBits_append {p : Bits} (h : p.length = 8) (q : Bits) :
    packBits (p ++ q) = BitVec.ofNat 8 (val p) :: packBits q := by
  match p, h with
  | [_, _, _, _, _, _, _, _], _ => rfl

/-- Fewer than eight bits, but not none, are a byte with 0 bits at its low end. -/
theorem packBits_of_length_lt {p : Bits} (hne : p ≠ []) (h : p.length < 8) :
    packBits p = [BitVec.ofNat 8 (val (p ++ List.replicate (8 - p.length) false))] := by
  fun_cases packBits p with
  | case1 => simp only [List.length_cons] at h; omega
  | case2 => exact absurd rfl hne
  | case3 => rfl

theorem packBits_unpackBytes (x : List Byte) : packBits (unpackBytes x) = x := by
  induction x with
  | nil => rfl
  | cons b x ih => rw [unpackBytes_cons, packBits_append (bits_length _ _), ofNat_val_bits, ih]

/-- What a byte medium gives back of a bit sequence: its bits, and fewer than eight 0 bits after them (R60). -/
theorem unpackBytes_packBits (p : Bits) : ∃ pad, pad < 8 ∧ unpackBytes (packBits p) = p ++ List.replicate pad false := by
  induction h : p.length using Nat.strong_induction_on generalizing p with
  | _ n ih =>
    by_cases hlong : 8 ≤ p.length
    · have hbyte : (p.take 8).length = 8 := List.length_take_of_le hlong
      obtain ⟨pad, hpad, hrest⟩ := ih (p.drop 8).length (by rw [List.length_drop]; omega) (p.drop 8) rfl
      refine ⟨pad, hpad, ?_⟩
      calc unpackBytes (packBits p)
        _ = unpackBytes (packBits (p.take 8 ++ p.drop 8)) := by rw [List.take_append_drop]
        _ = p.take 8 ++ (p.drop 8 ++ List.replicate pad false) := by
          rw [packBits_append hbyte, unpackBytes_cons, bits_ofNat_val hbyte, hrest]
        _ = p ++ List.replicate pad false := by rw [← List.append_assoc, List.take_append_drop]
    · by_cases hne : p = []
      · exact ⟨0, by decide, by rw [hne]; rfl⟩
      · have hpos := List.length_pos_of_ne_nil hne
        refine ⟨8 - p.length, by omega, ?_⟩
        have hbyte : (p ++ List.replicate (8 - p.length) false).length = 8 := by
          rw [List.length_append, List.length_replicate]; omega
        rw [packBits_of_length_lt hne (by omega), unpackBytes_cons, bits_ofNat_val hbyte, unpackBytes_nil, List.append_nil]

/-- Settles O14, by induction on the bytes, and eight bits at a time. -/
theorem bytePackingIsMsbFirstWithZeroPad : Obligations.BytePackingIsMsbFirstWithZeroPad :=
  ⟨unpackBytes_getElem?, packBits_unpackBytes, unpackBytes_packBits⟩

/-! ### The stream transactions (R51 to R55, R62) -/

/-- Settles O19: the digits of `a + b` positions are those above the low `b`, then those. -/
theorem writeBitsMayBeSplit : Obligations.WriteBitsMayBeSplit := by
  intro s a b v
  constructor
  · simp only [State.writeBits_out, bits_add, List.append_assoc]
  · simp only [State.writeBits_out, bits_mod]

theorem drop_eq_cons_of_getElem? {α : Type} {x : List α} {n : Nat} {a : α} (h : x[n]? = some a) :
    x.drop n = a :: x.drop (n + 1) := by
  obtain ⟨hn, rfl⟩ := List.getElem?_eq_some_iff.mp h
  exact List.drop_eq_getElem_cons hn

theorem execReadByte_of_cons {s : State} {x rest : List Byte} {b : Byte} (hx : s.inp.data.asBytes s.inp.pos = some x)
    (h : x.drop s.inp.pos = b :: rest) : execReadByte s = .next ((s.viewBytes x).tookByte b) := by
  rw [execReadByte, withBytes_eq hx]
  simp only [State.bytesLeft, h, State.viewBytes]

theorem execReadByte_of_nil {s : State} {x : List Byte} (hx : s.inp.data.asBytes s.inp.pos = some x)
    (h : x.drop s.inp.pos = []) : execReadByte s = .next (s.viewBytes x).sawByteEnd := by
  rw [execReadByte, withBytes_eq hx]
  simp only [State.bytesLeft, h, State.viewBytes]

theorem execReadBit_of_cons {s : State} {x rest : Bits} {b : Bool} (hx : s.inp.data.asBits s.inp.pos = some x)
    (h : x.drop s.inp.pos = b :: rest) : execReadBit s = .next ((s.viewBits x).tookBit b) := by
  rw [execReadBit, withBits_eq hx]
  simp only [State.bitsLeft, h, State.viewBits]

theorem execReadBit_of_nil {s : State} {x : Bits} (hx : s.inp.data.asBits s.inp.pos = some x)
    (h : x.drop s.inp.pos = []) : execReadBit s = .next (s.viewBits x).sawBitEnd := by
  rw [execReadBit, withBits_eq hx]
  simp only [State.bitsLeft, h, State.viewBits]

/-- Settles O15: the byte at the position is the head of the bytes left. -/
theorem readByteAnswersTheNextByteOrEnd : Obligations.ReadByteAnswersTheNextByteOrEnd := fun _ _ hx =>
  ⟨fun _ hb => execReadByte_of_cons hx (drop_eq_cons_of_getElem? hb),
    fun hend => execReadByte_of_nil hx (List.drop_eq_nil_of_le hend.ge)⟩

/-- Settles O16: the bit at the position is the head of the bits left. -/
theorem readBitAnswersTheNextBitOrEnd : Obligations.ReadBitAnswersTheNextBitOrEnd := fun _ _ hx =>
  ⟨fun _ hb => execReadBit_of_cons hx (drop_eq_cons_of_getElem? hb),
    fun hend => execReadBit_of_nil hx (List.drop_eq_nil_of_le hend.ge)⟩

/-- Settles O17: each is its operation on the stream. -/
theorem resetRewindsAndCloseCloses : Obligations.ResetRewindsAndCloseCloses := fun _ => ⟨rfl, rfl⟩

theorem withBits_of_none {s : State} (h : s.inp.data.asBits s.inp.pos = none) (k : State → Answer State) :
    s.withBits k = .refused .mixedStreamUse := by rw [State.withBits, h]

theorem withBytes_of_none {s : State} (h : s.inp.data.asBytes s.inp.pos = none) (k : State → Answer State) :
    s.withBytes k = .refused .mixedStreamUse := by rw [State.withBytes, h]

/-- Bits of which some are taken, or that are no whole bytes, have no view as bytes (R62). -/
theorem asBytes_bits_eq_none {b : Bits} {n : Nat} (h : n ≠ 0 ∨ b.length % 8 ≠ 0) : (InData.bits b).asBytes n = none := by
  cases n with
  | zero => exact if_neg (h.resolve_left (not_not.mpr rfl))
  | succ n => rfl

/-- Bytes of which some are taken have no view as bits (R62). -/
theorem asBits_bytes_eq_none {x : List Byte} {n : Nat} (h : n ≠ 0) : (InData.bytes x).asBits n = none := by
  cases n with
  | zero => exact absurd rfl h
  | succ n => rfl

/-- Settles O21: every operation that reads IN reads it through its view. -/
theorem mixedStreamUseIsRefused : Obligations.MixedStreamUseIsRefused := by
  intro s
  refine ⟨fun b hb h => ?_, fun x hx h => ?_⟩
  · have refused (k : State → Answer State) : s.withBytes k = .refused .mixedStreamUse :=
      withBytes_of_none (by rw [hb, asBytes_bits_eq_none h]) k
    show execReadByte s = _ ∧ execCount s = _ ∧ execEncode s = _
    exact ⟨refused _, refused _, refused _⟩
  · have refused (k : State → Answer State) : s.withBits k = .refused .mixedStreamUse :=
      withBits_of_none (by rw [hx, asBits_bytes_eq_none h]) k
    show execReadBit s = _ ∧ execDMark s = _ ∧ execHdrdes s = _ ∧ s.walkStep = _
    exact ⟨refused _, refused _, refused _, refused _⟩

end Sys2Proof.Machine

namespace Sys2Proof.Machine

/-! ### What COMPRESS writes, decoded (R127, R168 to R171, R177, R185) -/

/-! #### The walk over the bits -/

/-- Where one bit moves the walk: to a child, from a leaf to itself (R168, R170). -/
def CodeTree.move : CodeTree → Bool → CodeTree
  | .node l r, x => if x then r else l
  | .leaf y, _ => .leaf y

theorem walkBits_of_leaf {t cur : CodeTree} {x : Bool} {y : Sym} (h : cur.move x = .leaf y) (u : Bits) (o : List Byte) :
    walkBits t cur (x :: u) o = if y = 256 then (o, .none) else walkBits t t u (o ++ [y.setWidth 8]) := by
  cases cur with
  | leaf z =>
    cases h
    rfl
  | node l r => simp only [walkBits, show (if x then r else l) = CodeTree.leaf y from h]

theorem walkBits_of_node {t cur l r : CodeTree} {x : Bool} (h : cur.move x = .node l r) (u : Bits) (o : List Byte) :
    walkBits t cur (x :: u) o = walkBits t (.node l r) u o := by
  cases cur with
  | leaf z => cases h
  | node l' r' => simp only [walkBits, show (if x then r' else l') = CodeTree.node l r from h]

theorem walkTrace_of_leaf {t cur : CodeTree} {x : Bool} {y : Sym} (h : cur.move x = .leaf y) (u : Bits) :
    walkTrace t cur (x :: u) =
      .readBit (some x) :: if y = 256 then [] else .writeBits 8 (y.toNat % 256) :: walkTrace t t u := by
  cases cur with
  | leaf z =>
    cases h
    rfl
  | node l r => simp only [walkTrace, show (if x then r else l) = CodeTree.leaf y from h]

theorem walkTrace_of_node {t cur l r : CodeTree} {x : Bool} (h : cur.move x = .node l r) (u : Bits) :
    walkTrace t cur (x :: u) = .readBit (some x) :: walkTrace t (.node l r) u := by
  cases cur with
  | leaf z => cases h
  | node l' r' => simp only [walkTrace, show (if x then r' else l') = CodeTree.node l r from h]

/-- A code leads the walk to its leaf (R125, R127, R168). -/
theorem walkBits_code {t cur : CodeTree} {y : Sym} {p : Bits} (h : (y, p) ∈ cur.codes) (u : Bits) (o : List Byte) :
    walkBits t cur (p ++ u) o = if y = 256 then (o, .none) else walkBits t t u (o ++ [y.setWidth 8]) := by
  induction cur generalizing p with
  | leaf z =>
    cases List.mem_singleton.mp h
    exact walkBits_of_leaf rfl u o
  | node l r ihl ihr =>
    have down {x : Bool} {c : CodeTree} {q : Bits} (hmove : (CodeTree.node l r).move x = c) (hq : (y, q) ∈ c.paths)
        (ih : ∀ {q : Bits}, (y, q) ∈ c.codes →
          walkBits t c (q ++ u) o = if y = 256 then (o, .none) else walkBits t t u (o ++ [y.setWidth 8])) :
        walkBits t (.node l r) (x :: q ++ u) o =
          if y = 256 then (o, .none) else walkBits t t u (o ++ [y.setWidth 8]) := by
      cases c with
      | leaf z =>
        cases List.mem_singleton.mp hq
        exact walkBits_of_leaf hmove u o
      | node l' r' => exact (walkBits_of_node hmove _ o).trans (ih hq)
    have hpaths : (y, p) ∈ l.paths.map (fun x => (x.1, false :: x.2)) ++ r.paths.map (fun x => (x.1, true :: x.2)) := h
    rcases List.mem_append.mp hpaths with h | h <;> obtain ⟨⟨_, q⟩, hq, e⟩ := List.mem_map.mp h <;> cases e
    · exact down rfl hq ihl
    · exact down rfl hq ihr

/-- The codes of bytes are walked to these bytes, the code of 256 to the end; what follows is not read (R171, R176). -/
theorem walkBits_codes {t : CodeTree} {x : List Byte} (hx : ∀ b ∈ x, b.setWidth 9 ∈ t.leaves)
    (hend : (256 : Sym) ∈ t.leaves) (u : Bits) (o : List Byte) :
    walkBits t t ((x.flatMap fun b => t.codeOf (b.setWidth 9)) ++ (t.codeOf 256 ++ u)) o = (o ++ x, .none) := by
  induction x generalizing o with
  | nil =>
    rw [List.flatMap_nil, List.nil_append, walkBits_code (codeOf_mem_codes hend), if_pos rfl, List.append_nil]
  | cons b x ih =>
    obtain ⟨hb, hx⟩ := List.forall_mem_cons.mp hx
    have hne : b.setWidth 9 ≠ (256 : Sym) := by bv_omega
    have hbyte : (b.setWidth 9).setWidth 8 = b := by bv_omega
    rw [List.flatMap_cons, List.append_assoc, walkBits_code (codeOf_mem_codes hb), if_neg hne, ih hx, hbyte,
      List.append_assoc, List.singleton_append]

/-! #### The whole output of COMPRESS -/

/-- A tree with `n` leaves has `2 n - 1` nodes. -/
theorem size_add_one (t : CodeTree) : t.size + 1 = 2 * t.leaves.length := by
  induction t with
  | leaf _ => rfl
  | node l r ihl ihr =>
    rw [CodeTree.size, CodeTree.leaves, List.length_append]
    omega

/-- The tree of an input fits the node store (R9, D10). -/
theorem treeOf_size_le (x : List Byte) : (treeOf x).size ≤ Config.nodeCap := by
  have hsize := size_add_one (treeOf x)
  have hleaves : (treeOf x).leaves.length = (counted (countsOf x) (List.range 257)).length := by
    rw [treeOf, (huffmanTree_leaves (y := 256) (by decide) (countsOf_end_pos x)).length_eq, List.length_map]
  have hle := counted_length_le (countsOf x) (List.range 257)
  rw [List.length_range] at hle
  simp only [Config.nodeCap]
  omega

/-- `Decompress` inverts `Compress`, whatever bits follow (R176, R185). -/
theorem decompressBits_compressBits (m : BitVec 32) (x : List Byte) (u : Bits) :
    decompressBits m (compressBits m x ++ u) = (x, .none) := by
  have hsplit : compressBits m x ++ u = bits Config.markerW m.toNat ++ ((treeOf x).ser ++
      ((x.flatMap fun b => (treeOf x).codeOf (b.setWidth 9)) ++ ((treeOf x).codeOf 256 ++ u))) := by
    simp only [compressBits, Config.markerW, List.append_assoc]
  have hlen : (bits Config.markerW m.toNat).length = Config.markerW := bits_length _ _
  have hmarker : val (bits Config.markerW m.toNat) = m.toNat := (val_bits _ _).trans (Nat.mod_eq_of_lt m.isLt)
  have hgood {v : Bits} : ¬ ((bits Config.markerW m.toNat ++ v).length < Config.markerW ∨
      val ((bits Config.markerW m.toNat ++ v).take Config.markerW) ≠ m.toNat) := by
    rw [List.take_left' hlen, List.length_append, hlen]
    exact not_or.mpr ⟨Nat.not_lt.mpr (Nat.le_add_right _ _), not_not.mpr hmarker⟩
  rw [hsplit, decompressBits, if_neg hgood, List.drop_left' hlen,
    desCapped_eq_some_iff.mpr ⟨rfl, treeOf_size_le x⟩]
  exact walkBits_codes (fun b hb => byte_mem_treeOf hb) (treeOf_proper x).2.2 u []

end Sys2Proof.Machine

namespace Sys2Proof.Machine

/-! ### A command leaves the block ready for the next one (R11, R36, R155, R205) -/

/-- No operation of a phase leaves a transaction outstanding (R11). -/
theorem quiet_phaseOperation {i : Instr} {s t : State} (hf : i.format = .phase) (hs : s.Quiet) (h : exec i s = .next t) :
    t.Quiet := by
  have walked {u v : State} (hu : u.Quiet) (h : u.walkStep = .next v) : v.Quiet := by
    obtain ⟨b, -, ⟨-, rfl⟩ | ⟨x, rest, -, h⟩⟩ := walkStep_eq_next h
    · exact hu
    · obtain ⟨n, h⟩ := moveBy_eq_next h
      rw [landOn_frame h]
      exact hu
  cases i with
  | count =>
    obtain ⟨x, hx, -⟩ := withBytes_eq_next (show execCount s = .next t from h)
    cases (execCount_eq hx).symm.trans h
    exact hs
  | build =>
    rw [execBuild_frame h]
    exact hs
  | gencodes =>
    rw [(execGencodes_frame h).1]
    exact hs
  | hdrser =>
    rw [execHdrser_frame h]
    exact hs
  | encode =>
    obtain ⟨x, -, e⟩ := execEncode_frame h
    rw [e]
    exact hs
  | dMark =>
    obtain ⟨b, -, h⟩ := withBits_eq_next (show execDMark s = .next t from h)
    cases h
    rcases readMarker_cases (s.viewBits b) (s.viewBits b).bitsLeft with ⟨e, -⟩ | ⟨e, -⟩ <;> rw [e, readField_eq] <;> exact hs
  | hdrdes =>
    obtain ⟨b, -, h⟩ := withBits_eq_next (show execHdrdes s = .next t from h)
    cases h
    have hframe := headerLoop_frame (Config.nodeCap + 1) (s.viewBits b).startHeader
    exact ⟨hframe.req.trans hs.1, (congrArg OutPort.req hframe.out).trans hs.2⟩
  | walk => exact walked (u := s.setCur s.regs.root) hs h
  | walkInt => exact walked hs h
  | cMark | cRewind | cTerm | closePhase =>
    cases h
    exact hs
  | _ => cases hf

theorem quiet_step {s t : State} (hs : s.Quiet) (h : step s = .next t) : t.Quiet := by
  rcases step_cases s with e | e | e | ⟨i, u, hi, e⟩ <;> rw [e] at h
  · cases h
  · cases h
    exact hs
  · cases h
    exact hs
  · cases hi with
    | input hreq => cases hs.1.symm.trans hreq
    | output _ hreq => cases hs.2.symm.trans hreq
    | command hready _ hf =>
      obtain ⟨p, -, rfl⟩ := commandOperation_of_idle (s := { s with cmd := none }) hready.1 hf h
      exact hs
    | phase _ _ hf => exact quiet_phaseOperation hf hs h

/-- What every step keeps, a run keeps. -/
theorem coreRun_keeps (M : Host.Core) {P : M.State → Prop} (hP : ∀ s t, P s → M.step s = .next t → P t) (k : Nat)
    {s t : M.State} (hs : P s) (h : M.run k s = .next t) : P t := by
  induction k generalizing s with
  | zero =>
    cases h
    exact hs
  | succ k ih =>
    rw [Host.Core.run] at h
    split at h
    · rename_i u hu
      exact ih (hP s u hs hu) h
    · cases h
    · cases h

theorem run_keeps {P : State → Prop} (hP : ∀ s t, P s → step s = .next t → P t) (k : Nat) {s t : State} (hs : P s)
    (h : core.run k s = .next t) : P t := coreRun_keeps core hP k hs h

/-- A command that runs, with nothing outstanding, leaves the block ready once it is no longer busy (R29, R155). -/
theorem ready_of_run {k : Nat} {s t : State} (hs : s.Quiet) (hflags : FlagsAgree s.phase s.flags)
    (h : core.run k s = .next t) (hdone : t.flags.busy = false) : t.Ready := by
  obtain ⟨hquiet, hbusy, -⟩ := run_keeps (P := fun u => u.Quiet ∧ FlagsAgree u.phase u.flags)
    (fun _ _ hu hstep => ⟨quiet_step hu.1 hstep, flagsAgree_step hu.2 hstep⟩) k ⟨hs, hflags⟩ h
  have hidle : ¬ t.phase ≠ .idle := fun hp => by cases hdone.symm.trans (hbusy.mpr hp)
  exact ⟨not_not.mp hidle, hquiet⟩

/-- After COMPRESS the next command can start, and MARKER is what it was. -/
theorem ready_of_run_compress {s t : State} {x : List Byte} (hs : s.Ready)
    (h : core.run 10 ((s.provide (.bytes x)).offer opCompress) = .next t) (hdone : t.flags.busy = false) :
    t.Ready ∧ t.marker = s.marker := by
  obtain ⟨s1, e1, h1⟩ := running_compress x hs
  rw [run_succ 9 e1] at h
  have hflags : FlagsAgree s1.phase s1.flags := by
    rw [h1.phase, h1.flags]
    exact ⟨iff_of_true rfl nofun, fun _ => rfl, fun he => absurd rfl he⟩
  refine ⟨ready_of_run h1.quiet hflags h hdone, ?_⟩
  exact run_keeps (P := fun u => u.marker = s.marker)
    (fun u v hu hstep => (noStepChangesTheMarker u v hstep).trans hu) 9 h1.marker h

end Sys2Proof.Machine

namespace Sys2Proof.Machine

/-! ### DECOMPRESS as a function of its bits (R166 to R178, R201 to R205) -/

/-! #### The bits that transactions read -/

/-- The bits answered by the reads of a list of transactions, in order. -/
def bitsRead (l : List Txn) : Bits := l.filterMap fun x => match x with
  | .readBit r => r
  | _ => none

@[simp] theorem bitsRead_append (l l' : List Txn) : bitsRead (l ++ l') = bitsRead l ++ bitsRead l' := List.filterMap_append

@[simp] theorem bitsRead_readsOf (p : Bits) : bitsRead (readsOf p) = p := by
  induction p with
  | nil => rfl
  | cons b p ih => exact congrArg (b :: ·) ih

@[simp] theorem bitsRead_lowBits (l : List Txn) : bitsRead (l.map Txn.lowBits) = bitsRead l := by
  rw [bitsRead, List.filterMap_map]
  refine List.filterMap_congr fun x _ => ?_
  cases x <;> rfl

@[simp] theorem lowBits_readsOf (p : Bits) : (readsOf p).map Txn.lowBits = readsOf p := by
  rw [readsOf, List.map_map]
  rfl

/-- The transactions of a field of `n` bits out of the bits `u` (R61). -/
def fieldReads (n : Nat) (u : Bits) : List Txn := readsOf (u.take n) ++ if n ≤ u.length then [] else [.readBit none]

theorem fieldReads_of_le {n : Nat} {u : Bits} (h : n ≤ u.length) : fieldReads n u = readsOf (u.take n) := by
  rw [fieldReads, if_pos h, List.append_nil]

theorem fieldReads_of_lt {n : Nat} {u : Bits} (h : u.length < n) : fieldReads n u = readsOf u ++ [.readBit none] := by
  rw [fieldReads, if_neg h.not_ge, List.take_of_length_le h.le]

theorem bitsRead_fieldReads (n : Nat) (u : Bits) : bitsRead (fieldReads n u) = u.take n := by
  rw [fieldReads, bitsRead_append, bitsRead_readsOf]
  split <;> exact List.append_nil _

theorem lowBits_fieldReads (n : Nat) (u : Bits) : (fieldReads n u).map Txn.lowBits = fieldReads n u := by
  rw [fieldReads, List.map_append, lowBits_readsOf]
  split <;> rfl

/-! #### The state of the run -/

/-- DECOMPRESS of the bits `b`, accepted in `s0`, runs: its transactions so far are `l`, of a write's value the bits that
are written; OUT holds `o`; the reads took the bits of `b` up to the read position. -/
structure Decoding (s0 : State) (b : Bits) (l : List Txn) (o : Bits) (s : State) : Prop where
  quiet : s.Quiet
  marker : s.marker = s0.marker
  view : s.inp.data.asBits s.inp.pos = some b
  pos_le : s.inp.pos ≤ b.length
  taken : bitsRead l = b.take s.inp.pos
  trace : ∃ new, s.trace = s0.trace ++ new ∧ new.map Txn.lowBits = l
  out : s.out.bits = o

/-- From `s` the run ends: with the transactions `l`, `o` in OUT, closed, and the error `e`. -/
def Ends (s0 : State) (b : Bits) (s : State) (l : List Txn) (o : Bits) (e : ErrKind) : Prop :=
  ∃ (k : Nat) (t : State), core.run k s = .next t ∧ Decoding s0 b l o t ∧ t.phase = .idle ∧
    t.flags = { busy := false, done := true, err := e } ∧ t.out.closed = true

section

variable {s0 s t : State} {b : Bits} {l : List Txn} {o : Bits} {e : ErrKind}

theorem ends_of_step (h : step s = .next t) (ht : Ends s0 b t l o e) : Ends s0 b s l o e := by
  obtain ⟨k, u, hrun, hu⟩ := ht
  exact ⟨k + 1, u, (run_succ k h).trans hrun, hu⟩

/-- The transactions `new` have been issued, and have taken the bits they read. -/
theorem Decoding.issue (h : Decoding s0 b l o s) {new : List Txn} {rest : Bits} (hquiet : t.Quiet)
    (hmarker : t.marker = s.marker) (hdata : t.inp.data = .bits b) (hleft : b.drop s.inp.pos = bitsRead new ++ rest)
    (hpos : t.inp.pos = s.inp.pos + (bitsRead new).length) (htrace : t.trace = s.trace ++ new) :
    Decoding s0 b (l ++ new.map Txn.lowBits) t.out.bits t where
  quiet := hquiet
  marker := hmarker.trans h.marker
  view := by rw [hdata, asBits_bits]
  pos_le := by
    have hlen := congrArg List.length hleft
    rw [List.length_drop, List.length_append] at hlen
    have hle := h.pos_le
    omega
  taken := by rw [bitsRead_append, bitsRead_lowBits, h.taken, hpos, List.take_add, hleft, List.take_left]
  trace := by
    obtain ⟨old, hold, rfl⟩ := h.trace
    exact ⟨old ++ new, by rw [htrace, hold, List.append_assoc], List.map_append⟩
  out := rfl

theorem Decoding.setPhase (h : Decoding s0 b l o s) (p : Phase) : Decoding s0 b l o (s.setPhase p) :=
  ⟨h.quiet, h.marker, h.view, h.pos_le, h.taken, h.trace, h.out⟩

theorem Decoding.raise (h : Decoding s0 b l o s) (e : ErrKind) : Decoding s0 b l o (s.raise e) :=
  ⟨h.quiet, h.marker, h.view, h.pos_le, h.taken, h.trace, h.out⟩

/-- CLOSE ends the command, with the error it was reached with (R175, R205). -/
theorem ends_of_close (h : Decoding s0 b l o s) (hp : s.phase = .close) (hf : s.flags = flagsAccepted.raised e) :
    Ends s0 b s (l ++ [.close]) o e := by
  have hstep : step s = .next s.closeOut.finish := step_of_phase (i := .closePhase) h.quiet hp nofun rfl
  have htaken : bitsRead (l ++ [.close]) = b.take s.inp.pos := by
    rw [bitsRead_append, h.taken]
    exact List.append_nil _
  obtain ⟨new, htrace, hnew⟩ := h.trace
  refine ⟨1, _, run_succ 0 hstep, ⟨h.quiet, h.marker, h.view, h.pos_le, htaken, ⟨new ++ [.close], ?_, ?_⟩, h.out⟩,
    rfl, ?_, rfl⟩
  · rw [← List.append_assoc, ← htrace]
    rfl
  · rw [List.map_append, hnew]
    rfl
  · show s.flags.finished = _
    rw [hf]
    rfl

/-! #### The walk -/

/-- A bit moves the walk from the tree it stands at to the one `CodeTree.move` gives (R168, R170). -/
theorem moveBy_eq_landOn {cur : CodeTree} (hcur : s.treeAt Config.nodeCap s.regs.cur = some cur) (x : Bool) :
    ∃ n, s.moveBy x = s.landOn n ∧ s.treeAt Config.nodeCap n = some (cur.move x) := by
  rcases treeAt_succ_cases hcur with ⟨y, w, hn, rfl⟩ | ⟨w, l, r, tl, tr, hn, hl, hr, rfl⟩
  · exact ⟨s.regs.cur, by simp only [State.moveBy, hn], hcur⟩
  · refine ⟨if x then r else l, by simp only [State.moveBy, hn], ?_⟩
    cases x
    · exact treeAt_mono hl (by decide)
    · exact treeAt_mono hr (by decide)

theorem landOn_inner {n : Idx} {tl tr : CodeTree} (h : s.treeAt Config.nodeCap n = some (.node tl tr)) :
    s.landOn n = .next ((s.setCur n).setPhase .dInt) := by
  rcases treeAt_succ_cases h with ⟨_, _, _, e⟩ | ⟨w, l, r, _, _, hn, -⟩
  · cases e
  · simp only [State.landOn, hn]

theorem landOn_leaf {n : Idx} {y : Sym} (h : s.treeAt Config.nodeCap n = some (.leaf y)) :
    s.landOn n = if y = 256 then .next ((s.setCur n).setPhase .close)
      else .next (((s.writeBits 8 y.toNat).setCur s.regs.root).setPhase .dRoot) := by
  rcases treeAt_succ_cases h with ⟨_, _, hn, e⟩ | ⟨_, _, _, _, _, _, _, _, e⟩ <;> cases e
  simp only [State.landOn, hn]

/-- The walk stands at `cur` in the tree `tree`: at an internal node in D_INT, at the root in D_ROOT (R174). -/
structure Walking (tree cur : CodeTree) (s : State) : Prop where
  phase : s.phase = .dInt ∨ s.phase = .dRoot ∧ s.regs.cur = s.regs.root
  flags : s.flags = flagsAccepted
  root : s.treeAt Config.nodeCap s.regs.root = some tree
  cur : s.treeAt Config.nodeCap s.regs.cur = some cur

theorem setCur_self (s : State) : s.setCur s.regs.cur = s := rfl

theorem Walking.step_eq {tree cur : CodeTree} (h : Walking tree cur s) (hs : s.Quiet) : step s = s.walkStep := by
  rcases h.phase with hp | ⟨hp, hcur⟩
  · exact step_of_phase (i := .walkInt) hs hp nofun rfl
  · have hstep : step s = (s.setCur s.regs.root).walkStep := step_of_phase (i := .walk) hs hp nofun rfl
    rw [hstep, ← hcur, setCur_self]

/-- At the end of IN the walk is cut off (R169). -/
theorem Walking.at_end {tree cur : CodeTree} (hw : Walking tree cur s) (h : Decoding s0 b l o s)
    (hu : b.drop s.inp.pos = []) :
    ∃ t, step s = .next t ∧ Decoding s0 b (l ++ [.readBit none]) o t ∧ t.phase = .close ∧
      t.flags = flagsAccepted.raised .truncatedBody := by
  have hstep : step s = .next ((s.viewBits b).sawBitEnd.raise .truncatedBody) := by
    rcases walkStep_cases s b h.view with ⟨-, e⟩ | ⟨x, rest, hx, -⟩
    · exact (hw.step_eq h.quiet).trans e
    · cases hu.symm.trans hx
  have hnext := h.issue (t := (s.viewBits b).sawBitEnd) (new := [.readBit none]) (rest := []) h.quiet rfl rfl hu rfl rfl
  exact ⟨_, hstep, (h.out ▸ hnext).raise _, rfl, congrArg (·.raised ErrKind.truncatedBody) hw.flags⟩

/-- With a bit left the walk takes it and lands where it leads (R168). -/
theorem Walking.on_bit {tree cur : CodeTree} {x : Bool} {u : Bits} (hw : Walking tree cur s)
    (hview : s.inp.data.asBits s.inp.pos = some b) (hs : s.Quiet) (hu : b.drop s.inp.pos = x :: u) :
    ∃ n, step s = ((s.viewBits b).tookBit x).landOn n ∧
      ((s.viewBits b).tookBit x).treeAt Config.nodeCap n = some (cur.move x) := by
  have hcur : ((s.viewBits b).tookBit x).treeAt Config.nodeCap s.regs.cur = some cur := treeAt_of_same_node hw.cur rfl
  obtain ⟨n, hmove, hn⟩ := moveBy_eq_landOn (s := (s.viewBits b).tookBit x) hcur x
  rcases walkStep_cases s b hview with ⟨hnil, -⟩ | ⟨x', rest, hx, e⟩
  · cases hu.symm.trans hnil
  · cases hu.symm.trans hx
    exact ⟨n, (hw.step_eq hs).trans (e.trans hmove), hn⟩

theorem drop_succ_of_drop_eq_cons {n : Nat} {x : Bool} {u : Bits} (h : b.drop n = x :: u) : b.drop (n + 1) = u := by
  rw [← List.drop_drop, h]
  rfl

/-- The bit leads to an internal node (R174). -/
theorem Walking.to_node {tree cur tl tr : CodeTree} {x : Bool} {u : Bits} (hw : Walking tree cur s)
    (h : Decoding s0 b l o s) (hu : b.drop s.inp.pos = x :: u) (hland : cur.move x = .node tl tr) :
    ∃ t, step s = .next t ∧ Decoding s0 b (l ++ [.readBit (some x)]) o t ∧ Walking tree (.node tl tr) t ∧
      b.drop t.inp.pos = u := by
  obtain ⟨n, hstep, hn⟩ := hw.on_bit h.view h.quiet hu
  rw [hland] at hn
  rw [landOn_inner hn] at hstep
  have hnext := h.issue (t := (((s.viewBits b).tookBit x).setCur n).setPhase .dInt) (new := [.readBit (some x)])
    (rest := u) h.quiet rfl rfl hu rfl rfl
  exact ⟨_, hstep, h.out ▸ hnext,
    ⟨.inl rfl, hw.flags, treeAt_of_same_node hw.root rfl, treeAt_of_same_node hn rfl⟩, drop_succ_of_drop_eq_cons hu⟩

/-- The bit leads to the leaf of 256 (R171). -/
theorem Walking.to_terminator {tree cur : CodeTree} {x : Bool} {u : Bits} (hw : Walking tree cur s)
    (h : Decoding s0 b l o s) (hu : b.drop s.inp.pos = x :: u) (hland : cur.move x = .leaf 256) :
    ∃ t, step s = .next t ∧ Decoding s0 b (l ++ [.readBit (some x)]) o t ∧ t.phase = .close ∧
      t.flags = flagsAccepted := by
  obtain ⟨n, hstep, hn⟩ := hw.on_bit h.view h.quiet hu
  rw [hland] at hn
  rw [landOn_leaf hn, if_pos rfl] at hstep
  have hnext := h.issue (t := (((s.viewBits b).tookBit x).setCur n).setPhase .close) (new := [.readBit (some x)])
    (rest := u) h.quiet rfl rfl hu rfl rfl
  exact ⟨_, hstep, h.out ▸ hnext, rfl, hw.flags⟩

/-- The bit leads to another leaf: its byte is written, and the walk is back at the root (R168, R172). -/
theorem Walking.to_byte {tree cur : CodeTree} {x : Bool} {u : Bits} {z : Sym} (hw : Walking tree cur s)
    (h : Decoding s0 b l o s) (hu : b.drop s.inp.pos = x :: u) (hland : cur.move x = .leaf z) (hz : z ≠ 256) :
    ∃ t, step s = .next t ∧ Decoding s0 b (l ++ [.readBit (some x), .writeBits 8 (z.toNat % 256)]) (o ++ bits 8 z.toNat) t ∧
      Walking tree tree t ∧ b.drop t.inp.pos = u := by
  obtain ⟨n, hstep, hn⟩ := hw.on_bit h.view h.quiet hu
  rw [hland] at hn
  rw [landOn_leaf hn, if_neg hz] at hstep
  have hnext := h.issue (t := ((((s.viewBits b).tookBit x).writeBits 8 z.toNat).setCur s.regs.root).setPhase .dRoot)
    (new := [.readBit (some x), .writeBits 8 z.toNat]) (rest := u) h.quiet rfl rfl hu rfl (List.append_assoc _ _ _)
  refine ⟨_, hstep, h.out ▸ hnext, ⟨.inr ⟨rfl, rfl⟩, hw.flags, ?_, ?_⟩, drop_succ_of_drop_eq_cons hu⟩ <;>
    exact treeAt_of_same_node hw.root rfl

theorem unpackBytes_concat (y : List Byte) (z : Sym) :
    unpackBytes (y ++ [z.setWidth 8]) = unpackBytes y ++ bits 8 z.toNat := by
  rw [unpackBytes_append, unpackBytes_cons, BitVec.toNat_setWidth, bits_mod, unpackBytes_nil, List.append_nil]

/-- The walk ends as `walkBits` and `walkTrace` say (R168 to R178). -/
theorem ends_of_walking {tree cur : CodeTree} {y : List Byte} {u : Bits} (hw : Walking tree cur s)
    (h : Decoding s0 b l (unpackBytes y) s) (hu : b.drop s.inp.pos = u) :
    Ends s0 b s (l ++ (walkTrace tree cur u ++ [.close])) (unpackBytes (walkBits tree cur u y).1)
      (walkBits tree cur u y).2 := by
  induction u generalizing s cur l y with
  | nil =>
    obtain ⟨t, hstep, ht, hp, hf⟩ := hw.at_end h hu
    rw [← List.append_assoc]
    exact ends_of_step hstep (ends_of_close ht hp hf)
  | cons x u ih =>
    cases hland : cur.move x with
    | node tl tr =>
      obtain ⟨t, hstep, ht, hwt, hut⟩ := hw.to_node h hu hland
      rw [walkBits_of_node hland, walkTrace_of_node hland, List.cons_append, List.append_cons]
      exact ends_of_step hstep (ih hwt ht hut)
    | leaf z =>
      rw [walkBits_of_leaf hland, walkTrace_of_leaf hland]
      by_cases hz : z = 256
      · obtain ⟨t, hstep, ht, hp, hf⟩ := hw.to_terminator h hu (hz ▸ hland)
        rw [if_pos hz, if_pos hz, ← List.append_assoc]
        exact ends_of_step hstep (ends_of_close ht hp hf)
      · obtain ⟨t, hstep, ht, hwt, hut⟩ := hw.to_byte h hu hland hz
        rw [← unpackBytes_concat] at ht
        rw [if_neg hz, if_neg hz, List.cons_append, List.cons_append, List.append_cons, List.append_cons,
          List.append_assoc l]
        exact ends_of_step hstep (ih hwt ht hut)

/-! #### The header and the marker -/

/-- A tree that fits is read, and the walk starts at its root (R140, R143, R167). -/
theorem decoding_of_tree {tree : CodeTree} {rest : Bits} (h : Decoding s0 b l o s) (hp : s.phase = .dHdr)
    (hf : s.flags = flagsAccepted) (hdes : desCapped (b.drop s.inp.pos) = some (tree, rest)) :
    ∃ t, step s = .next t ∧ Decoding s0 b (l ++ readsOf tree.ser) o t ∧ Walking tree tree t ∧
      b.drop t.inp.pos = rest := by
  obtain ⟨hser, hsize⟩ := desCapped_eq_some_iff.mp hdes
  obtain ⟨u, hu, hloop⟩ := headerLoop_of_tree (s := s.viewBits b) hser hsize
  have hexec : execHdrdes s = .next { headerLoop (Config.nodeCap + 1) (s.viewBits b).startHeader with stk := [] } :=
    withBits_eq h.view _
  have hstep : step s = execHdrdes s := step_of_phase (i := .hdrdes) h.quiet hp nofun rfl
  have hpos : u.inp.pos = s.inp.pos + tree.ser.length := hu.pos
  have htree := hu.tree.treeAt (k := Config.nodeCap) (Nat.lt_of_lt_of_le (depth_lt_size tree) hsize)
  rw [hexec, hloop] at hstep
  have hout : u.out = s.out := hu.frame.out
  have hquiet : u.Quiet := ⟨hu.frame.req.trans h.quiet.1, (congrArg OutPort.req hout).trans h.quiet.2⟩
  have hnext := h.issue (t := { u.headerDone 0 with stk := [] }) (new := readsOf tree.ser) (rest := rest) hquiet
    hu.frame.marker hu.frame.data (by rw [bitsRead_readsOf, hser]) (by rw [bitsRead_readsOf]; exact hpos) hu.trace
  have hroot : State.treeAt { u.headerDone 0 with stk := [] } Config.nodeCap 0 = some tree := treeAt_of_same_node htree rfl
  refine ⟨_, hstep, ?_, ⟨.inr ⟨rfl, rfl⟩, hu.flags.trans hf, hroot, hroot⟩, ?_⟩
  · rw [lowBits_readsOf] at hnext
    rw [← h.out, ← hout]
    exact hnext
  · show b.drop u.inp.pos = rest
    rw [hpos, ← List.drop_drop, hser, List.drop_left]

/-- Any other header is read as far as `badHeaderReads` says, and is CorruptHeaderError (R141, R142). -/
theorem decoding_of_badHeader (h : Decoding s0 b l o s) (hp : s.phase = .dHdr) (hf : s.flags = flagsAccepted)
    (hdes : desCapped (b.drop s.inp.pos) = none) :
    ∃ t, step s = .next t ∧ Decoding s0 b (l ++ badHeaderReads (b.drop s.inp.pos)) o t ∧ t.phase = .close ∧
      t.flags = flagsAccepted.raised .corruptHeader := by
  obtain ⟨t, hexec, hframe, -, -, hbad⟩ := hdrdesComputesDes s b h.view
  obtain ⟨hclose, hflags, hfull, hended⟩ := hbad hdes
  have hstep : step s = exec .hdrdes s := step_of_phase h.quiet hp nofun rfl
  have hquiet : t.Quiet := by rw [hframe]; exact h.quiet
  have hmarker : t.marker = s.marker := by rw [hframe]
  have hdata : t.inp.data = .bits b := by rw [hframe]
  have hout : t.out.bits = o := by rw [hframe]; exact h.out
  refine ⟨t, hstep.trans hexec, ?_, hclose, by rw [hflags, hf]; rfl⟩
  rw [badHeaderReads]
  split
  · rename_i p htokens
    obtain ⟨-, hpos, htrace⟩ := hfull p htokens
    obtain ⟨rest, hrest⟩ := headerTokens_prefix _ _ _ htokens
    have hnext := h.issue (new := readsOf p) (rest := rest) hquiet hmarker hdata (by rw [bitsRead_readsOf, hrest])
      (by rw [bitsRead_readsOf, hpos]) htrace
    rwa [lowBits_readsOf, hout] at hnext
  · rename_i htokens
    obtain ⟨hpos, -, htrace⟩ := hended htokens
    have hread : bitsRead (readsOf (b.drop s.inp.pos) ++ [.readBit none]) = b.drop s.inp.pos := by
      rw [bitsRead_append, bitsRead_readsOf]
      exact List.append_nil _
    have hnext := h.issue (new := readsOf (b.drop s.inp.pos) ++ [.readBit none]) (rest := []) hquiet hmarker hdata
      (by rw [hread, List.append_nil]) (by rw [hread, hpos]) (by rw [htrace, List.append_assoc]; rfl)
    rwa [List.map_append, lowBits_readsOf, hout] at hnext

/-- A field is read out of the bits left, as far as they go (R61). -/
theorem decoding_readField (h : Decoding s0 b l o s) {u : Bits} (hu : b.drop s.inp.pos = u) (n : Nat) :
    Decoding s0 b (l ++ fieldReads n u) o ((s.viewBits b).readField n u).2 := by
  have hnext := h.issue (t := ((s.viewBits b).readField n u).2) (new := fieldReads n u) (rest := u.drop n)
  rw [lowBits_fieldReads, bitsRead_fieldReads, readField_eq, hu] at hnext
  rw [readField_eq, ← h.out]
  exact hnext h.quiet rfl rfl (List.take_append_drop _ _).symm (by rw [List.length_take]; rfl)
    (List.append_assoc _ _ _)

/-- Fewer than 32 bits are no marker (R201). -/
theorem readMarker_of_short {bs : Bits} (h : bs.length < Config.markerW) :
    s.readMarker bs = (s.readField Config.markerW bs).2.raise .format := by
  rcases readMarker_cases s bs with ⟨-, hlen, -⟩ | ⟨e, -⟩
  · exact absurd hlen h.not_ge
  · exact e

/-- All 32 bits are compared (R166). -/
theorem readMarker_of_long {bs : Bits} (h : Config.markerW ≤ bs.length) :
    s.readMarker bs = if val (bs.take Config.markerW) = s.marker.toNat
      then (s.readField Config.markerW bs).2.setPhase .dHdr else (s.readField Config.markerW bs).2.raise .format := by
  have hval : val (bs.take Config.markerW) < 2 ^ 32 := by
    have hlt := val_lt (bs.take Config.markerW)
    rwa [List.length_take_of_le h] at hlt
  have hacc : (s.readField Config.markerW bs).2.regs.acc.toNat = val (bs.take Config.markerW) := by
    rw [readField_eq]
    exact Nat.mod_eq_of_lt hval
  rcases readMarker_cases s bs with ⟨e, -, hm⟩ | ⟨e, hm⟩
  · rw [e, if_pos (by rw [← hacc, hm])]
  · rw [e, if_neg fun hv => hm h (BitVec.eq_of_toNat_eq (hacc.trans hv))]

/-- From D_HDR the run is that of `Des` and `Walk` (R177, R178). -/
theorem ends_of_dHdr (h : Decoding s0 b l [] s) (hp : s.phase = .dHdr) (hf : s.flags = flagsAccepted) :
    (∀ tree rest, desCapped (b.drop s.inp.pos) = some (tree, rest) →
      Ends s0 b s (l ++ (readsOf tree.ser ++ walkTrace tree tree rest) ++ [.close])
        (unpackBytes (walkBits tree tree rest []).1) (walkBits tree tree rest []).2) ∧
    (desCapped (b.drop s.inp.pos) = none →
      Ends s0 b s (l ++ badHeaderReads (b.drop s.inp.pos) ++ [.close]) [] .corruptHeader) := by
  refine ⟨fun tree rest hdes => ?_, fun hdes => ?_⟩
  · obtain ⟨t, hstep, ht, hw, hu⟩ := decoding_of_tree h hp hf hdes
    rw [← List.append_assoc l, List.append_assoc]
    exact ends_of_step hstep (ends_of_walking (y := []) hw ht hu)
  · obtain ⟨t, hstep, ht, hclose, hft⟩ := decoding_of_badHeader h hp hf hdes
    exact ends_of_step hstep (ends_of_close ht hclose hft)

/-- From D_MARK the run is that of `Decompress` (R177, R178). -/
theorem ends_of_dMark (h : Decoding s0 b [] [] s) (hpos : s.inp.pos = 0) (hp : s.phase = .dMark)
    (hf : s.flags = flagsAccepted) :
    Ends s0 b s (decompressTrace s0.marker b) (unpackBytes (decompressBits s0.marker b).1)
      (decompressBits s0.marker b).2 := by
  have hall : b.drop s.inp.pos = b := by rw [hpos, List.drop_zero]
  have hexec : execDMark s = .next ((s.viewBits b).readMarker (b.drop s.inp.pos)) := withBits_eq h.view _
  rw [hall] at hexec
  have hstep := (step_of_phase (i := .dMark) h.quiet hp nofun rfl).trans hexec
  have hread := decoding_readField h hall Config.markerW
  have hmarker : (s.viewBits b).marker = s0.marker := h.marker
  have hflags : ((s.viewBits b).readField Config.markerW b).2.flags = flagsAccepted := by rw [readField_eq]; exact hf
  have hraised := congrArg (·.raised ErrKind.format) hflags
  by_cases hlen : b.length < Config.markerW
  · rw [fieldReads_of_lt hlen] at hread
    rw [readMarker_of_short hlen] at hstep
    simp only [decompressTrace, decompressBits, if_pos hlen, if_pos (Or.inl hlen)]
    exact ends_of_step hstep (ends_of_close (hread.raise _) rfl hraised)
  · have hlong := Nat.not_lt.mp hlen
    rw [fieldReads_of_le hlong] at hread
    rw [readMarker_of_long hlong, hmarker] at hstep
    by_cases hm : val (b.take Config.markerW) = s0.marker.toNat
    · have hleft : (((s.viewBits b).readField Config.markerW b).2.setPhase .dHdr).inp.pos = Config.markerW := by
        rw [readField_eq]
        show s.inp.pos + min Config.markerW b.length = _
        rw [hpos, Nat.min_eq_left hlong, Nat.zero_add]
      obtain ⟨htree, hbad⟩ := ends_of_dHdr (hread.setPhase .dHdr) rfl hflags
      rw [if_pos hm] at hstep
      rw [hleft] at htree hbad
      refine ends_of_step hstep ?_
      simp only [decompressTrace, decompressBits, if_neg hlen, if_neg (not_or.mpr ⟨hlen, not_not.mpr hm⟩),
        if_neg (not_not.mpr hm)]
      cases hdes : desCapped (b.drop Config.markerW) with
      | none => exact hbad hdes
      | some found => exact htree found.1 found.2 hdes
    · rw [if_neg hm] at hstep
      simp only [decompressTrace, decompressBits, if_neg hlen, if_pos (Or.inr hm), if_pos hm, List.append_nil]
      exact ends_of_step hstep (ends_of_close (hread.raise _) rfl hraised)

end

/-- DECOMPRESS from any state that can start a command, whatever IN holds that can be read as the bits `b`: everything the
host sees is a function of MARKER and `b` (R177, R178). -/
theorem run_decompress {s : State} {d : InData} {b : Bits} (hs : s.Ready) (hb : d.asBits 0 = some b) :
    Ends s b ((s.provide d).offer opDecompress) (decompressTrace s.marker b)
      (unpackBytes (decompressBits s.marker b).1) (decompressBits s.marker b).2 := by
  have hready : ((s.provide d).offer opDecompress).Ready := hs
  refine ends_of_step (step_of_decode (fetch_of_ready hready) (i := .decompress) (rest := []) rfl) ?_
  rw [command_of_idle (s := { (s.provide d).offer opDecompress with cmd := none }) hs.1]
  exact ends_of_dMark ⟨hs.2, rfl, hb, Nat.zero_le _, rfl, ⟨[], (List.append_nil _).symm, rfl⟩, rfl⟩ rfl rfl rfl

/-! ### The round trip through a byte medium (R60, R187) -/

/-- Settles O58: the medium holds what COMPRESS wrote and fewer than eight 0 bits after it (`unpackBytes_packBits`), and
`Decompress` of that is the input (`decompressBits_compressBits`). -/
theorem roundTripThroughAByteMedium : Obligations.RoundTripThroughAByteMedium := by
  intro s x hs
  obtain ⟨t, hrun, -, hout, hflags, -⟩ := run_compress x hs
  obtain ⟨hready, hmarker⟩ := ready_of_run_compress hs hrun (by rw [hflags])
  obtain ⟨pad, -, hpad⟩ := unpackBytes_packBits t.out.bits
  obtain ⟨k, r, hrun', hr, hidle, hfinal, hclosed⟩ := run_decompress (d := .bytes t.out.medium) hready rfl
  rw [show unpackBytes t.out.medium = _ from hpad, hout, ← hmarker, decompressBits_compressBits] at hr hfinal
  exact ⟨t, hrun, k, r, hrun', hidle, hfinal, by rw [OutPort.medium, hr.out, packBits_unpackBytes], hclosed⟩

end Sys2Proof.Machine

namespace Sys2Proof.Machine

/-! ### The wire tokens (R81 to R86) -/

/-- Outside COMPRESS a token is taken from IN, viewed as bits (R60, R86). -/
theorem token_taken {s : State} {b : Bits} (hc : s.phase.compressing = false)
    (hb : s.inp.data.asBits s.inp.pos = some b) (a : Answer State) (k : State → Answer State) :
    (if s.phase.compressing then a else s.withBits k) = k (s.viewBits b) := by
  rw [hc, if_neg Bool.false_ne_true, withBits_eq hb]
  rfl

/-! #### The code tokens C and T -/

theorem codes_ne_nil {t : CodeTree} {y : Sym} {p : Bits} (h : (y, p) ∈ t.codes) : p ≠ [] := by
  cases t with
  | leaf _ =>
    cases List.mem_singleton.mp h
    exact List.cons_ne_nil _ _
  | node l r => exact path_ne_nil h

/-- The bits `p` taken one after the other (R52). -/
def State.tookBits (s : State) (p : Bits) : State := p.foldl State.tookBit s

theorem tookBits_cons (s : State) (x : Bool) (p : Bits) : s.tookBits (x :: p) = (s.tookBit x).tookBits p := rfl

/-- Taking bits touches IN's position and answer and the trace alone. -/
theorem tookBits_eq (s : State) (p : Bits) : s.tookBits p = { s with
    inp := { s.inp with pos := s.inp.pos + p.length, rsp := lastBit p s.inp.rsp }
    trace := s.trace ++ readsOf p } := by
  induction p generalizing s with
  | nil => simp [State.tookBits, lastBit]
  | cons x p ih =>
    rw [tookBits_cons, ih]
    simp [State.tookBit, lastBit, Nat.add_assoc, Nat.add_comm 1]

theorem tookBits_node (s : State) (p : Bits) : (s.tookBits p).node = s.node := by rw [tookBits_eq]

theorem tookBits_setCur_setPhase (s : State) (i : Idx) (ph : Phase) (p : Bits) :
    ((s.setCur i).setPhase ph).tookBits p = ((s.tookBits p).setCur i).setPhase ph := by
  rw [tookBits_eq, tookBits_eq]
  rfl

section

variable {s : State} {n : Idx} {y : Sym} {cur : CodeTree} {p : Bits}

theorem nodeAt_of_treeAt_leaf (h : s.treeAt Config.nodeCap n = some (.leaf y)) :
    ∃ w, s.nodeAt n = some (.leaf y w) := by
  rcases treeAt_succ_cases h with ⟨_, w, hn, e⟩ | ⟨_, _, _, _, _, _, _, _, e⟩ <;> cases e
  exact ⟨w, hn⟩

/-- Where the walk stood and in which phase does not matter once it lands on a leaf (R168, R171). -/
theorem landOn_setCur_setPhase (h : s.treeAt Config.nodeCap n = some (.leaf y)) (i : Idx) (ph : Phase) :
    ((s.setCur i).setPhase ph).landOn n = s.landOn n :=
  (landOn_leaf (s := (s.setCur i).setPhase ph) (treeAt_of_same_node h rfl)).trans (landOn_leaf h).symm

/-- The walk of a code ends with the bit that leads to a leaf (R86 (c), R168). -/
theorem walkCode_of_leaf {x : Bool} (hcur : s.treeAt Config.nodeCap s.regs.cur = some cur)
    (hmove : cur.move x = .leaf y) (q : Bits) :
    ∃ n, s.treeAt Config.nodeCap n = some (.leaf y) ∧ walkCode (x :: q) s = (s.tookBit x).landOn n := by
  obtain ⟨n, hland, hn⟩ := moveBy_eq_landOn (s := s.tookBit x) (treeAt_of_same_node hcur rfl) x
  rw [hmove] at hn
  refine ⟨n, treeAt_of_same_node hn rfl, ?_⟩
  rw [walkCode, hland, landOn_leaf hn]
  split <;> rfl

/-- The walk of a code goes on after a bit that leads to an internal node (R174). -/
theorem walkCode_of_node {x : Bool} {tl tr : CodeTree} (hcur : s.treeAt Config.nodeCap s.regs.cur = some cur)
    (hmove : cur.move x = .node tl tr) (q : Bits) :
    ∃ n, s.treeAt Config.nodeCap n = some (.node tl tr) ∧
      walkCode (x :: q) s = walkCode q (((s.tookBit x).setCur n).setPhase .dInt) := by
  obtain ⟨n, hland, hn⟩ := moveBy_eq_landOn (s := s.tookBit x) (treeAt_of_same_node hcur rfl) x
  rw [hmove] at hn
  refine ⟨n, treeAt_of_same_node hn rfl, ?_⟩
  rw [walkCode, hland, landOn_inner hn]
  rfl

/-- A code leads the walk to its leaf, all its bits taken (R125, R127, R168). -/
theorem walkCode_code (hcur : s.treeAt Config.nodeCap s.regs.cur = some cur) (h : (y, p) ∈ cur.codes) :
    ∃ n, s.treeAt Config.nodeCap n = some (.leaf y) ∧ walkCode p s = (s.tookBits p).landOn n := by
  induction cur generalizing s p with
  | leaf z =>
    cases List.mem_singleton.mp h
    exact walkCode_of_leaf hcur rfl []
  | node l r ihl ihr =>
    have down {x : Bool} {c : CodeTree} {q : Bits} (hmove : (CodeTree.node l r).move x = c) (hq : (y, q) ∈ c.paths)
        (ih : ∀ {u : State} {q : Bits}, u.treeAt Config.nodeCap u.regs.cur = some c → (y, q) ∈ c.codes →
          ∃ n, u.treeAt Config.nodeCap n = some (.leaf y) ∧ walkCode q u = (u.tookBits q).landOn n) :
        ∃ n, s.treeAt Config.nodeCap n = some (.leaf y) ∧ walkCode (x :: q) s = (s.tookBits (x :: q)).landOn n := by
      cases c with
      | leaf z =>
        cases List.mem_singleton.mp hq
        exact walkCode_of_leaf hcur hmove []
      | node tl tr =>
        obtain ⟨m, hm, hwalk⟩ := walkCode_of_node hcur hmove q
        obtain ⟨n, hn, hcode⟩ :=
          ih (u := ((s.tookBit x).setCur m).setPhase .dInt) (treeAt_of_same_node hm rfl) hq
        have hleaf : (s.tookBits (x :: q)).treeAt Config.nodeCap n = some (.leaf y) :=
          treeAt_of_same_node hn (tookBits_node _ _)
        refine ⟨n, treeAt_of_same_node hn rfl, ?_⟩
        rw [hwalk, hcode, tookBits_setCur_setPhase, ← tookBits_cons, landOn_setCur_setPhase hleaf]
    have hpaths : (y, p) ∈ l.paths.map (fun x => (x.1, false :: x.2)) ++ r.paths.map (fun x => (x.1, true :: x.2)) := h
    rcases List.mem_append.mp hpaths with h | h <;> obtain ⟨⟨_, q⟩, hq, e⟩ := List.mem_map.mp h <;> cases e
    · exact down rfl hq ihl
    · exact down rfl hq ihr

/-- The code of a leaf as a token outside COMPRESS: all its bits are taken and the walk lands on the leaf (R86 (c)). -/
theorem codeToken_code {b : Bits} {tree : CodeTree} (hc : s.phase.compressing = false)
    (hb : s.inp.data.asBits s.inp.pos = some b) (ht : s.treeAt Config.nodeCap s.regs.root = some tree)
    (h : (y, p) ∈ tree.codes) :
    ∃ n, s.treeAt Config.nodeCap n = some (.leaf y) ∧ s.codeToken p = ((s.viewBits b).tookBits p).landOn n := by
  have hstart : s.codeToken p = walkCode p (((s.viewBits b).setCur s.regs.root).setPhase .dRoot) :=
    token_taken hc hb _ _
  obtain ⟨n, hn, hwalk⟩ :=
    walkCode_code (s := ((s.viewBits b).setCur s.regs.root).setPhase .dRoot) (treeAt_of_same_node ht rfl) h
  have hleaf : ((s.viewBits b).tookBits p).treeAt Config.nodeCap n = some (.leaf y) :=
    treeAt_of_same_node hn (tookBits_node _ _)
  refine ⟨n, treeAt_of_same_node hn rfl, ?_⟩
  rw [hstart, hwalk, tookBits_setCur_setPhase, landOn_setCur_setPhase hleaf]

end

/-- Settles O46: the code's bits lead from the root to its leaf (`codeToken_code`), and there the walk does what
`landOn_leaf` says. -/
theorem codeTokenWalksToItsLeaf : Obligations.CodeTokenWalksToItsLeaf := by
  intro s b tree y p i hc hb ht hp hi
  have hexec : exec i s = s.codeToken p := by rcases hi with rfl | rfl <;> rfl
  obtain ⟨n, hn, hwalk⟩ := codeToken_code hc hb ht hp
  have hleaf : ((s.viewBits b).tookBits p).treeAt Config.nodeCap n = some (.leaf y) :=
    treeAt_of_same_node hn (tookBits_node _ _)
  rw [hexec, hwalk, landOn_leaf hleaf, tookBits_eq, lastBit_eq p _ (codes_ne_nil hp)]
  refine ⟨fun hy => ?_, fun hy => ?_⟩
  · rw [if_neg hy, show y.toNat % 256 = y.toNat % 2 ^ 8 from rfl, bits_mod]
    rfl
  · subst hy
    obtain ⟨w, hw⟩ := nodeAt_of_treeAt_leaf hn
    exact ⟨n, w, hw, by rw [if_pos rfl]; rfl⟩

/-! #### The token N -/

/-- Settles O44: with room the node is opened as `State.openNode` says; with the store full the error is raised. -/
theorem nodeTokenReservesANode : Obligations.NodeTokenReservesANode := by
  intro s b hc hb
  have hexec : exec .n s = .next (s.viewBits b).tokenN := token_taken hc hb _ _
  rw [hexec]
  refine ⟨fun hroom => ?_, fun hfull => ?_⟩
  · rw [State.tokenN, if_neg (not_storeFull (s := s.viewBits b) hroom)]
    rfl
  · rw [State.tokenN, if_pos (storeFull_iff (s := s.viewBits b).mpr hfull)]
    rfl

/-! #### The token M -/

/-- The state once the 32 bits of the marker `m` have been taken into `acc` (R61, R81). -/
def State.withMarker (s : State) (m : BitVec 32) : State :=
  { s with
    regs := { s.regs with acc := m, bitcnt := 0 }
    inp := { s.inp with pos := s.inp.pos + 32, rsp := lastBit (bits 32 m.toNat) s.inp.rsp }
    trace := s.trace ++ readsOf (bits 32 m.toNat) }

/-- A marker that IN starts with is taken, whatever follows it (R61, R86 (a)). -/
theorem readField_marker (s : State) (m : BitVec 32) (rest : Bits) :
    s.readField Config.markerW (bits 32 m.toNat ++ rest) = (true, s.withMarker m) := by
  have hlen : Config.markerW ≤ (bits 32 m.toNat ++ rest).length := by
    rw [List.length_append, bits_length]; exact Nat.le_add_right 32 _
  have htake : (bits 32 m.toNat ++ rest).take Config.markerW = bits 32 m.toNat := List.take_left' (bits_length 32 _)
  rw [readField_eq, decide_eq_true hlen, if_pos hlen, if_pos hlen, htake, Nat.min_eq_left hlen, ofNat_val_bits,
    BitVec.sub_self, List.append_nil]
  rfl

/-- A marker that IN starts with is compared (R166). -/
theorem readMarker_marker (s : State) (m : BitVec 32) (rest : Bits) :
    s.readMarker (bits 32 m.toNat ++ rest) = (s.withMarker m).checkMarker := by
  rw [State.readMarker, readField_marker]

/-- Settles O43: M and D_MARK alike take the marker's bits and compare them (`readMarker_marker`). -/
theorem markerTokenIsChecked : Obligations.MarkerTokenIsChecked := by
  intro s m b hc hb
  have htoken : exec (.m m) s = .next ((s.viewBits b).readMarker (bits 32 m.toNat)) := token_taken hc hb _ _
  rw [← List.append_nil (bits 32 m.toNat), readMarker_marker] at htoken
  refine ⟨⟨_, htoken, ?_⟩, fun ⟨rest, hrest⟩ => ?_⟩
  · by_cases hm : m = s.marker
    · have hcheck : ((s.viewBits b).withMarker m).checkMarker = ((s.viewBits b).withMarker m).setPhase .dHdr :=
        if_pos hm
      rw [hcheck]
      exact ⟨rfl, fun _ => ⟨rfl, rfl⟩, fun hne => absurd hm hne⟩
    · have hcheck : ((s.viewBits b).withMarker m).checkMarker = ((s.viewBits b).withMarker m).raise .format :=
        if_neg hm
      rw [hcheck]
      exact ⟨rfl, fun heq => absurd heq hm, fun _ => ⟨rfl, rfl⟩⟩
  · have hphase : execDMark s = .next ((s.viewBits b).readMarker (b.drop s.inp.pos)) := withBits_eq hb _
    rw [← hrest, readMarker_marker] at hphase
    exact htoken.trans hphase.symm

/-! #### The tokens as COMPRESS writes them -/

/-- The state once the writes `new` have been issued (R53). -/
def State.wrote (s : State) (new : List Txn) : State :=
  { s with
    out := { s.out with bits := s.out.bits ++ new.flatMap Txn.written }
    trace := s.trace ++ new }

theorem writeBits_eq_wrote (s : State) (w v : Nat) : s.writeBits w v = s.wrote [.writeBits w v] := by
  rw [State.wrote, List.flatMap_singleton]
  rfl

theorem emitL_eq_wrote (s : State) (y : Sym) :
    s.emitL y = s.wrote [.writeBits 1 1, .writeBits 9 y.toNat] := by
  simp [State.emitL, State.writeBits, State.wrote, Txn.written]

/-- In a phase of COMPRESS a token is issued as writes of its bits (R81 to R84). -/
theorem token_written {s : State} {i : Instr} (hc : s.phase.compressing = true)
    (hf : i.format = .marker ∨ i.format = .header ∨ i.format = .code ∨ i.format = .terminator) :
    ∃ new, exec i s = .next (s.wrote new) ∧ new.flatMap Txn.written = encode i := by
  have code (p : Bits) : ∃ new, s.codeToken p = .next (s.wrote new) ∧ new.flatMap Txn.written = p :=
    ⟨[.writeBits p.length (val p)], by rw [State.codeToken, if_pos hc, writeBits_eq_wrote], by
      rw [List.flatMap_singleton, Txn.written, bits_val]⟩
  cases i with
  | m marker =>
    exact ⟨[.writeBits 32 marker.toNat], (if_pos hc).trans (congrArg _ (writeBits_eq_wrote s _ _)),
      List.flatMap_singleton _ _⟩
  | n => exact ⟨[.writeBits 1 0], (if_pos hc).trans (congrArg _ (writeBits_eq_wrote s _ _)), rfl⟩
  | l y => exact ⟨[.writeBits 1 1, .writeBits 9 y.toNat], (if_pos hc).trans (congrArg _ (emitL_eq_wrote s y)), by
      rw [List.flatMap_cons, List.flatMap_singleton]
      rfl⟩
  | c p => exact code p
  | t p => exact code p
  | _ => rcases hf with h | h | h | h <;> cases h

/-- Settles O42: the writes are those of `token_written`. -/
theorem tokensAreWrittenAsTheirBits : Obligations.TokensAreWrittenAsTheirBits := by
  intro s i hc _ hf
  obtain ⟨new, hexec, hbits⟩ := token_written hc hf
  refine ⟨new, ?_, ?_⟩
  · rw [hexec, ← hbits]
    rfl
  · rw [← hbits]
    congr 1
    funext x
    cases x <;> rfl

end Sys2Proof.Machine

namespace Sys2Proof.Machine

/-! ### The counts (R100 to R106, R116) -/

theorem satInc_toNat (v : Count) : (satInc v).toNat = min (v.toNat + 1) (2 ^ 32 - 1) := by
  rw [satInc, BitVec.toNat_ofNat]
  omega

theorem satAdd_toNat (a b : Count) : (satAdd a b).toNat = min (a.toNat + b.toNat) (2 ^ 32 - 1) := by
  rw [satAdd, BitVec.toNat_ofNat]
  omega

/-- Settles O22: the lesser of the two always fits the 32 bits. -/
theorem countsAndWeightsSaturate : Obligations.CountsAndWeightsSaturate := fun a b => ⟨satInc_toNat a, satAdd_toNat a b⟩

/-- Counting adds to a byte's count how often it occurs, as far as the 32 bits go (R102, R103). -/
theorem tally_count (b : Byte) (x : List Byte) (f : Vector Count 257) :
    (countAt (tally x f) b.toNat).toNat = min ((countAt f b.toNat).toNat + x.count b) (2 ^ 32 - 1) := by
  induction x generalizing f with
  | nil =>
    have hlt := (countAt f b.toNat).isLt
    rw [List.count_nil]
    exact (Nat.min_eq_left (by omega)).symm
  | cons r x ih =>
    refine (ih (f.setIfInBounds r.toNat (satInc (countAt f r.toNat)))).trans ?_
    have hr : r.toNat < 257 := Nat.lt_of_lt_of_le r.isLt (by decide)
    by_cases hb : r = b
    · subst hb
      rw [countAt_setIfInBounds_self f hr, satInc_toNat, List.count_cons_self]
      omega
    · have hne : r.toNat ≠ b.toNat := fun e => hb (BitVec.eq_of_toNat_eq e)
      rw [countAt_setIfInBounds_ne f hne, List.count_cons_of_ne hb]

/-- COUNT gives a byte the number of its occurrences, saturated (R101 to R103). -/
theorem countsOf_byte (x : List Byte) (b : Byte) :
    (countAt (countsOf x) b.toNat).toNat = min (x.count b) (2 ^ 32 - 1) := by
  have hne : 256 ≠ b.toNat := (Nat.ne_of_lt b.isLt).symm
  have hb : b.toNat < 257 := Nat.lt_of_lt_of_le b.isLt (by decide)
  have hzero : (countAt (Vector.replicate 257 0) b.toNat).toNat = 0 := by simp [countAt, hb]
  rw [countsOf, countAt_setIfInBounds_ne _ hne, tally_count, hzero, Nat.zero_add]

theorem countAt_countsOf_end (x : List Byte) : countAt (countsOf x) 256 = 1 := by rw [countAt, countsOf_end]; rfl

/-- Settles O23: the counts `execCount_eq` gives are `countsOf_byte`'s and `countAt_countsOf_end`'s. -/
theorem countTalliesEveryByte : Obligations.CountTalliesEveryByte := by
  intro s x hx hpos
  refine ⟨_, execCount_eq hx, ?_, countsOf_byte (x.drop s.inp.pos), countAt_countsOf_end _⟩
  rw [List.length_drop, Nat.add_sub_cancel' hpos]

/-- A table with the counts of an input is the one COUNT makes: symbols are bytes, or 256 (R20, R31). -/
theorem freq_eq_countsOf {c : State} {x : List Byte}
    (hbyte : ∀ b : Byte, (c.freqOf b.toNat).toNat = min (x.count b) (2 ^ 32 - 1)) (hend : c.freqOf 256 = 1) :
    c.freq = countsOf x := by
  have hcount {y : Nat} (hy : y < 257) : countAt c.freq y = countAt (countsOf x) y := by
    rcases Nat.lt_or_eq_of_le (Nat.le_of_lt_succ hy) with hlt | rfl
    · have hidx : (BitVec.ofNat 8 y).toNat = y := Nat.mod_eq_of_lt hlt
      have h := (hbyte (BitVec.ofNat 8 y)).trans (countsOf_byte x (BitVec.ofNat 8 y)).symm
      rw [hidx] at h
      exact BitVec.eq_of_toNat_eq h
    · exact hend.trans (countAt_countsOf_end x).symm
  ext1 y hy
  simpa [countAt, hy] using hcount hy

/-! ### COMPRESS computes its function (R150, R156, R158, R159) -/

/-- BUILD makes the tree of an input of any table of its counts, whatever else the state holds (R110). -/
theorem hasTree_execBuild {s t : State} {x : List Byte} (hfreq : s.freq = countsOf x) (h : execBuild s = .next t) :
    HasTree x t := by
  obtain ⟨-, hroot, hnode⟩ := execBuild_tree h
  have hc : 0 < (countAt s.freq 256).toNat := hfreq ▸ countsOf_end_pos x
  have htree := treeAt_of_same_node (buildTree_treeAt s (y := 256) (by decide) hc) hnode
  rw [← hroot, hfreq] at htree
  exact ⟨by rw [execBuild_frame h]; exact hfreq, htree⟩

/-- A byte has a leaf exactly if it occurs (R111). -/
theorem byte_mem_treeOf_iff {x : List Byte} {b : Byte} : b.setWidth 9 ∈ (treeOf x).leaves ↔ b ∈ x := by
  refine ⟨fun h => ?_, byte_mem_treeOf⟩
  rw [treeOf, (huffmanTree_leaves (y := 256) (by decide) (countsOf_end_pos x)).mem_iff, List.mem_map] at h
  obtain ⟨y, hy, hyb⟩ := h
  obtain ⟨hy, hcount⟩ := List.mem_filter.mp hy
  have hb : y = b.toNat := by
    have hlt := List.mem_range.mp hy
    have e := congrArg BitVec.toNat hyb
    have hb := b.isLt
    rw [BitVec.toNat_ofNat, BitVec.toNat_setWidth] at e
    omega
  subst hb
  have hpos := of_decide_eq_true hcount
  rw [countsOf_byte] at hpos
  exact List.count_pos_iff.mp (lt_of_lt_of_le hpos (Nat.min_le_left _ _))

theorem HasTree.of_same {x : List Byte} {s t : State} (h : HasTree x s) (hfreq : t.freq = s.freq) (hnode : t.node = s.node)
    (hroot : t.regs.root = s.regs.root) : HasTree x t :=
  ⟨hfreq.trans h.freq, by rw [hroot]; exact treeAt_of_same_node h.tree hnode⟩

/-- The phases of COMPRESS from BUILD's end to the end of the command (R26). -/
def writingPhases : List Phase := [.cGen, .cMark, .cHdr, .cRewind, .cEnc, .cTerm, .close]

/-- What the phase says COMPRESS of `x` has done: nothing yet, counted, built the tree, closed OUT (R26, R150). -/
inductive Progress (x : List Byte) (s : State) : Prop
  | counting (hp : s.phase = .cCount) (hx : s.inp.data = .bytes x) (hpos : s.inp.pos = 0)
  | building (hp : s.phase = .cBuild) (hfreq : s.freq = countsOf x)
  | writing (p : Phase) (hphase : s.phase = p) (hp : p ∈ writingPhases) (ht : HasTree x s)
  | ended (hp : s.phase = .idle) (ht : HasTree x s) (hclosed : s.out.closed = true)

/-- After BUILD no operation of COMPRESS touches the counts or the tree; the last one closes OUT (R158). -/
theorem progress_of_writing {x : List Byte} {i : Instr} {s t : State} (hf : i.format = .phase)
    (hp : phaseFor i ∈ writingPhases) (ht : HasTree x s)
    (h : exec i s = .next t) : t.cmd = s.cmd ∧ Progress x t := by
  cases i with
  | gencodes =>
    rw [(execGencodes_frame h).1]
    exact ⟨rfl, .writing .cMark rfl (by decide) (ht.of_same rfl rfl rfl)⟩
  | hdrser =>
    rw [execHdrser_frame h]
    exact ⟨rfl, .writing .cRewind rfl (by decide) (ht.of_same rfl rfl rfl)⟩
  | encode =>
    obtain ⟨y, -, e⟩ := execEncode_frame h
    rw [e]
    exact ⟨rfl, .writing .cTerm rfl (by decide) (ht.of_same rfl rfl rfl)⟩
  | cMark | cRewind | cTerm =>
    cases h
    exact ⟨rfl, .writing _ rfl (by simp [writingPhases]) (ht.of_same rfl rfl rfl)⟩
  | closePhase =>
    cases h
    exact ⟨rfl, .ended rfl (ht.of_same rfl rfl rfl) rfl⟩
  | count | build | dMark | hdrdes | walk | walkInt => exact absurd hp (by decide)
  | _ => cases hf

/-- With no other command offered, a step goes on with COMPRESS, or waits once it has ended. -/
theorem progress_step {x : List Byte} {s t : State} (hs : s.Quiet ∧ s.cmd = none ∧ Progress x s)
    (h : step s = .next t) : t.Quiet ∧ t.cmd = none ∧ Progress x t := by
  obtain ⟨hquiet, hcmd, hprogress⟩ := hs
  refine ⟨quiet_step hquiet h, ?_⟩
  cases hprogress with
  | counting hp hx hpos =>
    rw [step_of_phase hquiet hp nofun (i := .count) rfl] at h
    have hbytes : s.inp.data.asBytes s.inp.pos = some x := by rw [hx, asBytes_bytes]
    cases (execCount_eq hbytes).symm.trans h
    exact ⟨hcmd, .building rfl (by simp only [hpos, List.drop_zero])⟩
  | building hp hfreq =>
    rw [step_of_phase hquiet hp nofun (i := .build) rfl] at h
    have hframe := execBuild_frame h
    exact ⟨by rw [hframe]; exact hcmd, .writing .cGen (by rw [hframe]) (by decide) (hasTree_execBuild hfreq h)⟩
  | writing p hphase hp ht =>
    subst hphase
    obtain ⟨i, hi, hf, e⟩ := step_of_busy hquiet fun hidle => absurd (hidle ▸ hp) (by decide)
    have hnext := progress_of_writing hf (hi ▸ hp) ht (e.symm.trans h)
    exact ⟨hnext.1.trans hcmd, hnext.2⟩
  | ended hp ht hclosed =>
    have hwait := step_of_idle (s := s) (by rw [fetch_of_ready ⟨hp, hquiet⟩, hcmd]; rfl)
    cases hwait.symm.trans h
    exact ⟨hcmd, .ended hp ht hclosed⟩

/-- COMPRESS is taken off the port, and the counting pass begins (R36, R150). -/
theorem progress_compress {s : State} (x : List Byte) (hs : s.Ready) :
    ∃ t, step ((s.provide (.bytes x)).offer opCompress) = .next t ∧ t.Quiet ∧ t.cmd = none ∧ Progress x t := by
  refine ⟨_, step_of_decode (fetch_of_ready (s := (s.provide (.bytes x)).offer opCompress) hs) (i := .compress)
    (rest := []) rfl, ?_⟩
  rw [command_of_idle (s := { (s.provide (.bytes x)).offer opCompress with cmd := none }) hs.1]
  exact ⟨hs.2, rfl, .counting rfl rfl rfl⟩

/-- COMPRESS ends with OUT closed, and with the counts and the tree of the input in the tables (R158). -/
theorem hasTree_of_run_compress {s t : State} {x : List Byte} (hs : s.Ready)
    (h : core.run 10 ((s.provide (.bytes x)).offer opCompress) = .next t) (hidle : t.phase = .idle) :
    HasTree x t ∧ t.out.closed = true := by
  obtain ⟨u, haccept, hu⟩ := progress_compress x hs
  rw [run_succ 9 haccept] at h
  obtain ⟨-, -, hprogress⟩ := run_keeps (fun _ _ => progress_step (x := x)) 9 hu h
  cases hprogress with
  | counting hp | building hp => cases hidle.symm.trans hp
  | writing p hphase hp => exact absurd (hidle.symm.trans hphase ▸ hp) (by decide)
  | ended _ ht hclosed => exact ⟨ht, hclosed⟩

/-- Settles O54: the output and the trace are those of `run_compress`; the tables are `hasTree_of_run_compress`'s; and
BUILD makes `treeOf x` of any table of these counts (`hasTree_execBuild`). -/
theorem compressComputesItsFunction : Obligations.CompressComputesItsFunction := by
  intro s x hs
  obtain ⟨t, hrun, htrace, hout, hflags, hfreq⟩ := run_compress x hs
  obtain ⟨hready, -⟩ := ready_of_run_compress hs hrun (by rw [hflags])
  obtain ⟨htree, hclosed⟩ := hasTree_of_run_compress hs hrun hready.1
  have hcount (y : Nat) : t.freqOf y = countAt (countsOf x) y := by rw [← hfreq]; rfl
  refine ⟨t, treeOf x, hrun, hready.1, hflags, hclosed, fun b => ?_, ?_, fun c hbyte hend => ?_, htree.tree, treeOf_proper x,
    fun b => byte_mem_treeOf_iff, hout, ?_⟩
  · rw [hcount, countsOf_byte]
  · rw [hcount, countAt_countsOf_end]
  · exact ⟨_, rfl, (hasTree_execBuild (freq_eq_countsOf hbyte hend) rfl).tree⟩
  · rw [htrace]
    simp only [compressTrace, headerTrace, codeWrite, List.append_assoc, List.cons_append, List.nil_append]

end Sys2Proof.Machine

namespace Sys2Proof.Machine

/-! ### The nodes BUILD makes (R110 to R119) -/

/-- The children of a node (R32). -/
def Node.children : Node → List Idx
  | .leaf _ _ => []
  | .inner _ l r => [l, r]

theorem mem_children_inner {w : Count} {l r c : Idx} : c ∈ (Node.inner w l r).children ↔ c = l ∨ c = r := by
  simp [Node.children]

/-- `c` is no child of any of the first `n` nodes. -/
def State.Parentless (s : State) (n : Nat) (c : Idx) : Prop :=
  ∀ (j : Idx) (v : Node), j.toNat < n → s.nodeAt j = some v → c ∉ v.children

/-- The order of removal, in a state (R113). -/
def State.Before (s : State) (a b : Idx) : Prop := tieBefore (s.weightOf a) (s.weightOf b) a b = true

/-- Node `i` joins `a` and `b`, the two least parentless ones of the nodes before it (R112 to R114, R116). -/
structure State.JoinsLeast (s : State) (i a b : Idx) : Prop where
  node : s.nodeAt i = some (.inner (satAdd (s.weightOf a) (s.weightOf b)) a b)
  left_lt : a.toNat < i.toNat
  right_lt : b.toNat < i.toNat
  before : s.Before a b
  left_free : s.Parentless i.toNat a
  right_free : s.Parentless i.toNat b
  least : ∀ c : Idx, c.toNat < i.toNat → s.Parentless i.toNat c → c = a ∨ c = b ∨ s.Before b c

theorem weightOf_congr {s t : State} {i : Idx} (h : t.nodeAt i = s.nodeAt i) : t.weightOf i = s.weightOf i := by
  rw [State.weightOf, h, State.weightOf]

theorem before_congr {s t : State} {a b : Idx} (ha : t.nodeAt a = s.nodeAt a) (hb : t.nodeAt b = s.nodeAt b) :
    t.Before a b ↔ s.Before a b := by
  rw [State.Before, weightOf_congr ha, weightOf_congr hb, State.Before]

theorem parentless_congr {s t : State} {n : Nat} (h : ∀ j : Idx, j.toNat < n → t.nodeAt j = s.nodeAt j) (c : Idx) :
    t.Parentless n c ↔ s.Parentless n c := by
  refine forall_congr' fun j => forall_congr' fun v => forall_congr' fun hj => ?_
  rw [h j hj]

theorem State.JoinsLeast.congr {s t : State} {i a b : Idx} (h : s.JoinsLeast i a b)
    (hsame : ∀ j : Idx, j.toNat ≤ i.toNat → t.nodeAt j = s.nodeAt j) : t.JoinsLeast i a b := by
  have hlow (j : Idx) (hj : j.toNat < i.toNat) : t.nodeAt j = s.nodeAt j := hsame j hj.le
  have ha := hlow a h.left_lt
  have hb := hlow b h.right_lt
  have hpar := parentless_congr hlow
  refine ⟨?_, h.left_lt, h.right_lt, (before_congr ha hb).mpr h.before, (hpar a).mpr h.left_free,
    (hpar b).mpr h.right_free, fun c hc hpc => ?_⟩
  · rw [weightOf_congr ha, weightOf_congr hb, hsame i le_rfl, h.node]
  · rw [before_congr hb (hlow c hc)]
    exact h.least c hc ((hpar c).mp hpc)

theorem before_irrefl (s : State) (a : Idx) : ¬ s.Before a a := by
  simp [State.Before, tieBefore]

/-! #### Adding a node -/

theorem nodeAt_addNode_same {s : State} (v : Node) (h : s.regs.nnodes.toNat < 513) :
    (s.addNode v).nodeAt s.regs.nnodes = some v := nodeAt_setNode_same v h

theorem nodeAt_addNode_ne {s : State} {i : Idx} (v : Node) (h : i.toNat ≠ s.regs.nnodes.toNat) :
    (s.addNode v).nodeAt i = s.nodeAt i := nodeAt_setNode_ne v fun e => h (congrArg BitVec.toNat e)

theorem addNode_nnodes {s : State} (v : Node) (h : s.regs.nnodes.toNat < 513) :
    (s.addNode v).regs.nnodes.toNat = s.regs.nnodes.toNat + 1 := toNat_succ_of_lt h

/-- From `s` to `t` nodes are added, and all entries but theirs are kept (R110). -/
structure AddsNodes (s t : State) : Prop where
  le : s.regs.nnodes.toNat ≤ t.regs.nnodes.toNat
  kept : ∀ i : Idx, i.toNat < s.regs.nnodes.toNat ∨ t.regs.nnodes.toNat ≤ i.toNat → t.nodeAt i = s.nodeAt i

theorem AddsNodes.refl (s : State) : AddsNodes s s := ⟨le_rfl, fun _ _ => rfl⟩

theorem AddsNodes.trans {s t u : State} (h : AddsNodes s t) (k : AddsNodes t u) : AddsNodes s u := by
  have hle := h.le
  have kle := k.le
  refine ⟨hle.trans kle, fun i hi => ?_⟩
  rw [k.kept i (by omega), h.kept i (by omega)]

theorem addsNodes_addNode {s : State} (v : Node) (h : s.regs.nnodes.toNat < 513) : AddsNodes s (s.addNode v) := by
  have hnext := addNode_nnodes v h
  exact ⟨by omega, fun i hi => nodeAt_addNode_ne v (by omega)⟩

theorem State.JoinsLeast.of_addsNodes {s t : State} {i a b : Idx} (hi : s.JoinsLeast i a b) (h : AddsNodes s t)
    (hlt : i.toNat < s.regs.nnodes.toNat) : t.JoinsLeast i a b :=
  hi.congr fun j hj => h.kept j (.inl (hj.trans_lt hlt))

/-- An entry with a node added is an old one or the new one. -/
theorem nodeAt_addNode_cases {s : State} {v u : Node} {j : Idx} (hroom : s.regs.nnodes.toNat < 513)
    (hj : j.toNat < s.regs.nnodes.toNat + 1) (hu : (s.addNode v).nodeAt j = some u) :
    (j.toNat < s.regs.nnodes.toNat ∧ s.nodeAt j = some u) ∨ (j = s.regs.nnodes ∧ u = v) := by
  rcases Nat.lt_succ_iff_lt_or_eq.mp hj with hlt | heq
  · exact .inl ⟨hlt, (nodeAt_addNode_ne v hlt.ne).symm.trans hu⟩
  · obtain rfl := BitVec.eq_of_toNat_eq heq
    exact .inr ⟨rfl, Option.some.inj (hu.symm.trans (nodeAt_addNode_same v hroom))⟩

/-- With a node added, the parentless are those that are not its children. -/
theorem parentless_addNode {s : State} (v : Node) (hroom : s.regs.nnodes.toNat < 513) (c : Idx) :
    (s.addNode v).Parentless (s.regs.nnodes.toNat + 1) c ↔
      s.Parentless s.regs.nnodes.toNat c ∧ c ∉ v.children := by
  constructor
  · intro h
    refine ⟨fun j u hj hu => h j u (hj.trans (Nat.lt_succ_self _)) ?_,
      h _ v (Nat.lt_succ_self _) (nodeAt_addNode_same v hroom)⟩
    rw [nodeAt_addNode_ne v hj.ne, hu]
  · rintro ⟨hold, hv⟩ j u hj hu
    rcases nodeAt_addNode_cases hroom hj hu with ⟨hlt, hu⟩ | ⟨-, rfl⟩
    · exact hold j u hlt hu
    · exact hv

/-- Children are made before their parents, and `pq` holds the parentless nodes in the order of removal. -/
structure PqHoldsRoots (s : State) : Prop where
  below : ∀ (j : Idx) (v : Node), j.toNat < s.regs.nnodes.toNat → s.nodeAt j = some v →
    ∀ c ∈ v.children, c.toNat < j.toNat
  sorted : s.pq.Pairwise s.Before
  mem : ∀ c, c ∈ s.pq ↔ c.toNat < s.regs.nnodes.toNat ∧ s.Parentless s.regs.nnodes.toNat c

theorem PqHoldsRoots.lt {s : State} (h : PqHoldsRoots s) {c : Idx} (hc : c ∈ s.pq) :
    c.toNat < s.regs.nnodes.toNat := ((h.mem c).mp hc).1

theorem PqHoldsRoots.nodup {s : State} (h : PqHoldsRoots s) : s.pq.Nodup := by
  refine h.sorted.imp ?_
  rintro a _ hab rfl
  exact before_irrefl s a hab

/-- Among the first nodes neither the last of them nor a later one is a child: children have lower indices. -/
theorem PqHoldsRoots.parentless_of_le {s : State} (h : PqHoldsRoots s) {n : Nat} {c : Idx}
    (hn : n ≤ s.regs.nnodes.toNat) (hc : n ≤ c.toNat + 1) : s.Parentless n c := by
  intro j v hj hv hmem
  have hlt := h.below j v (hj.trans_le hn) hv c hmem
  omega

/-- A node whose children come out of `pq` goes in. -/
theorem PqHoldsRoots.addNode {s : State} {v : Node} {rest : List Idx} (h : PqHoldsRoots s)
    (hroom : s.regs.nnodes.toNat < 513) (hsub : rest.Sublist s.pq) (hv : ∀ c ∈ v.children, c ∈ s.pq)
    (hrest : ∀ c, c ∈ rest ↔ c ∈ s.pq ∧ c ∉ v.children) :
    PqHoldsRoots (({ s with pq := rest } : State).addNode v) := by
  have hnext := addNode_nnodes (s := { s with pq := rest }) v hroom
  have hold {i : Idx} (hi : i.toNat < s.regs.nnodes.toNat) :=
    nodeAt_addNode_ne (s := { s with pq := rest }) v hi.ne
  have hlow {c : Idx} (hc : c ∈ rest) := h.lt (hsub.subset hc)
  have hfresh : s.regs.nnodes ∉ rest := fun hmem => Nat.lt_irrefl _ (hlow hmem)
  refine ⟨fun j u hj hu c hc => ?_, ?_, fun c => ?_⟩
  · rw [hnext] at hj
    rcases nodeAt_addNode_cases (s := { s with pq := rest }) hroom hj hu with ⟨hlt, hu⟩ | ⟨rfl, rfl⟩
    · exact h.below j u hlt hu c hc
    · exact h.lt (hv c hc)
  · refine insertPq_sorted _ _ _ hfresh ((h.sorted.sublist hsub).imp_of_mem fun ha hb hab => ?_)
    exact (before_congr (hold (hlow ha)) (hold (hlow hb))).mpr hab
  · rw [hnext, parentless_addNode (s := { s with pq := rest }) v hroom]
    refine (insertPq_perm _ _ _).mem_iff.trans (List.mem_cons.trans ?_)
    rw [hrest, h.mem]
    by_cases hc : c = s.regs.nnodes
    · subst hc
      have hpar := h.parentless_of_le le_rfl (Nat.le_succ _)
      exact ⟨fun _ => ⟨Nat.lt_succ_self _, hpar, fun hm => Nat.lt_irrefl _ (h.lt (hv _ hm))⟩, fun _ => .inl rfl⟩
    · have hne : c.toNat ≠ s.regs.nnodes.toNat := fun e => hc (BitVec.eq_of_toNat_eq e)
      have hlt : c.toNat < s.regs.nnodes.toNat + 1 ↔ c.toNat < s.regs.nnodes.toNat := by omega
      rw [or_iff_right hc, and_assoc, hlt]
      rfl

/-! #### The leaves -/

/-- The leaves of the counted symbols, ascending (R111). -/
def leafNodes (c : Vector Count 257) (ys : List Nat) : List Node :=
  (counted c ys).map fun y => .leaf (BitVec.ofNat 9 y) (countAt c y)

theorem counted_cons_pos {c : Vector Count 257} {y : Nat} {ys : List Nat} (h : 0 < (countAt c y).toNat) :
    counted c (y :: ys) = y :: counted c ys := List.filter_cons_of_pos (decide_eq_true h)

theorem counted_cons_neg {c : Vector Count 257} {y : Nat} {ys : List Nat} (h : ¬ 0 < (countAt c y).toNat) :
    counted c (y :: ys) = counted c ys := List.filter_cons_of_neg (by simpa using h)

/-- The leaf pass adds the counted symbols' leaves in their order (R111). -/
theorem foldl_addLeaf_eq (ys : List Nat) (s : State) :
    ys.foldl State.addLeaf s = (leafNodes s.freq ys).foldl State.addNode s := by
  induction ys generalizing s with
  | nil => rfl
  | cons y ys ih =>
    rw [List.foldl_cons, ih, addLeaf_freq]
    by_cases hy : 0 < (countAt s.freq y).toNat
    · have hadd : s.addLeaf y = s.addNode (.leaf (BitVec.ofNat 9 y) (countAt s.freq y)) := if_pos hy
      rw [hadd, leafNodes, leafNodes, counted_cons_pos hy]
      rfl
    · have hadd : s.addLeaf y = s := if_neg hy
      rw [hadd, leafNodes, leafNodes, counted_cons_neg hy]

theorem addsNodes_addNodes {vs : List Node} {s : State} (hroom : s.regs.nnodes.toNat + vs.length ≤ 513) :
    AddsNodes s (vs.foldl State.addNode s) := by
  induction vs generalizing s with
  | nil => exact .refl s
  | cons v vs ih =>
    rw [List.length_cons] at hroom
    have hnext := addNode_nnodes v (s := s) (by omega)
    exact (addsNodes_addNode v (by omega)).trans (ih (by omega))

theorem addNodes_nnodes {vs : List Node} {s : State} (hroom : s.regs.nnodes.toNat + vs.length ≤ 513) :
    (vs.foldl State.addNode s).regs.nnodes.toNat = s.regs.nnodes.toNat + vs.length := by
  induction vs generalizing s with
  | nil => rfl
  | cons v vs ih =>
    rw [List.length_cons] at hroom ⊢
    have hnext := addNode_nnodes v (s := s) (by omega)
    rw [List.foldl_cons, ih (by omega), hnext]
    omega

/-- Nodes added one after the other take the indices in their order (R110). -/
theorem nodeAt_addNodes {vs : List Node} {s : State} (hroom : s.regs.nnodes.toNat + vs.length ≤ 513)
    {k : Nat} {v : Node} (hv : vs[k]? = some v) {i : Idx} (hi : i.toNat = s.regs.nnodes.toNat + k) :
    (vs.foldl State.addNode s).nodeAt i = some v := by
  induction vs generalizing s k with
  | nil => cases hv
  | cons u vs ih =>
    rw [List.length_cons] at hroom
    have hnext := addNode_nnodes u (s := s) (by omega)
    cases k with
    | zero =>
      obtain rfl := Option.some.inj hv
      obtain rfl := BitVec.eq_of_toNat_eq hi
      rw [List.foldl_cons, (addsNodes_addNodes (by omega)).kept _ (.inl (by omega)), nodeAt_addNode_same _ (by omega)]
    | succ k => exact ih (s := s.addNode u) (by omega) hv (by omega)

theorem pqHoldsRoots_addNodes {vs : List Node} {s : State} (h : PqHoldsRoots s)
    (hroom : s.regs.nnodes.toNat + vs.length ≤ 513) (hvs : ∀ v ∈ vs, v.children = []) :
    PqHoldsRoots (vs.foldl State.addNode s) := by
  induction vs generalizing s with
  | nil => exact h
  | cons v vs ih =>
    rw [List.length_cons] at hroom
    obtain ⟨hv, hvs⟩ := List.forall_mem_cons.mp hvs
    have hnext := addNode_nnodes v (s := s) (by omega)
    refine ih (h.addNode (v := v) (by omega) (.refl _) ?_ fun c => ?_) (by omega) hvs
    · simp [hv]
    · simp [hv]

theorem addNodes_pq_length (vs : List Node) (s : State) :
    (vs.foldl State.addNode s).pq.length = s.pq.length + vs.length := by
  induction vs generalizing s with
  | nil => rfl
  | cons v vs ih =>
    rw [List.foldl_cons, ih, State.addNode_pq, insertPq_length, List.length_cons]
    omega

/-! #### The merges -/

section
variable {s : State} {a b : Idx} {rest : List Idx}

theorem merge_nnodes (a b : Idx) (rest : List Idx) (hroom : s.regs.nnodes.toNat < 513) :
    (s.merge a b rest).regs.nnodes.toNat = s.regs.nnodes.toNat + 1 :=
  addNode_nnodes (s := { s with pq := rest }) _ hroom

theorem addsNodes_merge (a b : Idx) (rest : List Idx) (hroom : s.regs.nnodes.toNat < 513) :
    AddsNodes s (s.merge a b rest) := by
  have h := addsNodes_addNode (s := { s with pq := rest }) (.inner (satAdd (s.weightOf a) (s.weightOf b)) a b) hroom
  exact ⟨h.le, h.kept⟩

/-- A merge takes its two children out of `pq` and puts their parent in (R112). -/
theorem PqHoldsRoots.merge (h : PqHoldsRoots s) (hp : s.pq = a :: b :: rest) (hroom : s.regs.nnodes.toNat < 513) :
    PqHoldsRoots (s.merge a b rest) := by
  have hnodup := h.nodup
  rw [hp] at hnodup
  refine h.addNode hroom ?_ (fun c hc => ?_) fun c => ?_
  · rw [hp]
    exact (List.sublist_cons_self b rest).cons a
  · rw [hp]
    rw [mem_children_inner] at hc
    rw [List.mem_cons, List.mem_cons]
    exact hc.imp_right .inl
  · rw [hp]
    simp only [List.nodup_cons, List.mem_cons, not_or] at hnodup
    obtain ⟨⟨-, ha⟩, hb, -⟩ := hnodup
    simp only [mem_children_inner, List.mem_cons, not_or]
    constructor
    · exact fun hc => ⟨.inr (.inr hc), fun e => ha (e ▸ hc), fun e => hb (e ▸ hc)⟩
    · rintro ⟨hc, hca, hcb⟩
      exact (hc.resolve_left hca).resolve_left hcb

/-- The node a merge makes joins the two least roots, these standing first in `pq` (R112, R113). -/
theorem joinsLeast_merge (h : PqHoldsRoots s) (hp : s.pq = a :: b :: rest) (hroom : s.regs.nnodes.toNat < 513) :
    (s.merge a b rest).JoinsLeast s.regs.nnodes a b := by
  have hsorted := h.sorted
  rw [hp] at hsorted
  obtain ⟨hfirst, hsorted⟩ := List.pairwise_cons.mp hsorted
  obtain ⟨hsecond, -⟩ := List.pairwise_cons.mp hsorted
  have hold (j : Idx) (hj : j.toNat < s.regs.nnodes.toNat) : (s.merge a b rest).nodeAt j = s.nodeAt j :=
    (addsNodes_merge a b rest hroom).kept j (.inl hj)
  have hpar := parentless_congr hold
  obtain ⟨ha, hpa⟩ := (h.mem a).mp (by simp [hp])
  obtain ⟨hb, hpb⟩ := (h.mem b).mp (by simp [hp])
  refine ⟨?_, ha, hb, (before_congr (hold a ha) (hold b hb)).mpr (hfirst b (by simp)), (hpar a).mpr hpa,
    (hpar b).mpr hpb, fun c hc hpc => ?_⟩
  · rw [weightOf_congr (hold a ha), weightOf_congr (hold b hb)]
    exact nodeAt_addNode_same (s := { s with pq := rest }) _ hroom
  · have hmem : c ∈ a :: b :: rest := hp ▸ (h.mem c).mpr ⟨hc, (hpar c).mp hpc⟩
    rw [before_congr (hold b hb) (hold c hc)]
    rcases List.mem_cons.mp hmem with rfl | hmem
    · exact .inl rfl
    · exact .inr ((List.mem_cons.mp hmem).imp_right (hsecond c))

end

/-- What the merges keep, and what the nodes they make are. -/
structure Merged (s t : State) : Prop where
  adds : AddsNodes s t
  roots : PqHoldsRoots t
  merges : ∀ i : Idx, s.regs.nnodes.toNat ≤ i.toNat → i.toNat < t.regs.nnodes.toNat → ∃ a b, t.JoinsLeast i a b

theorem Merged.refl {s : State} (h : PqHoldsRoots s) : Merged s s :=
  ⟨.refl s, h, fun _ hle hlt => absurd hle (Nat.not_le.mpr hlt)⟩

theorem merged_mergeLoop {k : Nat} {s : State} (h : PqHoldsRoots s)
    (hroom : s.regs.nnodes.toNat + s.pq.length ≤ 514) : Merged s (mergeLoop k s) := by
  induction k generalizing s with
  | zero => exact .refl h
  | succ k ih =>
    rw [mergeLoop]
    split
    · rename_i a b rest hp
      rw [hp, List.length_cons, List.length_cons] at hroom
      have hlt : s.regs.nnodes.toNat < 513 := by omega
      have hnext := merge_nnodes a b rest hlt
      obtain ⟨hadds, hroots, hmerges⟩ := ih (h.merge hp hlt) (by rw [hnext, merge_pq_length]; omega)
      refine ⟨(addsNodes_merge a b rest hlt).trans hadds, hroots, fun i hle hi => ?_⟩
      rcases Nat.eq_or_lt_of_le hle with heq | hgt
      · obtain rfl := BitVec.eq_of_toNat_eq heq
        exact ⟨a, b, (joinsLeast_merge h hp hlt).of_addsNodes hadds (by omega)⟩
      · exact hmerges i (by omega) hi
    · exact .refl h

/-! #### The whole of BUILD -/

/-- BUILD's state once the leaves are there (R111). -/
def State.leafStage (s : State) : State := s.startBuild.addLeaves

/-- BUILD's state once the merges are done (R112). -/
def State.mergedStage (s : State) : State := mergeLoop s.leafStage.pq.length s.leafStage

theorem buildTree_eq (s : State) : s.buildTree = s.mergedStage.takeRoot := by
  rw [State.buildTree, State.mergedStage, State.leafStage]

theorem symbols_eq (s : State) : s.symbols = counted s.freq (List.range 257) := rfl

theorem symbols_length_le (s : State) : s.symbols.length ≤ 257 := by
  rw [symbols_eq]
  exact (counted_length_le _ _).trans_eq List.length_range

theorem mem_symbols {s : State} {y : Nat} (h : y ∈ s.symbols) : y < 257 ∧ 0 < (s.freqOf y).toNat := by
  obtain ⟨hy, hc⟩ := List.mem_filter.mp h
  exact ⟨List.mem_range.mp hy, of_decide_eq_true hc⟩

/-- A symbol fits the symbol field (R8, R20). -/
theorem toNat_ofNat_symbol {s : State} {y : Nat} (h : y ∈ s.symbols) : (BitVec.ofNat 9 y).toNat = y :=
  Nat.mod_eq_of_lt ((mem_symbols h).1.trans (by decide))

theorem leafStage_eq (s : State) :
    s.leafStage = (leafNodes s.freq (List.range 257)).foldl State.addNode s.startBuild :=
  foldl_addLeaf_eq _ s.startBuild

theorem leafNodes_length (s : State) : (leafNodes s.freq (List.range 257)).length = s.symbols.length :=
  List.length_map _

/-- The leaves fit the store. -/
theorem leafNodes_room (s : State) :
    s.startBuild.regs.nnodes.toNat + (leafNodes s.freq (List.range 257)).length ≤ 513 := by
  have hle := symbols_length_le s
  rw [leafNodes_length]
  exact (Nat.zero_add _).trans_le (by omega)

theorem leafStage_nnodes (s : State) : s.leafStage.regs.nnodes.toNat = s.symbols.length := by
  rw [leafStage_eq, addNodes_nnodes (leafNodes_room s), leafNodes_length]
  exact Nat.zero_add _

theorem leafStage_pq_length (s : State) : s.leafStage.pq.length = s.symbols.length := by
  rw [leafStage_eq, addNodes_pq_length, leafNodes_length]
  exact Nat.zero_add _

theorem addsNodes_leafStage (s : State) : AddsNodes s.startBuild s.leafStage := by
  rw [leafStage_eq]
  exact addsNodes_addNodes (leafNodes_room s)

theorem leafStage_nodeAt {s : State} {k y : Nat} (hk : s.symbols[k]? = some y) :
    s.leafStage.nodeAt (BitVec.ofNat 10 k) = some (.leaf (BitVec.ofNat 9 y) (s.freqOf y)) := by
  obtain ⟨hlt, -⟩ := List.getElem?_eq_some_iff.mp hk
  have hle := symbols_length_le s
  rw [leafStage_eq]
  refine nodeAt_addNodes (leafNodes_room s) (k := k) ?_ ?_
  · rw [leafNodes, List.getElem?_map, ← symbols_eq, hk]
    rfl
  · exact (Nat.mod_eq_of_lt (by omega)).trans (Nat.zero_add k).symm

theorem pqHoldsRoots_leafStage (s : State) : PqHoldsRoots s.leafStage := by
  have hstart : PqHoldsRoots s.startBuild :=
    ⟨fun _ _ hj => absurd hj (Nat.not_lt_zero _), .nil, fun c => iff_of_false List.not_mem_nil fun h =>
      Nat.not_lt_zero _ h.1⟩
  rw [leafStage_eq]
  refine pqHoldsRoots_addNodes hstart (leafNodes_room s) fun v hv => ?_
  obtain ⟨y, -, rfl⟩ := List.mem_map.mp hv
  rfl

theorem merged_mergedStage (s : State) : Merged s.leafStage s.mergedStage := by
  have hle := symbols_length_le s
  refine merged_mergeLoop (pqHoldsRoots_leafStage s) ?_
  rw [leafStage_nnodes, leafStage_pq_length]
  omega

section
variable {s t : State}

/-- BUILD ends with the entries the merges leave. -/
theorem execBuild_nodeAt (h : exec .build s = .next t) (i : Idx) : t.nodeAt i = s.mergedStage.nodeAt i := by
  rw [State.nodeAt, (execBuild_tree h).2.2, buildTree_eq, takeRoot_node, State.nodeAt]

/-- `L` leaves and `L - 1` merges (R111, R112). -/
theorem builtForest_size (s : State) : (builtForest s.freq).size = 2 * s.symbols.length - 1 := by
  obtain ⟨hlen, hsum, -⟩ := builtForest_spec s.freq
  rw [← symbols_eq] at hlen hsum
  omega

theorem mergedStage_nnodes (s : State) : s.mergedStage.regs.nnodes.toNat = 2 * s.symbols.length - 1 := by
  rw [← builtForest_size, State.mergedStage, State.leafStage]
  exact (holdsForest_built s).nnodes

theorem execBuild_nnodes (h : exec .build s = .next t) : t.regs.nnodes.toNat = 2 * s.symbols.length - 1 := by
  rw [(execBuild_tree h).1, buildTree_nnodes, builtForest_size]

/-- The nodes after the leaves are the merges' (R112). -/
theorem execBuild_joinsLeast (h : exec .build s = .next t) {i : Idx} (hle : s.symbols.length ≤ i.toNat)
    (hlt : i.toNat < 2 * s.symbols.length - 1) : ∃ a b, t.JoinsLeast i a b := by
  obtain ⟨a, b, hi⟩ := (merged_mergedStage s).merges i (by rwa [leafStage_nnodes]) (by rwa [mergedStage_nnodes])
  exact ⟨a, b, hi.congr fun j _ => execBuild_nodeAt h j⟩

/-- The root is the last node made, which no node is a parent of (R115). -/
theorem execBuild_root (h : exec .build s = .next t) (hpos : 0 < s.symbols.length) :
    t.regs.root = BitVec.ofNat 10 (2 * s.symbols.length - 2) := by
  have hle := symbols_length_le s
  have hnodes := mergedStage_nnodes s
  have hroots := (merged_mergedStage s).roots
  have hlen : s.mergedStage.pq.length = 1 := by
    rw [State.mergedStage, mergeLoop_pq_length _ _ le_rfl, leafStage_pq_length]
    exact Nat.min_eq_left hpos
  obtain ⟨r, hr⟩ := List.length_eq_one_iff.mp hlen
  have hlast : (BitVec.ofNat 10 (2 * s.symbols.length - 2)).toNat = 2 * s.symbols.length - 2 :=
    Nat.mod_eq_of_lt (by omega)
  have hmem := (hroots.mem (BitVec.ofNat 10 (2 * s.symbols.length - 2))).mpr
    ⟨by omega, hroots.parentless_of_le le_rfl (by omega)⟩
  rw [hr, List.mem_singleton] at hmem
  rw [(execBuild_tree h).2.1, hmem, buildTree_eq, State.takeRoot, hr]
  rfl

end

/-- Settles O24: the tree is `huffmanTree`'s, whose leaves are the counted symbols; a tree's leaves give its size and bound
its depth. -/
theorem buildMakesOneTreeOfAllCountedSymbols : Obligations.BuildMakesOneTreeOfAllCountedSymbols := by
  intro s hpos
  obtain ⟨t, h⟩ : ∃ t, exec .build s = .next t := ⟨_, rfl⟩
  have hroot := execBuild_root h hpos
  have hnnodes : t.regs.nnodes = BitVec.ofNat 10 (2 * s.symbols.length - 1) := by
    rw [← execBuild_nnodes h, BitVec.ofNat_toNat, BitVec.setWidth_eq]
  obtain ⟨y, hy⟩ := List.exists_mem_of_length_pos hpos
  obtain ⟨hlt, hc⟩ := mem_symbols hy
  have hleaves := huffmanTree_leaves hlt hc
  rw [← symbols_eq] at hleaves
  have hlen : (huffmanTree s.freq).leaves.length = s.symbols.length := hleaves.length_eq.trans (List.length_map _)
  have hsize := size_add_one (huffmanTree s.freq)
  have hdepth := depth_lt_leaves (huffmanTree s.freq)
  refine ⟨t, huffmanTree s.freq, h, ?_, ?_, by omega, by omega, ?_, fun i hi => ?_⟩
  · rw [← hroot, ← hnnodes]
    exact execBuild_frame h
  · rw [(execBuild_tree h).2.1]
    exact treeAt_of_same_node (buildTree_treeAt s hlt hc) (execBuild_tree h).2.2
  · have hsyms : (s.symbols.map (BitVec.ofNat 9)).map BitVec.toNat = s.symbols := by
      rw [List.map_map]
      exact (List.map_congr_left fun z hz => toNat_ofNat_symbol hz).trans (List.map_id _)
    exact hsyms ▸ hleaves.map BitVec.toNat
  · rw [execBuild_nodeAt h]
    refine ((addsNodes_leafStage s).trans (merged_mergedStage s).adds).kept i (.inr ?_)
    rwa [mergedStage_nnodes]

/-- Settles O25: the leaf pass puts them there, and the merges keep them. -/
theorem buildPutsLeavesInSymbolOrder : Obligations.BuildPutsLeavesInSymbolOrder := by
  intro s t h k y hk
  obtain ⟨hlt, -⟩ := List.getElem?_eq_some_iff.mp hk
  have hle := symbols_length_le s
  have hidx : (BitVec.ofNat 10 k).toNat = k := Nat.mod_eq_of_lt (by omega)
  rw [execBuild_nodeAt h, (merged_mergedStage s).adds.kept _ (.inl (by rw [hidx, leafStage_nnodes]; exact hlt)),
    leafStage_nodeAt hk]

/-- Settles O26: the merges' invariant, `State.JoinsLeast`, with the children of an entry written out. -/
theorem buildMergesTheTwoLightest : Obligations.BuildMergesTheTwoLightest := by
  intro s t h i hle hlt
  obtain ⟨a, b, hi⟩ := execBuild_joinsLeast h hle hlt
  refine ⟨_, a, b, hi.node, rfl, hi.left_lt, hi.right_lt, hi.before, fun j w l r hj hv => ?_,
    fun c hc hpc => hi.least c hc fun j v hj hv => ?_⟩
  · have ha := hi.left_free j _ hj hv
    have hb := hi.right_free j _ hj hv
    simp only [mem_children_inner, not_or] at ha hb
    exact ⟨Ne.symm ha.1, Ne.symm hb.1, Ne.symm ha.2, Ne.symm hb.2⟩
  · cases v with
    | leaf _ _ => exact List.not_mem_nil
    | inner w l r =>
      obtain ⟨hl, hr⟩ := hpc j w l r hj hv
      rw [mem_children_inner]
      exact not_or.mpr ⟨hl.symm, hr.symm⟩

/-- The node of a counted symbol, from its index (R111). -/
theorem execBuild_leafAt {s t : State} (h : exec .build s = .next t) {i : Idx} (hi : i.toNat < s.symbols.length) :
    ∃ y ∈ s.symbols, t.nodeAt i = some (.leaf (BitVec.ofNat 9 y) (s.freqOf y)) := by
  have hn := buildPutsLeavesInSymbolOrder s t h i.toNat _ (List.getElem?_eq_getElem hi)
  rw [BitVec.ofNat_toNat, BitVec.setWidth_eq] at hn
  exact ⟨_, List.getElem_mem hi, hn⟩

theorem weightOf_of_nodeAt {s : State} {i : Idx} {v : Node} (h : s.nodeAt i = some v) : s.weightOf i = v.weight := by
  rw [State.weightOf, h]
  rfl

theorem countSum_leaf (s : State) (y : Sym) : s.countSum (.leaf y) = (s.freqOf y.toNat).toNat := Nat.add_zero _

theorem countSum_node (s : State) (l r : CodeTree) : s.countSum (.node l r) = s.countSum l + s.countSum r := by
  simp only [State.countSum, CodeTree.leaves, List.map_append, List.sum_append]

/-- Settles O27, by induction on the levels: a leaf has its count (O25), an internal node its children's saturated sum
(O26), and to saturate a child's weight first changes no saturated sum. -/
theorem buildWeightsAreSaturatedLeafSums : Obligations.BuildWeightsAreSaturatedLeafSums := by
  intro s t h i tree hi
  rw [execBuild_nnodes h] at hi
  generalize Config.codeMax + 1 = k
  induction k generalizing i tree with
  | zero => exact nofun
  | succ k ih =>
    intro ht
    rcases Nat.lt_or_ge i.toNat s.symbols.length with hleaf | hinner
    · obtain ⟨y, hy, hn⟩ := execBuild_leafAt h hleaf
      rcases treeAt_succ_cases ht with ⟨z, w, hz, rfl⟩ | ⟨w, l, r, tl, tr, hv, -⟩
      · cases hn.symm.trans hz
        have hlt := (s.freqOf y).isLt
        rw [weightOf_of_nodeAt hn, countSum_leaf, toNat_ofNat_symbol hy, Node.weight]
        omega
      · cases hn.symm.trans hv
    · obtain ⟨a, b, hj⟩ := execBuild_joinsLeast h hinner hi
      rcases treeAt_succ_cases ht with ⟨z, w, hz, -⟩ | ⟨w, l, r, tl, tr, hv, hl, hr, rfl⟩
      · cases hj.node.symm.trans hz
      · cases hj.node.symm.trans hv
        rw [weightOf_of_nodeAt hj.node, Node.weight, satAdd_toNat, ih a tl (hj.left_lt.trans hi) hl,
          ih b tr (hj.right_lt.trans hi) hr, countSum_node]
        omega

end Sys2Proof.Machine

namespace Sys2Proof.Machine

/-! ### The code table as a code (R130, R132) -/

/-! #### GENCODES ends only on a tree of symbols

It has no entry for a number above 256, so that it answered says that every leaf is a symbol. -/

theorem le_of_setCode {s u : State} {y : Sym} {p : Bits} (h : s.setCode y p = .next u) : y.toNat ≤ 256 := by
  by_contra hlt
  cases (if_neg (fun hy => hlt (Nat.le_of_lt_succ hy))).symm.trans h

theorem leaves_le_of_gen {k : Nat} {i : Idx} {t : CodeTree} {p : Bits} {s u : State} (ht : s.treeAt k i = some t)
    (h : gen k i p s = .next u) : ∀ y ∈ t.leaves, y.toNat ≤ 256 := by
  induction k generalizing i t p s u with
  | zero => cases ht
  | succ k ih =>
    rcases treeAt_succ_cases ht with ⟨y, w, hn, rfl⟩ | ⟨w, l, r, tl, tr, hn, hl, hr, rfl⟩
    · simp only [gen, hn] at h
      exact fun z hz => List.mem_singleton.mp hz ▸ le_of_setCode h
    · simp only [gen, hn] at h
      obtain ⟨v, hleft, hright⟩ := andThen_eq_next h
      have hr' : v.treeAt k r = some tr := treeAt_of_same_node hr (by rw [gen_frame _ _ _ _ _ hleft])
      exact fun y hy => (List.mem_append.mp hy).elim (ih hl hleft y) (ih hr' hright y)

theorem leaves_le_of_fillCodes {s u : State} {t : CodeTree}
    (ht : s.treeAt (Config.codeMax + 1) s.regs.root = some t) (h : s.fillCodes = .next u) :
    ∀ y ∈ t.leaves, y.toNat ≤ 256 := by
  rw [State.fillCodes] at h
  rcases treeAt_succ_cases ht with ⟨y, w, hn, rfl⟩ | ⟨w, l, r, tl, tr, hn, -⟩ <;> rw [hn] at h
  · exact fun z hz => List.mem_singleton.mp hz ▸ le_of_setCode h
  · exact leaves_le_of_gen ht h

theorem leaves_le_of_execGencodes {s u : State} {t : CodeTree}
    (ht : s.treeAt (Config.codeMax + 1) s.regs.root = some t) (h : execGencodes s = .next u) :
    ∀ y ∈ t.leaves, y.toNat ≤ 256 := by
  obtain ⟨v, hv, -⟩ := andThen_eq_next h
  exact leaves_le_of_fillCodes (s := s.startCodes) (treeAt_of_same_node ht rfl) hv

/-! #### No code begins with another (R130) -/

/-- A path starts with the edge to the side its leaf is on (R125). -/
theorem mem_paths_node {l r : CodeTree} {y : Sym} {p : Bits} (h : (y, p) ∈ (CodeTree.node l r).paths) :
    ∃ x q, p = x :: q ∧ (y, q) ∈ ((CodeTree.node l r).move x).paths := by
  rw [CodeTree.paths, List.mem_append, List.mem_map, List.mem_map] at h
  rcases h with ⟨⟨_, q⟩, hq, e⟩ | ⟨⟨_, q⟩, hq, e⟩ <;> cases e
  · exact ⟨false, q, rfl, hq⟩
  · exact ⟨true, q, rfl, hq⟩

/-- A path that another begins with ends at the same leaf: where the shorter one ends there are no further edges. -/
theorem eq_of_path_prefix {t : CodeTree} {a b : Sym} {p q : Bits} (hp : (a, p) ∈ t.paths) (hq : (b, q) ∈ t.paths)
    (h : p <+: q) : a = b := by
  induction t generalizing p q with
  | leaf _ =>
    cases List.mem_singleton.mp hp
    cases List.mem_singleton.mp hq
    rfl
  | node l r ihl ihr =>
    obtain ⟨x, p, rfl, hp'⟩ := mem_paths_node hp
    obtain ⟨x', q, rfl, hq'⟩ := mem_paths_node hq
    obtain ⟨rfl, hrest⟩ := List.cons_prefix_cons.mp h
    cases x with
    | false => exact ihl hp' hq' hrest
    | true => exact ihr hp' hq' hrest

theorem eq_of_code_prefix {t : CodeTree} {a b : Sym} {p q : Bits} (hp : (a, p) ∈ t.codes) (hq : (b, q) ∈ t.codes)
    (h : p <+: q) : a = b := by
  cases t with
  | leaf _ =>
    cases List.mem_singleton.mp hp
    cases List.mem_singleton.mp hq
    rfl
  | node l r => exact eq_of_path_prefix hp hq h

/-- The valid entries hold the codes of the tree and no others (R125). -/
theorem toBits_mem_codes_of_valid {s t : State} {tree : CodeTree}
    (ht : s.treeAt (Config.codeMax + 1) s.regs.root = some tree) (hnodup : tree.leaves.Nodup)
    (h : exec .gencodes s = .next t) {y : Sym} {e : CodeEntry} (he : t.codeAt y = some e) (hvalid : e.valid = true) :
    (y, e.toBits) ∈ tree.codes := by
  obtain ⟨u, hu, -, hcodes, hrest⟩ :=
    gencodesStoresEveryPathAsItsCode s tree ht hnodup (leaves_le_of_execGencodes ht h)
  cases h.symm.trans hu
  by_cases hy : y ∈ tree.leaves
  · have hmem := codeOf_mem_codes hy
    obtain ⟨-, -, e', he', -, -, -, hbits⟩ := hcodes y _ hmem
    cases he.symm.trans he'
    rwa [hbits]
  · have hlt := (Vector.getElem?_eq_some_iff.mp he).1
    cases he.symm.trans (hrest y _ hy (Vector.getElem?_eq_getElem hlt))
    cases hvalid

/-- Settles O29: the codes in the table are the tree's (`toBits_mem_codes_of_valid`), and one begins with another
only if both are the same leaf's (`eq_of_code_prefix`). -/
theorem codeTableIsPrefixFree : Obligations.CodeTableIsPrefixFree := by
  intro s t tree ht hnodup h a b ea eb hne ha hb hva hvb hprefix
  exact hne (eq_of_code_prefix (toBits_mem_codes_of_valid ht hnodup h ha hva)
    (toBits_mem_codes_of_valid ht hnodup h hb hvb) hprefix)

/-! #### Kraft's equality (R132) -/

/-- Kraft's sum of a list of codes, times `2 ^ d`. -/
def kraftSum (d : Nat) (l : List (Sym × Bits)) : Nat := (l.map fun x => 2 ^ (d - x.2.length)).sum

/-- An edge more on each of the paths is a level more for them to stay within. -/
theorem kraftSum_map_cons (d : Nat) (b : Bool) (l : List (Sym × Bits)) :
    kraftSum (d + 1) (l.map fun x => (x.1, b :: x.2)) = kraftSum d l := by
  simp only [kraftSum, List.map_map, Function.comp_def, List.length_cons, Nat.add_sub_add_right]

theorem kraftSum_paths {t : CodeTree} {d : Nat} (h : t.depth ≤ d) : kraftSum d t.paths = 2 ^ d := by
  induction t generalizing d with
  | leaf _ => exact Nat.add_zero _
  | node l r ihl ihr =>
    obtain _ | d := d
    · cases h
    have hd := Nat.le_of_succ_le_succ h
    calc kraftSum (d + 1) (CodeTree.node l r).paths = kraftSum d l.paths + kraftSum d r.paths := by
          rw [← kraftSum_map_cons d false, ← kraftSum_map_cons d true, CodeTree.paths, kraftSum, List.map_append,
            List.sum_append]
          rfl
      _ = 2 ^ (d + 1) := by
          rw [ihl ((le_max_left _ _).trans hd), ihr ((le_max_right _ _).trans hd), Nat.pow_succ, Nat.mul_two]

/-- The one-leaf tree's code has one bit where its path has none (R127). -/
theorem kraftSum_codes {t : CodeTree} (h : t.depth ≤ Config.codeMax) :
    kraftSum 256 t.codes = if t.leaves.length = 1 then 2 ^ 255 else 2 ^ 256 := by
  cases t with
  | leaf y =>
    rw [if_pos (show (CodeTree.leaf y).leaves.length = 1 from rfl)]
    exact (kraftSum_map_cons 255 false (CodeTree.leaf y).paths).trans (kraftSum_paths (Nat.zero_le 255))
  | node l r =>
    have hlen := depth_lt_leaves (.node l r)
    rw [CodeTree.depth] at hlen
    rw [if_neg (by omega)]
    exact kraftSum_paths h

/-- The valid entries of a code table, in symbol order. -/
def validEntries (table : Vector CodeEntry 257) : List CodeEntry := table.toList.filter fun e => e.valid

theorem validEntries_startCodes (s : State) : validEntries s.startCodes.code = [] := by
  refine List.filter_eq_nil_iff.mpr fun e he => ?_
  obtain ⟨i, hi, rfl⟩ := Vector.mem_iff_getElem.mp (Vector.mem_toList_iff.mp he)
  simp [State.startCodes]

/-- A valid entry put in the place of one that is not is one more valid entry. -/
theorem validEntries_set_perm {table : Vector CodeEntry 257} {n : Nat} {e e' : CodeEntry} (hold : table[n]? = some e)
    (he : e.valid = false) (he' : e'.valid = true) :
    (validEntries (table.setIfInBounds n e')).Perm (e' :: validEntries table) := by
  obtain ⟨hlt, rfl⟩ := Vector.getElem?_eq_some_iff.mp hold
  have hlen : n < table.toList.length := by rwa [Vector.length_toList]
  have hnew := (List.set_perm_cons_eraseIdx hlen e').filter fun e => e.valid
  have hkeep := (List.getElem_cons_eraseIdx_perm hlen).filter fun e => e.valid
  rw [List.filter_cons_of_pos he'] at hnew
  rw [List.filter_cons_of_neg (by simp [he])] at hkeep
  rw [validEntries, Vector.toList_setIfInBounds]
  exact hnew.trans (hkeep.cons e')

/-- Codes of distinct symbols written to a table that holds none of them are the valid entries it gains (R125). -/
theorem validEntries_fillTable_perm {table : Vector CodeEntry 257} {l : List (Sym × Bits)}
    (hnodup : (l.map Prod.fst).Nodup) (hl : ∀ y ∈ l.map Prod.fst, ∃ e, table[y.toNat]? = some e ∧ e.valid = false) :
    (validEntries (fillTable table l)).Perm (l.map (fun x => CodeEntry.ofBits x.2) ++ validEntries table) := by
  induction l generalizing table with
  | nil => exact List.Perm.refl _
  | cons x l ih =>
    obtain ⟨hx, hnodup⟩ := List.nodup_cons.mp hnodup
    obtain ⟨e, hold, he⟩ := hl x.1 List.mem_cons_self
    have hset := validEntries_set_perm (e' := CodeEntry.ofBits x.2) hold he rfl
    refine (ih hnodup fun y hy => ?_).trans ((hset.append_left _).trans List.perm_middle)
    have hne : x.1.toNat ≠ y.toNat := fun h => hx (BitVec.eq_of_toNat_eq h ▸ hy)
    rw [Vector.getElem?_setIfInBounds_ne hne]
    exact hl y (List.mem_cons_of_mem _ hy)

/-- The valid entries of the table GENCODES makes are those of the tree's codes (R125, R129). -/
theorem validEntries_execGencodes_perm {s t : State} {tree : CodeTree}
    (ht : s.treeAt (Config.codeMax + 1) s.regs.root = some tree) (hnodup : tree.leaves.Nodup)
    (h : execGencodes s = .next t) : (validEntries t.code).Perm (tree.codes.map fun x => CodeEntry.ofBits x.2) := by
  have hy := leaves_le_of_execGencodes ht h
  cases (execGencodes_eq ht hy).symm.trans h
  have hperm := validEntries_fillTable_perm (table := s.startCodes.code) (l := tree.codes) (by rwa [codes_map_fst])
    fun y hleaf => by
      rw [codes_map_fst] at hleaf
      exact ⟨_, startCodes_codeAt (Vector.getElem?_eq_getElem (Nat.lt_succ_of_le (hy y hleaf))), rfl⟩
  rwa [validEntries_startCodes, List.append_nil] at hperm

/-- Settles O30: the valid entries are those of the tree's codes, in some order (`validEntries_execGencodes_perm`), and
Kraft's sum of the codes is an induction on the tree (`kraftSum_paths`). -/
theorem codeLengthsMeetKraftEquality : Obligations.CodeLengthsMeetKraftEquality := by
  intro s t tree ht hnodup h
  have hdepth := Nat.le_of_lt_succ (depth_lt_of_treeAt ht)
  have hsum := ((validEntries_execGencodes_perm ht hnodup h).map fun e => 2 ^ (256 - e.len.toNat)).sum_eq
  have hlen : (tree.codes.map fun x => 2 ^ (256 - (CodeEntry.ofBits x.2).len.toNat)).sum = kraftSum 256 tree.codes := by
    refine congrArg List.sum (List.map_congr_left fun x hx => ?_)
    rw [ofBits_len (code_length hdepth hx).2]
  rw [List.map_map] at hsum
  exact hsum.trans (hlen.trans (kraftSum_codes hdepth))

end Sys2Proof.Machine

namespace Sys2Proof.Machine

/-! ### The serialization's length and unique reading (R137, R138, R145) -/

/-- A leaf has 10 bits and an inner node one, so the two subtrees' missing bits leave one missing above them. -/
theorem ser_length_add_one (t : CodeTree) : t.ser.length + 1 = 11 * t.leaves.length := by
  induction t with
  | leaf y => rw [CodeTree.ser, List.length_cons, bits_length]; rfl
  | node l r ihl ihr =>
    rw [CodeTree.ser, CodeTree.leaves, List.length_cons, List.length_append, List.length_append]
    omega

/-- Settles O32 by `ser_length_add_one`, an induction on the tree. -/
theorem headerLengthIsElevenPerLeafLessOne : Obligations.HeaderLengthIsElevenPerLeafLessOne :=
  ser_length_add_one

/-- Settles O33: `des`, with levels enough for both trees, reads each from the bits it begins (`des_ser`), and the bits
are the same. -/
theorem serializationIsSelfDelimiting : Obligations.SerializationIsSelfDelimiting := by
  intro t t' u u' h
  have ht := des_ser u (Nat.lt_succ_of_le (le_max_left t.depth t'.depth))
  have ht' := des_ser u' (Nat.lt_succ_of_le (le_max_right t.depth t'.depth))
  rw [h] at ht
  cases ht.symm.trans ht'
  exact ⟨rfl, rfl⟩

/-- Settles O34 by `desCapped_eq_some_iff`: the levels suffice since a tree has fewer levels than bits
(`depth_lt_ser_length`). -/
theorem deserializeInvertsSerialize : Obligations.DeserializeInvertsSerialize :=
  fun _ _ hsize => desCapped_eq_some_iff.mpr ⟨rfl, hsize⟩

end Sys2Proof.Machine

namespace Sys2Proof.Machine

/-! ### The other phases of COMPRESS, CLOSE (R151 to R155, R205) -/

/-- Settles O36: each of the two phases is its one transaction and the move to the next phase. -/
theorem markerPhaseWritesAndRewindPhaseRewinds : Obligations.MarkerPhaseWritesAndRewindPhaseRewinds :=
  fun _ => ⟨rfl, rfl⟩

/-- Settles O39: an entry found at 256 is the one C_TERM writes; CLOSE reads no flag but `err`, which it keeps. -/
theorem terminatorIsWrittenAndCloseEndsTheCommand : Obligations.TerminatorIsWrittenAndCloseEndsTheCommand := by
  intro s e he
  have hentry : s.code[256] = e := (Vector.getElem?_eq_some_iff.mp he).2
  refine ⟨?_, rfl⟩
  show execCTerm s = _
  rw [execCTerm, hentry]
  rfl

/-- Written again with each element, a register ends with what the last one wrote. -/
theorem foldl_const_eq_getLast?_elim {α β : Type} (f : α → β) (l : List α) (v : β) :
    l.foldl (fun _ a => f a) v = l.getLast?.elim v f := by
  rcases List.eq_nil_or_concat' l with rfl | ⟨l, a, rfl⟩
  · rfl
  · rw [List.foldl_concat, List.getLast?_concat, Option.elim_some]

/-- ENCODE is the encoding loop over the bytes left (R153). -/
theorem execEncode_eq {s : State} {x : List Byte} (hx : s.inp.data.asBytes s.inp.pos = some x) :
    execEncode s = andThen (encodeLoop (x.drop s.inp.pos) (s.viewBytes x)) fun t => .next (t.setPhase .cTerm) :=
  withBytes_eq hx _

/-- Settles O37 by `encodeLoop_eq`: every byte left has a code, and the register `sym` holds the last one looked up
(`foldl_const_eq_getLast?_elim`). -/
theorem encodeWritesTheCodeOfEveryByte : Obligations.EncodeWritesTheCodeOfEveryByte := by
  intro s x hx hpos hvalid
  have hcode (b : Byte) : (s.viewBytes x).codeOfByte b = s.codeOfByte b := rfl
  have hloop := encodeLoop_eq (x.drop s.inp.pos) (s.viewBytes x)
  have hend : s.inp.pos + (x.drop s.inp.pos).length = x.length := by
    rw [List.length_drop, Nat.add_sub_cancel' hpos]
  simp only [hcode] at hloop
  rw [if_pos hvalid, foldl_const_eq_getLast?_elim] at hloop
  show execEncode s = _
  rw [execEncode_eq hx, hloop, andThen_next, ← hend]
  cases (x.drop s.inp.pos).getLast? <;> rfl

/-! ### COMPRESS of the empty input (R160) -/

/-- An inner node has two leaves or more. -/
theorem eq_leaf_of_leaves {t : CodeTree} {y : Sym} (h : t.leaves = [y]) : t = .leaf y := by
  cases t with
  | leaf z =>
    cases h
    rfl
  | node l r =>
    have hdepth := depth_lt_leaves (.node l r)
    rw [h, CodeTree.depth] at hdepth
    exact absurd (Nat.lt_of_succ_lt_succ hdepth) (Nat.not_lt_zero _)

/-- A symbol below 256 is a byte. -/
theorem exists_byte_of_lt {y : Sym} (h : y.toNat < 256) : ∃ b : Byte, b.setWidth 9 = y :=
  ⟨y.setWidth 8, by bv_omega⟩

/-- Of the empty input only the end-of-stream symbol is counted. -/
theorem treeOf_nil : treeOf [] = .leaf 256 := by
  obtain ⟨hnodup, hle, hend⟩ := treeOf_proper []
  have hmem (y : Sym) : y ∈ (treeOf []).leaves ↔ y ∈ [(256 : Sym)] := by
    refine ⟨fun hy => List.mem_singleton.mpr ?_, fun hy => List.mem_singleton.mp hy ▸ hend⟩
    rcases Nat.lt_or_eq_of_le (hle y hy) with hlt | heq
    · obtain ⟨b, rfl⟩ := exists_byte_of_lt hlt
      cases byte_mem_treeOf_iff.mp hy
    · exact BitVec.eq_of_toNat_eq heq
  exact eq_leaf_of_leaves (List.perm_singleton.mp ((List.perm_ext_iff_of_nodup hnodup (List.nodup_singleton _)).mpr hmem))

theorem compressBits_nil (m : BitVec 32) : compressBits m [] =
    bits 32 m.toNat ++ [true, true, false, false, false, false, false, false, false, false] ++ [false] := by
  have hser : (CodeTree.leaf 256).ser = [true, true, false, false, false, false, false, false, false, false] := by decide
  have hend : (CodeTree.leaf 256).codeOf 256 = [false] := by decide
  rw [compressBits, treeOf_nil, hser, hend, List.flatMap_nil, List.append_nil]

theorem compressTrace_nil (m : BitVec 32) : compressTrace m [] =
    [.readByte none, .writeBits 32 m.toNat, .writeBits 1 1, .writeBits 9 256, .reset, .readByte none, .writeBits 1 0,
      .close] := by
  rw [compressTrace, headerTrace, treeOf_nil]
  rfl

/-- Settles O55: the output and the trace of `run_compress` with the tree of the empty input, one leaf (`treeOf_nil`). -/
theorem compressOfTheEmptyInput : Obligations.CompressOfTheEmptyInput := by
  intro s hs
  obtain ⟨t, hrun, htrace, hout, -⟩ := run_compress [] hs
  rw [compressBits_nil] at hout
  rw [compressTrace_nil] at htrace
  refine ⟨t, hrun, hout, ?_, htrace⟩
  rw [hout, List.length_append, List.length_append, bits_length]
  rfl

end Sys2Proof.Machine

namespace Sys2Proof.Machine

/-! ### DECOMPRESS computes its function (R177, R178) -/

/-- Settles O56: the run of `run_decompress` on a bit medium; its reads took the bits up to the read position
(`Decoding.taken`). -/
theorem decompressComputesItsFunction : Obligations.DecompressComputesItsFunction := by
  intro s b hs
  obtain ⟨k, t, hrun, ht, hidle, hflags, hclosed⟩ := run_decompress hs (asBits_bits b 0)
  exact ⟨k, t, hrun, hidle, hflags, ht.out, hclosed, ht.trace, ht.pos_le, ht.taken⟩

/-! ### D_MARK (R166, R201) -/

/-- D_MARK reads the marker out of the bits left (R166). -/
theorem execDMark_eq {s : State} {b : Bits} (hb : s.inp.data.asBits s.inp.pos = some b) :
    execDMark s = .next ((s.viewBits b).readMarker (b.drop s.inp.pos)) := withBits_eq hb _

theorem checkMarker_withMarker (s : State) (m : BitVec 32) : (s.withMarker m).checkMarker =
    if m = s.marker then (s.withMarker m).setPhase .dHdr else (s.withMarker m).raise .format := rfl

/-- Any 32 bits are those of a marker (R13, R166). -/
theorem exists_take_eq_bits {u : Bits} (h : 32 ≤ u.length) : ∃ m : BitVec 32, u.take 32 = bits 32 m.toNat :=
  ⟨_, (bits_ofNat_val (List.length_take_of_le h)).symm⟩

/-- Settles O40: 32 bits are some marker's, which is compared (`readMarker_marker`); fewer are all taken and refused
(`readMarker_of_short`). -/
theorem dMarkAcceptsExactlyTheMarker : Obligations.DMarkAcceptsExactlyTheMarker := by
  intro s b hb hpos
  have hlen : (b.drop s.inp.pos).length = b.length - s.inp.pos := List.length_drop
  have hexec : exec .dMark s = _ := execDMark_eq hb
  by_cases hlong : s.inp.pos + 32 ≤ b.length
  · obtain ⟨m, hm⟩ := exists_take_eq_bits (u := b.drop s.inp.pos) (by omega)
    have hval : m.toNat = val (bits 32 m.toNat) := ((val_bits 32 _).trans (Nat.mod_eq_of_lt m.isLt)).symm
    rw [← List.take_append_drop 32 (b.drop s.inp.pos), hm, readMarker_marker, checkMarker_withMarker] at hexec
    rw [Nat.min_eq_left hlong, hm]
    by_cases heq : m = (s.viewBits b).marker
    · rw [if_pos heq] at hexec
      exact ⟨_, hexec, rfl, fun _ => ⟨hval, rfl, rfl, fun _ => ⟨rfl, rfl⟩, absurd heq⟩,
        fun h => absurd hlong h.not_ge⟩
    · rw [if_neg heq] at hexec
      exact ⟨_, hexec, rfl, fun _ => ⟨hval, rfl, rfl, (absurd · heq), fun _ => ⟨rfl, rfl⟩⟩,
        fun h => absurd hlong h.not_ge⟩
  · have hshort : (b.drop s.inp.pos).length < Config.markerW := by rw [hlen, Config.markerW]; omega
    have hend : min (s.inp.pos + 32) b.length = s.inp.pos + min 32 (b.drop s.inp.pos).length := by omega
    rw [readMarker_of_short hshort, readField_eq, List.take_of_length_le hshort.le, if_neg hshort.not_ge,
      if_neg hshort.not_ge] at hexec
    rw [hend]
    exact ⟨_, hexec, rfl, fun h => absurd h hlong, fun _ => ⟨rfl, rfl, rfl⟩⟩

/-! ### The walk's transition table (R168 to R172, R174) -/

section

variable {s : State} {b : Bits} {x : Bool} {n : Idx}

theorem walkStep_of_nil (hb : s.inp.data.asBits s.inp.pos = some b) (h : b.drop s.inp.pos = []) :
    s.walkStep = .next ((s.viewBits b).sawBitEnd.raise .truncatedBody) := by
  rcases walkStep_cases s b hb with ⟨-, e⟩ | ⟨x, rest, hx, -⟩
  · exact e
  · cases h.symm.trans hx

theorem walkStep_of_cons {rest : Bits} (hb : s.inp.data.asBits s.inp.pos = some b) (h : b.drop s.inp.pos = x :: rest) :
    s.walkStep = ((s.viewBits b).tookBit x).moveBy x := by
  rcases walkStep_cases s b hb with ⟨hnil, -⟩ | ⟨x', rest', hx, e⟩
  · cases h.symm.trans hnil
  · cases h.symm.trans hx
    exact e

/-- The node a bit moves to from `cur`: a child of an internal node, a leaf itself (R168, R170). -/
theorem moveBy_of_nodeAt
    (h : (∃ w l r, s.nodeAt s.regs.cur = some (.inner w l r) ∧ n = if x then r else l) ∨
      (∃ y w, s.nodeAt s.regs.cur = some (.leaf y w) ∧ n = s.regs.cur)) : s.moveBy x = s.landOn n := by
  rcases h with ⟨w, l, r, hcur, rfl⟩ | ⟨y, w, hcur, rfl⟩ <;> simp only [State.moveBy, hcur]

theorem landOn_of_inner {w : Count} {l r : Idx} (h : s.nodeAt n = some (.inner w l r)) :
    s.landOn n = .next ((s.setCur n).setPhase .dInt) := by simp only [State.landOn, h]

theorem landOn_of_leaf {y : Sym} {w : Count} (h : s.nodeAt n = some (.leaf y w)) :
    s.landOn n = if y = 256 then .next ((s.setCur n).setPhase .close)
      else .next (((s.writeBits 8 y.toNat).setCur s.regs.root).setPhase .dRoot) := by simp only [State.landOn, h]

end

/-- WALK and WALK_INT are one iteration from their node (R174). -/
theorem exec_walk_eq {s : State} {i : Instr} {cur : Idx}
    (h : (i = .walk ∧ cur = s.regs.root) ∨ (i = .walkInt ∧ cur = s.regs.cur)) :
    exec i s = (s.setCur cur).walkStep := by
  rcases h with ⟨rfl, rfl⟩ | ⟨rfl, rfl⟩ <;> rfl

/-- Settles O41: an iteration from `cur` moves (`moveBy_of_nodeAt`) and lands (`landOn_of_inner`, `landOn_of_leaf`), or
sees the end of IN. -/
theorem walkFollowsItsTransitionTable : Obligations.WalkFollowsItsTransitionTable := by
  intro s b i cur hi hb
  rw [exec_walk_eq hi]
  refine ⟨fun hend => walkStep_of_nil (s := s.setCur cur) hb hend, fun x n hx hmove => ?_⟩
  have hstep : (s.setCur cur).walkStep = (((s.setCur cur).viewBits b).tookBit x).landOn n :=
    (walkStep_of_cons (s := s.setCur cur) hb (drop_eq_cons_of_getElem? hx)).trans (moveBy_of_nodeAt hmove)
  have hnode {v : Node} (hn : s.nodeAt n = some v) : (((s.setCur cur).viewBits b).tookBit x).nodeAt n = some v := hn
  rw [hstep]
  refine ⟨fun w l r hn => landOn_of_inner (hnode hn), fun y w hn hy => ?_, fun w hn => ?_⟩
  · rw [landOn_of_leaf (hnode hn), if_neg hy, show y.toNat % 256 = y.toNat % 2 ^ 8 from rfl, bits_mod,
      List.append_cons]
    rfl
  · exact (landOn_of_leaf (hnode hn)).trans (if_pos rfl)

end Sys2Proof.Machine

namespace Sys2Proof.Machine

/-! ### The round trip, whatever follows (R176, R185) -/

/-- Settles O57: IN begins with `Compress` of the input (`run_compress`), which `Decompress` inverts whatever follows
(`decompressBits_compressBits`). -/
theorem decompressInvertsCompress : Obligations.DecompressInvertsCompress := by
  intro s x u hs
  obtain ⟨t, hrun, -, hout, hflags, -⟩ := run_compress x hs
  obtain ⟨hready, hmarker⟩ := ready_of_run_compress hs hrun (by rw [hflags])
  obtain ⟨k, r, hrun', hr, hidle, hfinal, hclosed⟩ := run_decompress hready (asBits_bits (t.out.bits ++ u) 0)
  rw [hout, ← hmarker, decompressBits_compressBits] at hr hfinal
  exact ⟨t, hrun, k, r, hrun', hidle, hfinal, hr.out, hclosed⟩

/-! ### Streams that do not begin with the marker (R191, R201) -/

/-- DECOMPRESS offered with a new IN is accepted, and D_MARK is next (R36, R165). -/
theorem decoding_of_offer {s : State} {d : InData} {b : Bits} (hs : s.Ready) (hb : d.asBits 0 = some b) :
    ∃ t, step ((s.provide d).offer opDecompress) = .next t ∧ Decoding s b [] [] t ∧ t.inp.pos = 0 ∧ t.phase = .dMark ∧
      t.flags = flagsAccepted := by
  have hready : ((s.provide d).offer opDecompress).Ready := hs
  refine ⟨_, step_of_decode (fetch_of_ready hready) (i := .decompress) (rest := []) rfl, ?_⟩
  rw [command_of_idle (s := { (s.provide d).offer opDecompress with cmd := none }) hs.1]
  exact ⟨⟨hs.2, rfl, hb, Nat.zero_le _, rfl, ⟨[], (List.append_nil _).symm, rfl⟩, rfl⟩, rfl, rfl, rfl⟩

/-- Bits that do not begin with the marker, or are too few to, are FormatError (R166, R201). -/
theorem readMarker_of_take_ne {s : State} {bs : Bits} (h : bs.take 32 ≠ bits 32 s.marker.toNat) :
    s.readMarker bs = (s.readField Config.markerW bs).2.raise .format := by
  rcases readMarker_cases s bs with ⟨-, hlen, hacc⟩ | ⟨e, -⟩
  · rw [readField_eq] at hacc
    have hbits : bits 32 s.marker.toNat = bs.take 32 := by
      rw [← hacc]
      exact bits_ofNat_val (List.length_take_of_le hlen)
    exact absurd hbits.symm h
  · exact e

/-- D_MARK writes nothing when it raises FormatError (R191). -/
theorem decoding_of_wrongMarker {s0 s : State} {b : Bits} {l : List Txn} {o : Bits} (h : Decoding s0 b l o s)
    (hp : s.phase = .dMark) (hf : s.flags = flagsAccepted)
    (hne : (b.drop s.inp.pos).take 32 ≠ bits 32 s0.marker.toNat) :
    ∃ t, step s = .next t ∧ Decoding s0 b (l ++ fieldReads Config.markerW (b.drop s.inp.pos)) o t ∧ t.phase = .close ∧
      t.flags = flagsAccepted.raised .format := by
  rw [← h.marker] at hne
  have hstep := (step_of_phase (i := .dMark) h.quiet hp nofun rfl).trans (execDMark_eq h.view)
  rw [readMarker_of_take_ne (s := s.viewBits b) hne] at hstep
  refine ⟨_, hstep, (decoding_readField h rfl Config.markerW).raise _, rfl, ?_⟩
  rw [readField_eq]
  exact congrArg (·.raised ErrKind.format) hf

/-- Settles O59: the command is accepted, D_MARK raises FormatError having written nothing (`decoding_of_wrongMarker`), and
CLOSE ends the command. -/
theorem wrongMarkerIsAlwaysFormatError : Obligations.WrongMarkerIsAlwaysFormatError := by
  intro s b hs hne
  obtain ⟨s1, e1, h1, hpos, hp1, hf1⟩ := decoding_of_offer hs (asBits_bits b 0)
  have hleft : b.drop s1.inp.pos = b := by rw [hpos, List.drop_zero]
  obtain ⟨s2, e2, h2, hp2, hf2⟩ := decoding_of_wrongMarker h1 hp1 hf1 (by rwa [hleft])
  have e3 : step s2 = .next s2.closeOut.finish := step_of_phase (i := .closePhase) h2.quiet hp2 nofun rfl
  refine ⟨s2.closeOut.finish, ?_, rfl, ?_, h2.out, rfl⟩
  · rw [run_succ 2 e1, run_succ 1 e2, run_succ 0 e3]
    rfl
  · exact congrArg Flags.finished hf2

end Sys2Proof.Machine

namespace Sys2Proof.Machine

/-! ### Reset (R230, R233) -/

/-- Settles O1: the fields of `State.reset`, read off. -/
theorem resetLeavesIdleWithFlagsClear : Obligations.ResetLeavesIdleWithFlagsClear :=
  ⟨rfl, rfl, rfl, rfl, rfl, rfl⟩

/-- After `rst` a command can start, whatever ran before (R230, R233). -/
theorem rst_ready (s : State) : s.rst.Ready := ⟨rfl, rfl, rfl⟩

/-- Settles O2: the block is ready after `rst`, so that the step selects the command offered (`fetch_of_ready`), and in IDLE
it is accepted (O4). -/
theorem rstAbandonsTheCommand : Obligations.RstAbandonsTheCommand := by
  intro s
  have hready : (s.rst.offer opDecompress).Ready := rst_ready s
  have hstep : step (s.rst.offer opDecompress) = exec .decompress { s.rst with cmd := none } :=
    step_of_decode (fetch_of_ready hready) (rest := []) rfl
  obtain ⟨-, haccept⟩ := (commandAcceptedExactlyInIdle { s.rst with cmd := none }).1 rfl
  have hstatus : s.rst.statusWord = 0 := by
    rw [State.statusWord, State.rst_flags]
    rfl
  exact ⟨rst_ready s, hstatus, rfl, rfl, rfl, rfl, rfl, rfl, hstep, _, hstep.trans haccept, rfl, rfl⟩

/-! ### ENCODE of a byte with no code (R241) -/

/-- Settles O38 by `encodeLoop_eq`: not every byte left has a code. -/
theorem encodeStopsAtAByteWithoutACode : Obligations.EncodeStopsAtAByteWithoutACode := by
  intro s x hx ⟨b, hb, hinvalid⟩
  have huncoded : ¬ ∀ r ∈ x.drop s.inp.pos, ((s.viewBytes x).codeOfByte r).valid = true := fun hall =>
    Bool.false_ne_true (hinvalid.symm.trans (hall b hb))
  show execEncode s = _
  rw [execEncode_eq hx, encodeLoop_eq, if_neg huncoded, andThen_fault]

/-! ### A command held off (R40, R242) -/

/-- What the operation does with the state does not depend on the command offered, and leaves the offer standing. -/
def HoldsOff (k : State → Answer State) : Prop :=
  ∀ ⦃s t : State⦄ ⦃op : BitVec 2⦄, k s = .next t → k (s.offer op) = .next (t.offer op)

/-- An operation that always answers holds an offer off if it commutes with it. -/
theorem holdsOff_next {f : State → State} (hf : ∀ s op, f (s.offer op) = (f s).offer op) :
    HoldsOff fun s => .next (f s) := by
  intro s t op h
  cases h
  exact congrArg Host.Outcome.next (hf s op)

theorem HoldsOff.then {a k : State → Answer State} (ha : HoldsOff a) (hk : HoldsOff k) :
    HoldsOff fun s => andThen (a s) k := by
  intro s t op h
  obtain ⟨u, hu, h⟩ := andThen_eq_next h
  show andThen (a (s.offer op)) k = _
  rw [ha hu, andThen_next, hk h]

theorem HoldsOff.comp {k : State → Answer State} {f : State → State} (hk : HoldsOff k)
    (hf : ∀ s op, f (s.offer op) = (f s).offer op) : HoldsOff fun s => k (f s) := by
  intro s t op h
  show k (f (s.offer op)) = _
  rw [hf]
  exact hk h

theorem holdsOff_withBits {k : State → Answer State} (hk : HoldsOff k) : HoldsOff fun s => s.withBits k := by
  intro s t op h
  obtain ⟨b, hb, h⟩ := withBits_eq_next h
  exact (withBits_eq (s := s.offer op) hb k).trans (hk h)

theorem holdsOff_withBytes {k : State → Answer State} (hk : HoldsOff k) : HoldsOff fun s => s.withBytes k := by
  intro s t op h
  obtain ⟨x, hx, h⟩ := withBytes_eq_next h
  exact (withBytes_eq (s := s.offer op) hx k).trans (hk h)

/-! #### Functions of the state that leave an offer standing -/

section
variable (s : State) (op : BitVec 2)

theorem nodeAt_offer (i : Idx) : (s.offer op).nodeAt i = s.nodeAt i := rfl

theorem bitsLeft_offer : (s.offer op).bitsLeft = s.bitsLeft := rfl

theorem bytesLeft_offer : (s.offer op).bytesLeft = s.bytesLeft := rfl

theorem setPhase_offer (p : Phase) : (s.offer op).setPhase p = (s.setPhase p).offer op := rfl

theorem freeSym_offer : (s.offer op).freeSym = s.freeSym.offer op := rfl

theorem startCodes_offer : (s.offer op).startCodes = s.startCodes.offer op := rfl

theorem freePath_offer : (s.offer op).freePath = s.freePath.offer op := rfl

theorem countLoop_offer (x : List Byte) : countLoop x (s.offer op) = (countLoop x s).offer op := by
  rw [countLoop_eq, countLoop_eq]
  rfl

theorem addLeaf_offer (y : Nat) : (s.offer op).addLeaf y = (s.addLeaf y).offer op := by
  rw [State.addLeaf, State.addLeaf, apply_ite (State.offer · op)]
  rfl

theorem addLeaves_offer : (s.offer op).addLeaves = s.addLeaves.offer op :=
  List.foldl_hom (State.offer · op) fun s y => addLeaf_offer s op y

theorem takeRoot_offer : (s.offer op).takeRoot = s.takeRoot.offer op := by
  rw [State.takeRoot, State.takeRoot, State.offer_pq]
  cases s.pq <;> rfl

theorem mergeLoop_offer (k : Nat) : mergeLoop k (s.offer op) = (mergeLoop k s).offer op := by
  induction k generalizing s with
  | zero => rfl
  | succ k ih =>
    rw [mergeLoop, mergeLoop, State.offer_pq]
    split
    · rename_i a b rest _
      exact ih (s.merge a b rest)
    · rfl

theorem buildTree_offer : (s.offer op).buildTree = s.buildTree.offer op := by
  have hleaves : (s.offer op).startBuild.addLeaves = s.startBuild.addLeaves.offer op := addLeaves_offer s.startBuild op
  rw [State.buildTree, hleaves, State.offer_pq, mergeLoop_offer, takeRoot_offer, ← State.buildTree]

theorem checkMarker_offer : (s.offer op).checkMarker = s.checkMarker.offer op := by
  rw [State.checkMarker, State.checkMarker, apply_ite (State.offer · op)]
  rfl

theorem readField_offer (n : Nat) (bs : Bits) :
    (s.offer op).readField n bs = ((s.readField n bs).1, (s.readField n bs).2.offer op) := by
  rw [readField_eq, readField_eq]
  rfl

theorem readMarker_offer (bs : Bits) : (s.offer op).readMarker bs = (s.readMarker bs).offer op := by
  rw [State.readMarker, State.readMarker, readField_offer]
  obtain ⟨_ | _, u⟩ := s.readField Config.markerW bs
  · rfl
  · exact checkMarker_offer u op

theorem closeSubtree_offer (st : List (Idx × BitVec 2)) (i : Idx) :
    closeSubtree st i (s.offer op) = (closeSubtree st i s).offer op := by
  induction st generalizing i s with
  | nil => rfl
  | cons e st ih =>
    rw [closeSubtree, closeSubtree]
    split
    · rfl
    · exact ih (s.putInner e.1 (e.1 + 1) i) e.1

theorem leafField_offer (i : Idx) (bs : Bits) : (s.offer op).leafField i bs = (s.leafField i bs).offer op := by
  rw [State.leafField, State.leafField, readField_offer]
  obtain ⟨_ | _, u⟩ := s.readField Config.symW bs
  · rfl
  · exact closeSubtree_offer (u.putLeaf i (u.regs.acc.setWidth 9)) op u.stk i

theorem tokenN_offer : (s.offer op).tokenN = s.tokenN.offer op := by
  rw [State.tokenN, State.tokenN, apply_ite (State.offer · op)]
  rfl

theorem tokenL_offer (bs : Bits) : (s.offer op).tokenL bs = (s.tokenL bs).offer op := by
  rw [State.tokenL, State.tokenL, apply_ite (State.offer · op), ← leafField_offer]
  rfl

theorem headerToken_offer : (s.offer op).headerToken = s.headerToken.offer op := by
  rw [State.headerToken, State.headerToken, bitsLeft_offer, apply_ite (State.offer · op)]
  cases s.bitsLeft with
  | nil => rfl
  | cons b bs =>
    cases b with
    | false => exact congrArg (ite _ _) (tokenN_offer s op)
    | true => exact congrArg (ite _ _) (tokenL_offer s op bs)

theorem headerLoop_offer (k : Nat) : headerLoop k (s.offer op) = (headerLoop k s).offer op := by
  induction k generalizing s with
  | zero => rfl
  | succ k ih =>
    rw [headerLoop, headerLoop, headerToken_offer, ih, apply_ite (State.offer · op)]
    rfl

end

/-! #### The operations -/

theorem holdsOff_execCount : HoldsOff execCount :=
  holdsOff_withBytes (holdsOff_next fun s op =>
    congrArg (fun u : State => (u.setFreq 256 1).freeSym.setPhase .cBuild) (countLoop_offer s.clearFreq op s.bytesLeft))

theorem holdsOff_execBuild : HoldsOff execBuild :=
  holdsOff_next fun s op => by rw [buildTree_offer, freeSym_offer, setPhase_offer]

theorem holdsOff_setCode (y : Sym) (p : Bits) : HoldsOff fun s => s.setCode y p := by
  intro s t op h
  by_cases hy : y.toNat < Config.nsym
  · cases (if_pos hy).symm.trans h
    exact if_pos hy
  · cases (if_neg hy).symm.trans h

theorem holdsOff_gen (k : Nat) (i : Idx) (p : Bits) : HoldsOff (gen k i p) := by
  induction k generalizing i p with
  | zero => exact fun _ _ _ h => nomatch h
  | succ k ih =>
    intro s t op h
    rw [gen] at h ⊢
    rw [nodeAt_offer]
    split at h
    · cases h
    · exact holdsOff_setCode _ _ h
    · exact (ih _ _).then (ih _ _) h

theorem holdsOff_fillCodes : HoldsOff State.fillCodes := by
  intro s t op h
  rw [State.fillCodes] at h ⊢
  rw [State.offer_regs, nodeAt_offer]
  split at h
  · cases h
  · exact holdsOff_setCode _ _ h
  · exact holdsOff_gen _ _ _ h

theorem holdsOff_execGencodes : HoldsOff execGencodes :=
  HoldsOff.then (holdsOff_fillCodes.comp startCodes_offer)
    (holdsOff_next fun s op => by rw [freePath_offer, setPhase_offer])

theorem holdsOff_ser (k : Nat) (i : Idx) : HoldsOff (ser k i) := by
  induction k generalizing i with
  | zero => exact fun _ _ _ h => nomatch h
  | succ k ih =>
    intro s t op h
    rw [ser] at h ⊢
    rw [nodeAt_offer]
    split at h
    · cases h
    · cases h
      rfl
    · exact ((ih _).comp fun _ _ => rfl).then (ih _) h

theorem holdsOff_execHdrser : HoldsOff execHdrser :=
  HoldsOff.then (a := fun s => ser Config.nodeCap s.regs.root s.clearStk) (fun _ _ _ h => holdsOff_ser _ _ h)
    (holdsOff_next fun _ _ => rfl)

theorem holdsOff_encodeLoop (rs : List Byte) : HoldsOff (encodeLoop rs) := by
  intro s t op h
  rw [encodeLoop_eq] at h ⊢
  split at h
  · rename_i hall
    cases h
    exact if_pos hall
  · cases h

theorem holdsOff_execEncode : HoldsOff execEncode :=
  holdsOff_withBytes (HoldsOff.then (a := fun s => encodeLoop s.bytesLeft s) (fun _ _ _ h => holdsOff_encodeLoop _ h)
    (holdsOff_next fun _ _ => rfl))

theorem holdsOff_execDMark : HoldsOff execDMark :=
  holdsOff_withBits (holdsOff_next fun s op => readMarker_offer s op s.bitsLeft)

theorem holdsOff_execHdrdes : HoldsOff execHdrdes :=
  holdsOff_withBits (holdsOff_next fun s op =>
    congrArg (fun u : State => { u with stk := [] }) (headerLoop_offer s.startHeader op (Config.nodeCap + 1)))

theorem holdsOff_landOn (n : Idx) : HoldsOff fun s => s.landOn n := by
  intro s t op h
  simp only [State.landOn] at h ⊢
  rw [nodeAt_offer]
  split at h
  · cases h
  · cases h
    rfl
  · split at h <;> cases h <;> rename_i hy
    · exact if_pos hy
    · exact if_neg hy

theorem holdsOff_moveBy (b : Bool) : HoldsOff fun s => s.moveBy b := by
  intro s t op h
  simp only [State.moveBy] at h ⊢
  rw [State.offer_regs, nodeAt_offer]
  split at h
  · cases h
  · exact holdsOff_landOn _ h
  · exact holdsOff_landOn _ h

theorem holdsOff_walkStep : HoldsOff State.walkStep := by
  refine holdsOff_withBits fun s t op h => ?_
  rw [bitsLeft_offer]
  split at h
  · cases h
    rfl
  · exact holdsOff_moveBy _ h

theorem holdsOff_execReadByte : HoldsOff execReadByte := by
  refine holdsOff_withBytes fun s t op h => ?_
  rw [bytesLeft_offer]
  split at h <;> cases h <;> rfl

theorem holdsOff_execReadBit : HoldsOff execReadBit := by
  refine holdsOff_withBits fun s t op h => ?_
  rw [bitsLeft_offer]
  split at h <;> cases h <;> rfl

/-- Every operation of a phase and every stream transaction holds an offer off (R242). -/
theorem holdsOff_exec {i : Instr} (hf : i.format = .inOp ∨ i.format = .outOp ∨ i.format = .phase) :
    HoldsOff (exec i) := by
  cases i with
  | count => exact holdsOff_execCount
  | build => exact holdsOff_execBuild
  | gencodes => exact holdsOff_execGencodes
  | hdrser => exact holdsOff_execHdrser
  | encode => exact holdsOff_execEncode
  | dMark => exact holdsOff_execDMark
  | hdrdes => exact holdsOff_execHdrdes
  | walk => exact holdsOff_walkStep.comp fun _ _ => rfl
  | walkInt => exact holdsOff_walkStep
  | readByte => exact holdsOff_execReadByte
  | readBit => exact holdsOff_execReadBit
  | cMark | cRewind | cTerm | closePhase | reset | writeBits _ _ | close => exact holdsOff_next fun _ _ => rfl
  | _ => simp [Instr.format] at hf

/-! #### The step -/

/-- Outside IDLE an offer changes nothing of what is fetched, a transaction or the phase's operation, and it goes on
standing (R40). -/
theorem fetch_offer_of_busy {s : State} (hp : s.phase ≠ .idle) (op : BitVec 2) :
    ∃ f w u, (f = .inOp ∨ f = .outOp ∨ f = .phase) ∧ s.fetch = some (f, w, u) ∧
      (s.offer op).fetch = some (f, w, u.offer op) := by
  rcases fetch_cases s with ⟨r, hr, hf⟩ | ⟨r, hin, hr, hf⟩ | ⟨-, -, hidle, -⟩ | ⟨hin, hout, -, hf⟩
  · exact ⟨_, _, _, .inl rfl, hf, fetch_of_inReq (s := s.offer op) hr⟩
  · exact ⟨_, _, _, .inr (.inl rfl), hf, fetch_of_outReq (s := s.offer op) hin hr⟩
  · exact absurd hidle hp
  · exact ⟨_, _, _, .inr (.inr rfl), hf, fetch_of_busy (s := s.offer op) ⟨hin, hout⟩ hp⟩

theorem holdsOff_noInstr (e : DecodeError) : HoldsOff (noInstr e) := by
  intro s t op h
  cases e <;> cases h
  rfl

/-- Settles O5: the same instruction is fetched (`fetch_offer_of_busy`), which holds the offer off (`holdsOff_exec`). -/
theorem commandOfferedWhileBusyIsHeldOff : Obligations.CommandOfferedWhileBusyIsHeldOff := by
  intro s t op hp h
  obtain ⟨f, w, u, hformat, hf, hoffer⟩ := fetch_offer_of_busy hp op
  simp only [step, hf, hoffer] at h ⊢
  split at h <;> rename_i hd
  · obtain ⟨-, hi, -⟩ := decodeAcceptsOnlyEncodings _ _ _ _ hd
    exact holdsOff_exec (by rwa [hi]) h
  · exact holdsOff_noInstr _ h

end Sys2Proof.Machine
